-- ==== Sys2Proof/Word.lean ====
section
/-! DEFINITION. The word types of the block (spec/00_scope.md R9, R10) and the three access widths. -/

namespace Sys2Proof

/-- Eight bits. -/
abbrev Byte := BitVec 8
/-- Sixteen bits: a selector, a port number, `IP`. -/
abbrev Word16 := BitVec 16
/-- Thirty-two bits: a general register, an offset, a linear address (R9 `XLEN`, `PALEN`). -/
abbrev Word32 := BitVec 32
/-- Sixty-four bits: the instruction counter (R39) and the qword access (R66). -/
abbrev Word64 := BitVec 64

/-- The widths of a data access or register view: 1, 2 or 4 bytes (R70). -/
inductive Width where
  | byte | word | dword
  deriving DecidableEq, Repr

/-- How many bytes a width has. -/
def Width.bytes : Width → Nat
  | .byte => 1
  | .word => 2
  | .dword => 4

end Sys2Proof
end

