-- ==== Sys2Proof/Syntax.lean ====
section
/-! DEFINITION. The instructions as data: one constructor of `Instr` per row of
spec/opcode_table.json, with the operand forms of spec/30_encoding.md R103 to R108. Nothing of the
bytes is lost, so that `encode` can give them back. -/

namespace Sys2Proof

/-- A general-register number, named by the 32-bit register it selects (R21): 0 EAX to 7 EDI. As an
8-bit operand the numbers 4 to 7 are AH, CH, DH, BH. -/
inductive Reg where
  | eax | ecx | edx | ebx | esp | ebp | esi | edi
  deriving DecidableEq, Repr

/-- A segment-register number (R30): 0 ES to 5 GS. -/
inductive SegReg where
  | es | cs | ss | ds | fs | gs
  deriving DecidableEq, Repr

/-- The base sum of a 16-bit memory form, `rm` 0 to 7 (R172). -/
inductive Base16 where
  | bxSi | bxDi | bpSi | bpDi | si | di | bp | bx
  deriving DecidableEq, Repr

/-- The displacement of a 16-bit form: `mod` 0, 1, 2 (R105, R173). -/
inductive Disp16 where
  | d0
  | d8 (v : Byte)
  | d16 (v : Word16)
  deriving DecidableEq, Repr

/-- The displacement of a 32-bit form: `mod` 0, 1, 2 (R105, R177). -/
inductive Disp32 where
  | d0
  | d8 (v : Byte)
  | d32 (v : Word32)
  deriving DecidableEq, Repr

/-- A memory operand of a ModRM form (R172, R176, R180). In a SIB form the index `esp` (number 4)
means "no index". -/
inductive Mem where
  | abs16 (disp : Word16)
  | based16 (base : Base16) (disp : Disp16)
  | abs32 (disp : Word32)
  | based32 (base : Reg) (disp : Disp32)
  | sibAbs (scale : BitVec 2) (index : Reg) (disp : Word32)
  | sib (scale : BitVec 2) (index base : Reg) (disp : Disp32)
  deriving DecidableEq, Repr

/-- The `r/m` operand: a register reference (`mod == 3`, R171) or a memory operand. -/
inductive Rm where
  | reg (r : Reg)
  | mem (m : Mem)
  deriving DecidableEq, Repr

/-- One constructor per row of spec/opcode_table.json. An operand of the operand or address size is
the value `FetchOp`/`FetchAddr` gives, zero-extended to 32 bits (R155); a relative offset is kept as
fetched, unextended. -/
inductive Instr where
  -- the eleven legacy prefixes (R136 to R146)
  | segEs
  | segCs
  | segSs
  | segDs
  | segFs
  | segGs
  | opSize
  | adSize
  | lock
  | repne
  | rep
  -- the illegal sub-encodings (R111): the remaining ModRM fields
  | udMovRm16Sreg6 (mod : BitVec 2) (rm : BitVec 3)
  | udMovRm16Sreg7 (mod : BitVec 2) (rm : BitVec 3)
  | udLeaMod3 (reg rm : BitVec 3)
  | udMovSreg6Rm16 (mod : BitVec 2) (rm : BitVec 3)
  | udMovSreg7Rm16 (mod : BitVec 2) (rm : BitVec 3)
  | udC6r1 (mod : BitVec 2) (rm : BitVec 3)
  | udC6r2 (mod : BitVec 2) (rm : BitVec 3)
  | udC6r3 (mod : BitVec 2) (rm : BitVec 3)
  | udC6r4 (mod : BitVec 2) (rm : BitVec 3)
  | udC6r5 (mod : BitVec 2) (rm : BitVec 3)
  | udC6r6 (mod : BitVec 2) (rm : BitVec 3)
  | udC6r7 (mod : BitVec 2) (rm : BitVec 3)
  | udC7r1 (mod : BitVec 2) (rm : BitVec 3)
  | udC7r2 (mod : BitVec 2) (rm : BitVec 3)
  | udC7r3 (mod : BitVec 2) (rm : BitVec 3)
  | udC7r4 (mod : BitVec 2) (rm : BitVec 3)
  | udC7r5 (mod : BitVec 2) (rm : BitVec 3)
  | udC7r6 (mod : BitVec 2) (rm : BitVec 3)
  | udC7r7 (mod : BitVec 2) (rm : BitVec 3)
  -- stack (R238 to R248)
  | pushEs
  | popEs
  | pushCs
  | pushSs
  | popSs
  | pushDs
  | popDs
  | pushReg (r : Reg)
  | popReg (r : Reg)
  -- conditional jumps (R283)
  | jo (d : Byte)
  | jno (d : Byte)
  | jb (d : Byte)
  | jae (d : Byte)
  | je (d : Byte)
  | jne (d : Byte)
  | jbe (d : Byte)
  | ja (d : Byte)
  | js (d : Byte)
  | jns (d : Byte)
  | jp (d : Byte)
  | jnp (d : Byte)
  | jl (d : Byte)
  | jge (d : Byte)
  | jle (d : Byte)
  | jg (d : Byte)
  -- MOV and LEA with ModRM (R221 to R227)
  | movRm8R8 (x : Rm) (r : Reg)
  | movRmR (x : Rm) (r : Reg)
  | movR8Rm8 (r : Reg) (x : Rm)
  | movRRm (r : Reg) (x : Rm)
  | movRm16Sreg (x : Rm) (sr : SegReg)
  | lea (r : Reg) (m : Mem)
  | movSregRm16 (sr : SegReg) (x : Rm)
  | nop
  | callFar (off : Word32) (sel : Word16)
  | pushf
  | popf
  -- MOV without ModRM (R228 to R233)
  | movAlMoffs (off : Word32)
  | movEaxMoffs (off : Word32)
  | movMoffsAl (off : Word32)
  | movMoffsEax (off : Word32)
  -- string instructions (R250 to R256)
  | movsb
  | movsw
  | stosb
  | stosw
  | lodsb
  | lodsw
  | movR8Imm (r : Reg) (v : Byte)
  | movRImm (r : Reg) (v : Word32)
  | ret
  | movRm8Imm (x : Rm) (v : Byte)
  | movRmImm (x : Rm) (v : Word32)
  | retf
  | int3
  | int (n : Byte)
  | into
  | iret
  -- loops (R284 to R287)
  | loopne (d : Byte)
  | loope (d : Byte)
  | loop (d : Byte)
  | jcxz (d : Byte)
  -- port I/O with an immediate port (R262 to R265)
  | inAlImm (p : Byte)
  | inEaxImm (p : Byte)
  | outImmAl (p : Byte)
  | outImmEax (p : Byte)
  -- near and far transfers (R288 to R290, R292)
  | callRel (d : Word32)
  | jmpRel (d : Word32)
  | jmpFar (off : Word32) (sel : Word16)
  | jmpRel8 (d : Byte)
  -- port I/O through DX (R266 to R269)
  | inAlDx
  | inEaxDx
  | outDxAl
  | outDxEax
  -- halt and flags (R299, R301 to R307)
  | hlt
  | cmc
  | clc
  | stc
  | cli
  | sti
  | cld
  | std
  -- every opcode byte outside the reference set (R149)
  | ext (op : Byte)
  deriving DecidableEq, Repr

end Sys2Proof
end

