-- ==== Sys2Proof/WellFormed.lean ====
section
/-! DEFINITION. Which instruction terms an encoding exists for, under the operand size and address
size in force (spec/30_encoding.md R105 to R109). -/

namespace Sys2Proof

/-- The two mode bits decoding depends on (R101, R107): 32-bit operands, 32-bit addresses. -/
structure Sizes where
  data32 : Bool
  addr32 : Bool
  deriving DecidableEq, Repr

/-- A value of the operand or address size: any 32-bit value, or one whose upper half is zero (R155). -/
def fitsSize (wide : Bool) (v : Word32) : Bool :=
  wide || v.toNat < 0x10000

/-- The memory forms the address size has (R105): `mod == 0` with base `BP` is the absolute form, `rm
== 4` is the SIB form, `mod == 0` with base `EBP` is the absolute form. -/
def Mem.wellFormed (addr32 : Bool) : Mem → Bool
  | .abs16 _ => !addr32
  | .based16 b d => !addr32 && !(b == .bp && d == .d0)
  | .abs32 _ => addr32
  | .based32 b d => addr32 && b != .esp && !(b == .ebp && d == .d0)
  | .sibAbs _ _ _ => addr32
  | .sib _ _ b d => addr32 && !(b == .ebp && d == .d0)

/-- A register reference is a form of both address sizes. -/
def Rm.wellFormed (addr32 : Bool) : Rm → Bool
  | .reg _ => true
  | .mem m => m.wellFormed addr32

/-- The external opcode bytes of R109: neither a prefix nor a byte of the reference set. -/
def isExternal (op : Byte) : Bool :=
  let n := op.toNat
  n ≤ 0x05 || (0x08 ≤ n && n ≤ 0x0D) || (0x0F ≤ n && n ≤ 0x15) || (0x18 ≤ n && n ≤ 0x1D) ||
  (0x20 ≤ n && n ≤ 0x25) || (0x27 ≤ n && n ≤ 0x2D) || (0x2F ≤ n && n ≤ 0x35) ||
  (0x37 ≤ n && n ≤ 0x3D) || (0x3F ≤ n && n ≤ 0x4F) || (0x60 ≤ n && n ≤ 0x63) ||
  (0x68 ≤ n && n ≤ 0x6F) || (0x80 ≤ n && n ≤ 0x87) || n == 0x8F || (0x91 ≤ n && n ≤ 0x99) ||
  n == 0x9B || n == 0x9E || n == 0x9F || (0xA6 ≤ n && n ≤ 0xA9) || n == 0xAE || n == 0xAF ||
  (0xC0 ≤ n && n ≤ 0xC2) || n == 0xC4 || n == 0xC5 || (0xC8 ≤ n && n ≤ 0xCA) ||
  (0xD0 ≤ n && n ≤ 0xDF) || n == 0xF1 || n == 0xF6 || n == 0xF7 || n == 0xFE || n == 0xFF

/-- An illegal ModRM row of `8C`, `8E`, `C6`, `C7` exists for every `mod` and `rm`; every other term
is well-formed when its operands are. -/
def Instr.wellFormed (sz : Sizes) : Instr → Bool
  | .movRm8R8 x _ | .movRmR x _ | .movR8Rm8 _ x | .movRRm _ x => x.wellFormed sz.addr32
  | .movRm16Sreg x _ | .movSregRm16 _ x | .movRm8Imm x _ => x.wellFormed sz.addr32
  | .movRmImm x v => x.wellFormed sz.addr32 && fitsSize sz.data32 v
  | .lea _ m => m.wellFormed sz.addr32
  | .movAlMoffs o | .movEaxMoffs o | .movMoffsAl o | .movMoffsEax o => fitsSize sz.addr32 o
  | .movRImm _ v | .callRel v | .jmpRel v => fitsSize sz.data32 v
  | .callFar o _ | .jmpFar o _ => fitsSize sz.data32 o
  | .ext op => isExternal op
  | .segEs | .segCs | .segSs | .segDs | .segFs | .segGs | .opSize | .adSize | .lock | .repne
  | .rep | .udMovRm16Sreg6 _ _ | .udMovRm16Sreg7 _ _ | .udLeaMod3 _ _ | .udMovSreg6Rm16 _ _
  | .udMovSreg7Rm16 _ _ | .udC6r1 _ _ | .udC6r2 _ _ | .udC6r3 _ _ | .udC6r4 _ _ | .udC6r5 _ _
  | .udC6r6 _ _ | .udC6r7 _ _ | .udC7r1 _ _ | .udC7r2 _ _ | .udC7r3 _ _ | .udC7r4 _ _
  | .udC7r5 _ _ | .udC7r6 _ _ | .udC7r7 _ _ => true
  | .pushEs | .popEs | .pushCs | .pushSs | .popSs | .pushDs | .popDs | .pushReg _ | .popReg _
  | .pushf | .popf | .movsb | .movsw | .stosb | .stosw | .lodsb | .lodsw | .movR8Imm _ _ => true
  | .jo _ | .jno _ | .jb _ | .jae _ | .je _ | .jne _ | .jbe _ | .ja _ | .js _ | .jns _ | .jp _
  | .jnp _ | .jl _ | .jge _ | .jle _ | .jg _ | .loopne _ | .loope _ | .loop _ | .jcxz _
  | .jmpRel8 _ | .ret | .retf | .int3 | .int _ | .into | .iret => true
  | .inAlImm _ | .inEaxImm _ | .outImmAl _ | .outImmEax _ | .inAlDx | .inEaxDx | .outDxAl
  | .outDxEax | .nop | .hlt | .cmc | .clc | .stc | .cli | .sti | .cld | .std => true

end Sys2Proof
end

