-- ==== Sys2Proof/Decode.lean ====
section
/-! DEFINITION. Decoding and encoding (spec/30_encoding.md). Decoding is written once as a `Fetch`
program: the calls of `FetchByte`, `FetchWord`, `FetchDword` (spec/40_decode_dispatch.md R154) that the
prefix loop, the handlers and the resolver make, in the spec's order, ending in the instruction. The
machine runs that program on its memory (Machine/Ops.lean, `fetchRun`); `decode` runs it on a list of
bytes. `encode` is the other direction. -/

namespace Sys2Proof

/-- A sequence of fetches, each consuming 1, 2 or 4 bytes (R154), and what comes of them. -/
inductive Fetch where
  | done (i : Instr)
  | byte (k : Byte → Fetch)
  | word (k : Word16 → Fetch)
  | dword (k : Word32 → Fetch)

/-! ## The fields of the encoding bytes -/

/-- The register a three-bit number selects (R21). -/
def Reg.ofBits (n : BitVec 3) : Reg :=
  match n.toNat with
  | 0 => .eax
  | 1 => .ecx
  | 2 => .edx
  | 3 => .ebx
  | 4 => .esp
  | 5 => .ebp
  | 6 => .esi
  | _ => .edi

/-- The number of a register (R21). -/
def Reg.toBits : Reg → BitVec 3
  | .eax => 0#3
  | .ecx => 1#3
  | .edx => 2#3
  | .ebx => 3#3
  | .esp => 4#3
  | .ebp => 5#3
  | .esi => 6#3
  | .edi => 7#3

/-- The segment register a three-bit number selects; numbers 6 and 7 select none (R30). -/
def SegReg.ofBits (n : BitVec 3) : Option SegReg :=
  match n.toNat with
  | 0 => some .es
  | 1 => some .cs
  | 2 => some .ss
  | 3 => some .ds
  | 4 => some .fs
  | 5 => some .gs
  | _ => none

/-- The number of a segment register (R30). -/
def SegReg.toBits : SegReg → BitVec 3
  | .es => 0#3
  | .cs => 1#3
  | .ss => 2#3
  | .ds => 3#3
  | .fs => 4#3
  | .gs => 5#3

/-- The base sum a 16-bit `rm` selects (R172). -/
def Base16.ofBits (n : BitVec 3) : Base16 :=
  match n.toNat with
  | 0 => .bxSi
  | 1 => .bxDi
  | 2 => .bpSi
  | 3 => .bpDi
  | 4 => .si
  | 5 => .di
  | 6 => .bp
  | _ => .bx

/-- The 16-bit `rm` of a base sum (R172). -/
def Base16.toBits : Base16 → BitVec 3
  | .bxSi => 0#3
  | .bxDi => 1#3
  | .bpSi => 2#3
  | .bpDi => 3#3
  | .si => 4#3
  | .di => 5#3
  | .bp => 6#3
  | .bx => 7#3

/-- ModRM `mod = b[7:6]` and SIB `scale = b[7:6]` (R103, R104). -/
def topField (b : Byte) : BitVec 2 := b.extractLsb' 6 2
/-- ModRM `reg = b[5:3]` and SIB `index = b[5:3]` (R103, R104). -/
def midField (b : Byte) : BitVec 3 := b.extractLsb' 3 3
/-- ModRM `rm = b[2:0]`, SIB `base = b[2:0]` (R103, R104), and `r = op[2:0]` (R102). -/
def lowField (b : Byte) : BitVec 3 := b.extractLsb' 0 3

/-- A byte of three fields: ModRM or SIB. -/
def fieldByte (top : BitVec 2) (mid low : BitVec 3) : Byte := top ++ mid ++ low

/-- Little-endian assembly of two fetched bytes (R67). -/
def join16 (b0 b1 : Byte) : Word16 := b1 ++ b0
/-- Little-endian assembly of four fetched bytes (R67). -/
def join32 (b0 b1 b2 b3 : Byte) : Word32 := b3 ++ b2 ++ b1 ++ b0

/-- The two bytes of a 16-bit value, least significant first (R67). -/
def bytes16 (v : Word16) : List Byte := [v.extractLsb' 0 8, v.extractLsb' 8 8]
/-- The four bytes of a 32-bit value, least significant first (R67). -/
def bytes32 (v : Word32) : List Byte :=
  [v.extractLsb' 0 8, v.extractLsb' 8 8, v.extractLsb' 16 8, v.extractLsb' 24 8]

/-! ## Decoding -/

/-- `FetchOp()` or `FetchAddr()` (R155): 4 bytes where the size is 32 bits, else 2, zero-extended. -/
def Fetch.sized (wide : Bool) (k : Word32 → Fetch) : Fetch :=
  if wide then .dword k else .word fun v => k (v.setWidth 32)

/-- The displacement of a 16-bit form by `mod` 0, 1, 2 (R173). -/
def decodeDisp16 (mod : BitVec 2) (k : Disp16 → Fetch) : Fetch :=
  if mod = 0#2 then k .d0
  else if mod = 1#2 then .byte fun v => k (.d8 v)
  else .word fun v => k (.d16 v)

/-- The displacement of a 32-bit form by `mod` 0, 1, 2 (R177). -/
def decodeDisp32 (mod : BitVec 2) (k : Disp32 → Fetch) : Fetch :=
  if mod = 0#2 then k .d0
  else if mod = 1#2 then .byte fun v => k (.d8 v)
  else .dword fun v => k (.d32 v)

/-- The memory forms of 16-bit addressing (R172, R173). -/
def decodeMem16 (mod : BitVec 2) (rm : BitVec 3) (k : Mem → Fetch) : Fetch :=
  if mod = 0#2 ∧ rm = 6#3 then .word fun v => k (.abs16 v)
  else decodeDisp16 mod fun d => k (.based16 (Base16.ofBits rm) d)

/-- The memory forms of 32-bit addressing (R176, R177, R180). -/
def decodeMem32 (mod : BitVec 2) (rm : BitVec 3) (k : Mem → Fetch) : Fetch :=
  if rm = 4#3 then
    .byte fun b =>
      if mod = 0#2 ∧ lowField b = 5#3 then
        .dword fun v => k (.sibAbs (topField b) (Reg.ofBits (midField b)) v)
      else
        decodeDisp32 mod fun d =>
          k (.sib (topField b) (Reg.ofBits (midField b)) (Reg.ofBits (lowField b)) d)
  else if mod = 0#2 ∧ rm = 5#3 then .dword fun v => k (.abs32 v)
  else decodeDisp32 mod fun d => k (.based32 (Reg.ofBits rm) d)

/-- The memory forms, by the address size (R170). -/
def decodeMem (sz : Sizes) (mod : BitVec 2) (rm : BitVec 3) (k : Mem → Fetch) : Fetch :=
  if sz.addr32 then decodeMem32 mod rm k else decodeMem16 mod rm k

/-- The bytes `ResolveRM(mod, rm)` fetches (R170, R171, R183). -/
def decodeRm (sz : Sizes) (mod : BitVec 2) (rm : BitVec 3) (k : Rm → Fetch) : Fetch :=
  if mod = 3#2 then k (.reg (Reg.ofBits rm)) else decodeMem sz mod rm fun m => k (.mem m)

/-- `DecodeModRM()` then `ResolveRM` (R103, R184): the `/r` forms. -/
def decodeModRM (sz : Sizes) (k : Reg → Rm → Fetch) : Fetch :=
  .byte fun b => decodeRm sz (topField b) (lowField b) fun x => k (Reg.ofBits (midField b)) x

/-- `8C /r` (R225): `reg` 6 and 7 are detected right after the ModRM byte. -/
def decode8C (sz : Sizes) : Fetch :=
  .byte fun b =>
    match SegReg.ofBits (midField b) with
    | some sr => decodeRm sz (topField b) (lowField b) fun x => .done (.movRm16Sreg x sr)
    | none =>
      if midField b = 6#3 then .done (.udMovRm16Sreg6 (topField b) (lowField b))
      else .done (.udMovRm16Sreg7 (topField b) (lowField b))

/-- `8D /r` (R226): `mod == 3` is detected right after the ModRM byte. -/
def decode8D (sz : Sizes) : Fetch :=
  .byte fun b =>
    if topField b = 3#2 then .done (.udLeaMod3 (midField b) (lowField b))
    else decodeMem sz (topField b) (lowField b) fun m => .done (.lea (Reg.ofBits (midField b)) m)

/-- `8E /r` (R227): `reg` 6 and 7 are detected right after the ModRM byte. -/
def decode8E (sz : Sizes) : Fetch :=
  .byte fun b =>
    match SegReg.ofBits (midField b) with
    | some sr => decodeRm sz (topField b) (lowField b) fun x => .done (.movSregRm16 sr x)
    | none =>
      if midField b = 6#3 then .done (.udMovSreg6Rm16 (topField b) (lowField b))
      else .done (.udMovSreg7Rm16 (topField b) (lowField b))

/-- `C6 /digit` (R234): only `/0` is legal, and its immediate follows the displacement. -/
def decodeC6 (sz : Sizes) : Fetch :=
  .byte fun b =>
    let mod := topField b
    let rm := lowField b
    match (midField b).toNat with
    | 0 => decodeRm sz mod rm fun x => .byte fun v => .done (.movRm8Imm x v)
    | 1 => .done (.udC6r1 mod rm)
    | 2 => .done (.udC6r2 mod rm)
    | 3 => .done (.udC6r3 mod rm)
    | 4 => .done (.udC6r4 mod rm)
    | 5 => .done (.udC6r5 mod rm)
    | 6 => .done (.udC6r6 mod rm)
    | _ => .done (.udC6r7 mod rm)

/-- `C7 /digit` (R235): only `/0` is legal. -/
def decodeC7 (sz : Sizes) : Fetch :=
  .byte fun b =>
    let mod := topField b
    let rm := lowField b
    match (midField b).toNat with
    | 0 => decodeRm sz mod rm fun x => Fetch.sized sz.data32 fun v => .done (.movRmImm x v)
    | 1 => .done (.udC7r1 mod rm)
    | 2 => .done (.udC7r2 mod rm)
    | 3 => .done (.udC7r3 mod rm)
    | 4 => .done (.udC7r4 mod rm)
    | 5 => .done (.udC7r5 mod rm)
    | 6 => .done (.udC7r6 mod rm)
    | _ => .done (.udC7r7 mod rm)

/-- A far pointer: offset, then selector (R106 `ptr16:16/32`). -/
def decodePtr (sz : Sizes) (k : Word32 → Word16 → Fetch) : Fetch :=
  Fetch.sized sz.data32 fun off => .word fun sel => k off sel

/-- The prefix a byte is, for the eleven prefix bytes (R109, R135 to R146). -/
def prefixOf (op : Byte) : Option Instr :=
  match op.toNat with
  | 0x26 => some .segEs
  | 0x2E => some .segCs
  | 0x36 => some .segSs
  | 0x3E => some .segDs
  | 0x64 => some .segFs
  | 0x65 => some .segGs
  | 0x66 => some .opSize
  | 0x67 => some .adSize
  | 0xF0 => some .lock
  | 0xF2 => some .repne
  | 0xF3 => some .rep
  | _ => none

/-- What the reference handler of an opcode byte fetches once it is called, with `pc` after the byte
(R147, R148): its operands. A byte outside the reference set has no reference handler; it is the
external handler's (R149), which fetches what it wants itself. -/
def decodeOperands (sz : Sizes) (op : Byte) : Fetch :=
  match op.toNat with
  | 0x06 => .done .pushEs
  | 0x07 => .done .popEs
  | 0x0E => .done .pushCs
  | 0x16 => .done .pushSs
  | 0x17 => .done .popSs
  | 0x1E => .done .pushDs
  | 0x1F => .done .popDs
  | 0x50 | 0x51 | 0x52 | 0x53 | 0x54 | 0x55 | 0x56 | 0x57 =>
    .done (.pushReg (Reg.ofBits (lowField op)))
  | 0x58 | 0x59 | 0x5A | 0x5B | 0x5C | 0x5D | 0x5E | 0x5F =>
    .done (.popReg (Reg.ofBits (lowField op)))
  | 0x70 => .byte fun d => .done (.jo d)
  | 0x71 => .byte fun d => .done (.jno d)
  | 0x72 => .byte fun d => .done (.jb d)
  | 0x73 => .byte fun d => .done (.jae d)
  | 0x74 => .byte fun d => .done (.je d)
  | 0x75 => .byte fun d => .done (.jne d)
  | 0x76 => .byte fun d => .done (.jbe d)
  | 0x77 => .byte fun d => .done (.ja d)
  | 0x78 => .byte fun d => .done (.js d)
  | 0x79 => .byte fun d => .done (.jns d)
  | 0x7A => .byte fun d => .done (.jp d)
  | 0x7B => .byte fun d => .done (.jnp d)
  | 0x7C => .byte fun d => .done (.jl d)
  | 0x7D => .byte fun d => .done (.jge d)
  | 0x7E => .byte fun d => .done (.jle d)
  | 0x7F => .byte fun d => .done (.jg d)
  | 0x88 => decodeModRM sz fun r x => .done (.movRm8R8 x r)
  | 0x89 => decodeModRM sz fun r x => .done (.movRmR x r)
  | 0x8A => decodeModRM sz fun r x => .done (.movR8Rm8 r x)
  | 0x8B => decodeModRM sz fun r x => .done (.movRRm r x)
  | 0x8C => decode8C sz
  | 0x8D => decode8D sz
  | 0x8E => decode8E sz
  | 0x90 => .done .nop
  | 0x9A => decodePtr sz fun off sel => .done (.callFar off sel)
  | 0x9C => .done .pushf
  | 0x9D => .done .popf
  | 0xA0 => Fetch.sized sz.addr32 fun off => .done (.movAlMoffs off)
  | 0xA1 => Fetch.sized sz.addr32 fun off => .done (.movEaxMoffs off)
  | 0xA2 => Fetch.sized sz.addr32 fun off => .done (.movMoffsAl off)
  | 0xA3 => Fetch.sized sz.addr32 fun off => .done (.movMoffsEax off)
  | 0xA4 => .done .movsb
  | 0xA5 => .done .movsw
  | 0xAA => .done .stosb
  | 0xAB => .done .stosw
  | 0xAC => .done .lodsb
  | 0xAD => .done .lodsw
  | 0xB0 | 0xB1 | 0xB2 | 0xB3 | 0xB4 | 0xB5 | 0xB6 | 0xB7 =>
    .byte fun v => .done (.movR8Imm (Reg.ofBits (lowField op)) v)
  | 0xB8 | 0xB9 | 0xBA | 0xBB | 0xBC | 0xBD | 0xBE | 0xBF =>
    Fetch.sized sz.data32 fun v => .done (.movRImm (Reg.ofBits (lowField op)) v)
  | 0xC3 => .done .ret
  | 0xC6 => decodeC6 sz
  | 0xC7 => decodeC7 sz
  | 0xCB => .done .retf
  | 0xCC => .done .int3
  | 0xCD => .byte fun n => .done (.int n)
  | 0xCE => .done .into
  | 0xCF => .done .iret
  | 0xE0 => .byte fun d => .done (.loopne d)
  | 0xE1 => .byte fun d => .done (.loope d)
  | 0xE2 => .byte fun d => .done (.loop d)
  | 0xE3 => .byte fun d => .done (.jcxz d)
  | 0xE4 => .byte fun p => .done (.inAlImm p)
  | 0xE5 => .byte fun p => .done (.inEaxImm p)
  | 0xE6 => .byte fun p => .done (.outImmAl p)
  | 0xE7 => .byte fun p => .done (.outImmEax p)
  | 0xE8 => Fetch.sized sz.data32 fun d => .done (.callRel d)
  | 0xE9 => Fetch.sized sz.data32 fun d => .done (.jmpRel d)
  | 0xEA => decodePtr sz fun off sel => .done (.jmpFar off sel)
  | 0xEB => .byte fun d => .done (.jmpRel8 d)
  | 0xEC => .done .inAlDx
  | 0xED => .done .inEaxDx
  | 0xEE => .done .outDxAl
  | 0xEF => .done .outDxEax
  | 0xF4 => .done .hlt
  | 0xF5 => .done .cmc
  | 0xF8 => .done .clc
  | 0xF9 => .done .stc
  | 0xFA => .done .cli
  | 0xFB => .done .sti
  | 0xFC => .done .cld
  | 0xFD => .done .std
  | _ => .done (.ext op)

/-- What follows the first byte of a prefix or of an instruction (R109): a prefix byte is whole, an
opcode byte brings its operands' fetches. -/
def decodeOpcode (sz : Sizes) (op : Byte) : Fetch :=
  match prefixOf op with
  | some p => .done p
  | none => decodeOperands sz op

/-- The fetches of one prefix byte, or of an opcode byte and its operands (R135, R147). -/
def decodeFetch (sz : Sizes) : Fetch := .byte (decodeOpcode sz)

/-- Why a list of bytes is no instruction: the only reason is that the bytes run out, since every
opcode byte decodes (R112). -/
inductive DecodeError where
  /-- The instruction has more bytes than the list holds. -/
  | truncated
  deriving DecidableEq, Repr

/-- Run a fetch program on a list of bytes; the rest of the list comes back. -/
def Fetch.runBytes : Fetch → List Byte → Except DecodeError (Instr × List Byte)
  | .done i, bs => .ok (i, bs)
  | .byte k, b0 :: bs => (k b0).runBytes bs
  | .word k, b0 :: b1 :: bs => (k (join16 b0 b1)).runBytes bs
  | .dword k, b0 :: b1 :: b2 :: b3 :: bs => (k (join32 b0 b1 b2 b3)).runBytes bs
  | _, _ => .error .truncated

/-- Decode one prefix byte, or one opcode with its operands, from the front of a list of bytes. -/
def decode (sz : Sizes) (bs : List Byte) : Except DecodeError (Instr × List Byte) :=
  (decodeFetch sz).runBytes bs

/-- The prefix instructions of R136 to R146, after which the prefix loop goes on (R135). -/
def Instr.isPrefixByte : Instr → Bool
  | .segEs | .segCs | .segSs | .segDs | .segFs | .segGs | .opSize | .adSize | .lock | .repne
  | .rep => true
  | _ => false

/-! ## Encoding -/

/-- A value of the operand or address size as bytes (R106). -/
def sizedBytes (wide : Bool) (v : Word32) : List Byte :=
  if wide then bytes32 v else bytes16 (v.setWidth 16)

/-- `mod` and the displacement bytes of a 16-bit form (R105). -/
def Disp16.encode : Disp16 → BitVec 2 × List Byte
  | .d0 => (0#2, [])
  | .d8 v => (1#2, [v])
  | .d16 v => (2#2, bytes16 v)

/-- `mod` and the displacement bytes of a 32-bit form (R105). -/
def Disp32.encode : Disp32 → BitVec 2 × List Byte
  | .d0 => (0#2, [])
  | .d8 v => (1#2, [v])
  | .d32 v => (2#2, bytes32 v)

/-- ModRM, SIB and displacement of a memory operand with the `reg` field given (R103 to R105). -/
def Mem.encode (reg : BitVec 3) : Mem → List Byte
  | .abs16 v => fieldByte 0#2 reg 6#3 :: bytes16 v
  | .based16 b d => fieldByte d.encode.1 reg b.toBits :: d.encode.2
  | .abs32 v => fieldByte 0#2 reg 5#3 :: bytes32 v
  | .based32 b d => fieldByte d.encode.1 reg b.toBits :: d.encode.2
  | .sibAbs s i v => fieldByte 0#2 reg 4#3 :: fieldByte s i.toBits 5#3 :: bytes32 v
  | .sib s i b d => fieldByte d.encode.1 reg 4#3 :: fieldByte s i.toBits b.toBits :: d.encode.2

/-- ModRM, SIB and displacement of an `r/m` operand with the `reg` field given. -/
def Rm.encode (reg : BitVec 3) : Rm → List Byte
  | .reg r => [fieldByte 3#2 reg r.toBits]
  | .mem m => m.encode reg

/-- The opcode byte of a register-in-opcode form (R102). -/
def opPlus (base : Byte) (r : Reg) : Byte := base ||| r.toBits.setWidth 8

/-- The bytes of a well-formed instruction under the given sizes (R106, R109, R111). -/
def encode (sz : Sizes) : Instr → List Byte
  | .segEs => [0x26]
  | .segCs => [0x2E]
  | .segSs => [0x36]
  | .segDs => [0x3E]
  | .segFs => [0x64]
  | .segGs => [0x65]
  | .opSize => [0x66]
  | .adSize => [0x67]
  | .lock => [0xF0]
  | .repne => [0xF2]
  | .rep => [0xF3]
  | .udMovRm16Sreg6 mod rm => [0x8C, fieldByte mod 6#3 rm]
  | .udMovRm16Sreg7 mod rm => [0x8C, fieldByte mod 7#3 rm]
  | .udLeaMod3 reg rm => [0x8D, fieldByte 3#2 reg rm]
  | .udMovSreg6Rm16 mod rm => [0x8E, fieldByte mod 6#3 rm]
  | .udMovSreg7Rm16 mod rm => [0x8E, fieldByte mod 7#3 rm]
  | .udC6r1 mod rm => [0xC6, fieldByte mod 1#3 rm]
  | .udC6r2 mod rm => [0xC6, fieldByte mod 2#3 rm]
  | .udC6r3 mod rm => [0xC6, fieldByte mod 3#3 rm]
  | .udC6r4 mod rm => [0xC6, fieldByte mod 4#3 rm]
  | .udC6r5 mod rm => [0xC6, fieldByte mod 5#3 rm]
  | .udC6r6 mod rm => [0xC6, fieldByte mod 6#3 rm]
  | .udC6r7 mod rm => [0xC6, fieldByte mod 7#3 rm]
  | .udC7r1 mod rm => [0xC7, fieldByte mod 1#3 rm]
  | .udC7r2 mod rm => [0xC7, fieldByte mod 2#3 rm]
  | .udC7r3 mod rm => [0xC7, fieldByte mod 3#3 rm]
  | .udC7r4 mod rm => [0xC7, fieldByte mod 4#3 rm]
  | .udC7r5 mod rm => [0xC7, fieldByte mod 5#3 rm]
  | .udC7r6 mod rm => [0xC7, fieldByte mod 6#3 rm]
  | .udC7r7 mod rm => [0xC7, fieldByte mod 7#3 rm]
  | .pushEs => [0x06]
  | .popEs => [0x07]
  | .pushCs => [0x0E]
  | .pushSs => [0x16]
  | .popSs => [0x17]
  | .pushDs => [0x1E]
  | .popDs => [0x1F]
  | .pushReg r => [opPlus 0x50 r]
  | .popReg r => [opPlus 0x58 r]
  | .jo d => [0x70, d]
  | .jno d => [0x71, d]
  | .jb d => [0x72, d]
  | .jae d => [0x73, d]
  | .je d => [0x74, d]
  | .jne d => [0x75, d]
  | .jbe d => [0x76, d]
  | .ja d => [0x77, d]
  | .js d => [0x78, d]
  | .jns d => [0x79, d]
  | .jp d => [0x7A, d]
  | .jnp d => [0x7B, d]
  | .jl d => [0x7C, d]
  | .jge d => [0x7D, d]
  | .jle d => [0x7E, d]
  | .jg d => [0x7F, d]
  | .movRm8R8 x r => 0x88 :: x.encode r.toBits
  | .movRmR x r => 0x89 :: x.encode r.toBits
  | .movR8Rm8 r x => 0x8A :: x.encode r.toBits
  | .movRRm r x => 0x8B :: x.encode r.toBits
  | .movRm16Sreg x sr => 0x8C :: x.encode sr.toBits
  | .lea r m => 0x8D :: m.encode r.toBits
  | .movSregRm16 sr x => 0x8E :: x.encode sr.toBits
  | .nop => [0x90]
  | .callFar off sel => 0x9A :: (sizedBytes sz.data32 off ++ bytes16 sel)
  | .pushf => [0x9C]
  | .popf => [0x9D]
  | .movAlMoffs off => 0xA0 :: sizedBytes sz.addr32 off
  | .movEaxMoffs off => 0xA1 :: sizedBytes sz.addr32 off
  | .movMoffsAl off => 0xA2 :: sizedBytes sz.addr32 off
  | .movMoffsEax off => 0xA3 :: sizedBytes sz.addr32 off
  | .movsb => [0xA4]
  | .movsw => [0xA5]
  | .stosb => [0xAA]
  | .stosw => [0xAB]
  | .lodsb => [0xAC]
  | .lodsw => [0xAD]
  | .movR8Imm r v => [opPlus 0xB0 r, v]
  | .movRImm r v => opPlus 0xB8 r :: sizedBytes sz.data32 v
  | .ret => [0xC3]
  | .movRm8Imm x v => 0xC6 :: (x.encode 0#3 ++ [v])
  | .movRmImm x v => 0xC7 :: (x.encode 0#3 ++ sizedBytes sz.data32 v)
  | .retf => [0xCB]
  | .int3 => [0xCC]
  | .int n => [0xCD, n]
  | .into => [0xCE]
  | .iret => [0xCF]
  | .loopne d => [0xE0, d]
  | .loope d => [0xE1, d]
  | .loop d => [0xE2, d]
  | .jcxz d => [0xE3, d]
  | .inAlImm p => [0xE4, p]
  | .inEaxImm p => [0xE5, p]
  | .outImmAl p => [0xE6, p]
  | .outImmEax p => [0xE7, p]
  | .callRel d => 0xE8 :: sizedBytes sz.data32 d
  | .jmpRel d => 0xE9 :: sizedBytes sz.data32 d
  | .jmpFar off sel => 0xEA :: (sizedBytes sz.data32 off ++ bytes16 sel)
  | .jmpRel8 d => [0xEB, d]
  | .inAlDx => [0xEC]
  | .inEaxDx => [0xED]
  | .outDxAl => [0xEE]
  | .outDxEax => [0xEF]
  | .hlt => [0xF4]
  | .cmc => [0xF5]
  | .clc => [0xF8]
  | .stc => [0xF9]
  | .cli => [0xFA]
  | .sti => [0xFB]
  | .cld => [0xFC]
  | .std => [0xFD]
  | .ext op => [op]

/-! ## The opcode table's numbering -/

/-- The longest run of bytes one `decodeFetch` consumes: opcode, ModRM, SIB, four displacement and
four immediate bytes (R100). -/
def longestInstr : Nat := 11

/-- The bytes in memory order of a table key (R110): `key = {op, nb}`, so the opcode byte is bits
15:8 and the byte after it bits 7:0. A key of one byte is the opcode byte; bytes the table gives no
bits are zero. -/
def tableBytes (nbits w : Nat) : List Byte :=
  let op : Byte := if nbits ≤ 8 then BitVec.ofNat 8 w else BitVec.ofNat 8 (w / 0x100)
  let nb : Byte := if nbits ≤ 8 then 0#8 else BitVec.ofNat 8 w
  op :: nb :: (List.range (longestInstr - 2)).map fun k => BitVec.ofNat 8 (w / 2 ^ (16 + 8 * k))

/-- The instruction the decoder reads from a table key, in the 16-bit code the machine resets to. -/
def decodeTableWord (nbits w : Nat) : Option Instr :=
  match decode ⟨false, false⟩ (tableBytes nbits w) with
  | .ok (i, _) => some i
  | .error _ => none

end Sys2Proof
end

