-- ==== Sys2Proof/Config.lean ====
section
/-! DEFINITION. What the spec leaves open and no field of State holds: free values, constants with no
body (spec/00_scope.md R9, spec/93_implementation_defined.md part 1). The open parameters that are
plain data (run flags, permissions, which hooks are present, the handler table's entries) are fields of `State.host`; the hooks'
own behaviour, which needs the type of State, is in Machine/Hooks.lean. -/

namespace Sys2Proof.Config

/-- `MEM_INIT_BYTE` (R61, U5): the data value of byte `a` before anything wrote it, one free draw per
address. -/
opaque memInitByte : Nat → Byte

/-- `PortDevice.read` (R75, U9): what the device answers to the `k`-th granted port transaction; a
narrow read takes the low bytes. A fresh free value for every transaction. -/
opaque portAnswer : Nat → Word32

/-- `PmVectorLookup` (R356, U1): the target `(cs, eip)` the host's protected-mode lookup gives for a
vector, where the host supplied one (`HostCfg.pmLookup`). -/
opaque pmVectorLookup : Byte → Word16 × Word32

/-- `PAGE_SIZE` less one (R72, U7), so that every size from one byte to the whole address space is
admitted and no other. -/
opaque pageTop : Word32

/-- `PAGE_SIZE` (R72, U7): the granule of the host's zero-copy mapping. -/
def pageSize : Nat := pageTop.toNat + 1

end Sys2Proof.Config
end

