-- ==== Sys2Proof/Machine/State.lean ====
section
/-! DEFINITION. The state of the block as plain data (spec/10_state.md R20): the CPU context (R21 to
R39), the memory (spec/20_memory.md R60), the I/O map (R75) and the host configuration (R42), with the
state after reset (R45). INVENTORY.md lists every field with its rule. -/

namespace Sys2Proof.Machine

/-! ## The CPU context -/

/-- The eight general registers (R21). -/
structure Regs where
  eax : Word32
  ecx : Word32
  edx : Word32
  ebx : Word32
  esp : Word32
  ebp : Word32
  esi : Word32
  edi : Word32
  deriving DecidableEq, Repr

/-- The nine implemented bits of EFLAGS (R27). The hard-wired bits are supplied where the register
is read whole (Machine/Flags.lean). -/
structure Flags where
  cf : Bool
  pf : Bool
  af : Bool
  zf : Bool
  sf : Bool
  tf : Bool
  ifl : Bool
  df : Bool
  ovf : Bool
  deriving DecidableEq, Repr

/-- One segment register (R30), and LDTR, which has the same shape (R32). -/
structure Seg where
  sel : Word16
  base : Word32
  limit : Word32
  acc : Word16
  deriving DecidableEq, Repr

/-- The six segment registers (R30). -/
structure Segs where
  es : Seg
  cs : Seg
  ss : Seg
  ds : Seg
  fs : Seg
  gs : Seg
  deriving DecidableEq, Repr

/-- GDT or IDT: a base and a limit (R34). -/
structure TableReg where
  base : Word32
  limit : Word16
  deriving DecidableEq, Repr

/-- The mode bitset (R35). -/
structure Mode where
  data32 : Bool
  addr32 : Bool
  code32 : Bool
  stack32 : Bool
  repe : Bool
  repne : Bool
  halted : Bool
  deriving DecidableEq, Repr

/-- The two classes of a synchronous interrupt (R341). -/
inductive IntrClass where
  | soft | fault
  deriving DecidableEq, Repr

/-- A recorded interrupt: the slot's fields while it is pending (R37, R341). -/
structure Intr where
  nr : Byte
  cls : IntrClass
  restart : Bool
  hasErr : Bool
  err : Word32
  deriving DecidableEq, Repr

/-- The CPU context (R20). `intr` is the slot: `none` is idle (`INTR.pending == 0`), `some i` is
pending (R37, R340). -/
structure Cpu where
  regs : Regs
  eip : Word32
  flags : Flags
  segs : Segs
  ldtr : Seg
  cr : Vector Word32 8
  dr : Vector Word32 8
  gdt : TableReg
  idt : TableReg
  mode : Mode
  segOvr : Option SegReg
  effSeg : Option SegReg
  intr : Option Intr
  savedCs : Word16
  savedEip : Word32
  icount : Word64
  deriving DecidableEq, Repr

/-! ## Memory -/

/-- A permission triple (R60). -/
structure Perm where
  r : Bool
  w : Bool
  x : Bool
  deriving DecidableEq, Repr

/-- The seven bits a byte has beside its data: permissions, history, `INVALID` (R60). -/
structure ByteAttr where
  r : Bool
  w : Bool
  x : Bool
  wasR : Bool
  wasW : Bool
  wasX : Bool
  invalid : Bool
  deriving DecidableEq, Repr

/-- A byte no operation has touched: the default permission, no history (R61). -/
def ByteAttr.untouched (p : Perm) : ByteAttr :=
  ⟨p.r, p.w, p.x, false, false, false, false⟩

/-- The memory object (R60). `data` lists the bytes that have a data value. `attrs` lists the bytes an
operation has touched, with their seven bits; an unlisted byte is untouched and follows
`MEM_DEFAULT_PERM` (R61), whatever the host makes of it between runs (R43). Both lists are by strictly
rising address (`Memory.wf`, Safety.lean). -/
structure Memory where
  data : List Host.Cell
  attrs : List (Nat × ByteAttr)
  invalid : Bool
  defaultPerm : Perm
  deriving DecidableEq, Repr

/-! ## The I/O map -/

/-- One port: permissions, history, counters (R75). -/
structure PortAttr where
  r : Bool
  w : Bool
  wasR : Bool
  wasW : Bool
  invalid : Bool
  rdCount : Nat
  wrCount : Nat
  deriving DecidableEq, Repr

/-- A port nobody granted or touched. -/
def PortAttr.untouched : PortAttr := ⟨false, false, false, false, false, 0, 0⟩

/-- A granted port write, the event the device sees (R75, U9). -/
structure PortWrite where
  port : Word16
  width : Width
  value : Word32
  deriving DecidableEq, Repr

/-- The I/O map (R75). `ports` lists the ports that differ from an untouched one, by strictly rising
number. `writes` are the device's write events, newest first. `seq` is the model's own counter of
granted transactions: it indexes the free answers of the device (Config.portAnswer). -/
structure IoMap where
  ports : List (Nat × PortAttr)
  writes : List PortWrite
  seq : Nat
  deriving DecidableEq, Repr

/-! ## Host configuration -/

/-- The arguments `Run` latched (R130, R42). -/
structure RunFlags where
  cap : Bool
  max : Word64
  xcheck : Bool
  selfmod : Bool
  deriving DecidableEq, Repr

/-- What the host put at an entry of `Handler[0..255]` in place of the reference set's (R7, R42, R149). -/
inductive HandlerEntry where
  /-- The host's own function of the opcode byte. -/
  | own
  /-- The byte is taken out of the reference set, and so is `ExtHandler`'s (R149). -/
  | external
  deriving DecidableEq, Repr

/-- The host configuration (R42) as plain data: the run flags, the two I/O parameters (R76, R77), which
hooks the host has installed, and the entries of the handler table that are not those of R149.
What an installed hook or handler does is in Machine/Hooks.lean. -/
structure HostCfg where
  run : RunFlags
  ioHostOk : Bool
  ioDeniedWriteHalts : Bool
  codeCheck : Bool
  callbacks : List Byte
  extHandler : Bool
  pmLookup : Bool
  portRaises : Bool
  handlers : List (Byte × HandlerEntry)
  deriving DecidableEq, Repr

/-- How a run ended (R153). -/
inductive StopReason where
  | halted | maxInstr | codeCheck
  deriving DecidableEq, Repr

/-! ## The state -/

/-- The whole state (R20). `stop` is the result of the current `Run` (R153): `none` while the run
goes on. -/
structure State where
  cpu : Cpu
  mem : Memory
  io : IoMap
  host : HostCfg
  stop : Option StopReason
  deriving DecidableEq, Repr

/-- Faults of a step. There is none: "the loop has no error exit" (R157), and "the block itself never
raises a host-level error" (R13); an x86 fault is a pending interrupt, taken by the same step. -/
inductive Fault where
  deriving DecidableEq, Repr

/-- Refusals: the spec's closed list (R14), the one name exec's stubs use, and the two names of a host
operation whose range the address space does not hold (R71, R72; notes/assumptions/16.md). All are
safe: no next state is given where the spec gives none. -/
inductive Refusal where
  /-- An instruction without a meaning yet. Raised by no arm of `exec` now. Safe. -/
  | notModelled (mnemonic : String)
  /-- `NoHandler(op)` (R149): an external opcode byte where the host installed no `ExtHandler`. Raised
  by `execExt`. Safe. -/
  | noHandler (op : Byte)
  /-- `PmDeliveryUnsupported` (R355, R356): delivery in protected mode with no handling callback and no
  `PmVectorLookup`, or a failing CS load inside delivery. Raised by `deliver`. Safe. -/
  | pmDeliveryUnsupported
  /-- `SelfModForbidden` (R74, R130): a run with `RUN.selfmod` false. Raised by `runEntry`, and by
  `iteration` of a state that has such a run in progress. Safe. -/
  | selfModForbidden
  /-- `PrefixFuel` (R135): a prefix run as long as the whole code offset space, which never ends.
  Raised by `prefixLoop`. Safe. -/
  | prefixFuel
  /-- A permission range that would wrap past 2^32: "a model should refuse a wrapping range" (R71).
  Raised by `hostOp`, so by the host between runs or by a hook of a step. Safe. -/
  | permRangeWraps
  /-- A mapping of a page that the address space does not hold whole, or of storage that is not one
  page (R72). Raised by `hostOp`. Safe. -/
  | pageMisfit
  deriving DecidableEq, Repr

/-! ## Reset -/

/-- Reset contents of CS (R45). -/
def Seg.resetCs : Seg := ⟨0xF000#16, 0x000F0000#32, 0x0000FFFF#32, 0x009B#16⟩
/-- Reset contents of ES, SS, DS, FS, GS (R45). -/
def Seg.resetData : Seg := ⟨0#16, 0#32, 0x0000FFFF#32, 0x0093#16⟩
/-- Reset contents of LDTR (R45). -/
def Seg.resetLdtr : Seg := ⟨0#16, 0#32, 0x0000FFFF#32, 0x0082#16⟩

/-- The CPU context after reset: the table of R45. -/
def Cpu.reset : Cpu where
  regs := ⟨0#32, 0#32, 0#32, 0#32, 0#32, 0#32, 0#32, 0#32⟩
  eip := 0x0000FFF0#32
  flags := ⟨false, false, false, false, false, false, false, false, false⟩
  segs := ⟨.resetData, .resetCs, .resetData, .resetData, .resetData, .resetData⟩
  ldtr := .resetLdtr
  cr := #v[0#32, 0#32, 0#32, 0#32, 0#32, 0#32, 0#32, 0#32]
  dr := #v[0#32, 0#32, 0#32, 0#32, 0#32, 0#32, 0#32, 0#32]
  gdt := ⟨0#32, 0xFFFF#16⟩
  idt := ⟨0#32, 0xFFFF#16⟩
  mode := ⟨false, false, false, false, false, false, false⟩
  segOvr := none
  effSeg := none
  intr := none
  savedCs := 0#16
  savedEip := 0#32
  icount := 0#64

/-- The state right after reset, as the first run enters it. The CPU context is R45's. Reset leaves
the session's objects as they are (R380), so what they hold here is a new session's: no byte and no
port touched; `MEM_DEFAULT_PERM`, the run flags, the I/O parameters and the absence of hooks are the
model's choices (notes/assumptions/3.md, 4.md). -/
def State.reset : State where
  cpu := .reset
  mem := ⟨[], [], false, ⟨true, true, true⟩⟩
  io := ⟨[], [], 0⟩
  host := ⟨⟨false, 0#64, false, true⟩, true, false, false, [], false, false, false, []⟩
  stop := none

end Sys2Proof.Machine
end

