-- ==== Sys2Proof/Machine/Registers.lean ====
section
/-! DEFINITION. General-register views, the program counter, segment registers and the derived widths
(spec/10_state.md R21 to R26, R30; spec/43_ref_data_movement.md R220, R236, R250). Views are read as 32-bit
values with zeros above the view. -/

namespace Sys2Proof.Machine

/-- The bits of a width: `0xFF`, `0xFFFF`, all. -/
def mask : Width → Word32
  | .byte => 0x000000FF#32
  | .word => 0x0000FFFF#32
  | .dword => 0xFFFFFFFF#32

/-- `zext_32(trunc_w(v))`: the low bits of a width. -/
def truncW (n : Width) (v : Word32) : Word32 := v &&& mask n

/-- Sign-extend the low bits of a width to 32 bits (R10). -/
def sextW (n : Width) (v : Word32) : Word32 :=
  match n with
  | .byte => (v.setWidth 8).signExtend 32
  | .word => (v.setWidth 16).signExtend 32
  | .dword => v

/-- Replace the bits of a mask, leaving the others (R22). -/
def merge (m old v : Word32) : Word32 := (old &&& ~~~m) ||| (v &&& m)

/-- The 32-bit register of a number (R21). -/
def Regs.get (g : Regs) : Reg → Word32
  | .eax => g.eax
  | .ecx => g.ecx
  | .edx => g.edx
  | .ebx => g.ebx
  | .esp => g.esp
  | .ebp => g.ebp
  | .esi => g.esi
  | .edi => g.edi

/-- Replace a whole 32-bit register. -/
def Regs.set (g : Regs) (r : Reg) (v : Word32) : Regs :=
  match r with
  | .eax => { g with eax := v }
  | .ecx => { g with ecx := v }
  | .edx => { g with edx := v }
  | .ebx => { g with ebx := v }
  | .esp => { g with esp := v }
  | .ebp => { g with ebp := v }
  | .esi => { g with esi := v }
  | .edi => { g with edi := v }

/-- Where the 8-bit view of a number lives (R21): the register, and whether it is bits 15:8. -/
def slot8 : Reg → Reg × Bool
  | .eax => (.eax, false)
  | .ecx => (.ecx, false)
  | .edx => (.edx, false)
  | .ebx => (.ebx, false)
  | .esp => (.eax, true)
  | .ebp => (.ecx, true)
  | .esi => (.edx, true)
  | .edi => (.ebx, true)

/-- Read `reg8[r]`, `reg16[r]` or `reg32[r]` (R21, R22). -/
def Regs.read (g : Regs) (n : Width) (r : Reg) : Word32 :=
  match n with
  | .byte =>
    if (slot8 r).2 then truncW .byte (g.get (slot8 r).1 >>> 8) else truncW .byte (g.get (slot8 r).1)
  | .word => truncW .word (g.get r)
  | .dword => g.get r

/-- Write `reg8[r]`, `reg16[r]` or `reg32[r]`; the other bits of the register stay (R22). -/
def Regs.write (g : Regs) (n : Width) (r : Reg) (v : Word32) : Regs :=
  match n with
  | .byte =>
    if (slot8 r).2 then
      g.set (slot8 r).1 (merge 0x0000FF00#32 (g.get (slot8 r).1) (v <<< 8))
    else g.set (slot8 r).1 (merge 0x000000FF#32 (g.get (slot8 r).1) v)
  | .word => g.set r (merge 0x0000FFFF#32 (g.get r) v)
  | .dword => g.set r v

/-- A segment register (R30). -/
def Segs.get (g : Segs) : SegReg → Seg
  | .es => g.es
  | .cs => g.cs
  | .ss => g.ss
  | .ds => g.ds
  | .fs => g.fs
  | .gs => g.gs

/-- Replace a segment register whole (R31). -/
def Segs.set (g : Segs) (s : SegReg) (v : Seg) : Segs :=
  match s with
  | .es => { g with es := v }
  | .cs => { g with cs := v }
  | .ss => { g with ss := v }
  | .ds => { g with ds := v }
  | .fs => { g with fs := v }
  | .gs => { g with gs := v }

/-- `acc[10]`, the default-size bit `D` (R30, R35). -/
def Seg.big (g : Seg) : Bool := g.acc.getLsbD 10

/-- `PE`, bit 0 of control register 0 (R33): protected mode. -/
def Cpu.pe (c : Cpu) : Bool := c.cr[0].getLsbD 0

/-- The operand size `w` (R220). -/
def Cpu.opWidth (c : Cpu) : Width := if c.mode.data32 then .dword else .word

/-- The address size: the width of `C`, `S`, `D` (R250, R284). -/
def Cpu.adWidth (c : Cpu) : Width := if c.mode.addr32 then .dword else .word

/-- The stack-pointer width (R236, D21). -/
def Cpu.stackWidth (c : Cpu) : Width := if c.mode.stack32 then .dword else .word

/-- The width of `pc` (R24). -/
def Cpu.codeWidth (c : Cpu) : Width := if c.mode.code32 then .dword else .word

/-- `pc`, the program counter as fetch sees it (R24): `EIP`, or `IP` in 16-bit code. -/
def Cpu.pc (c : Cpu) : Word32 := truncW c.codeWidth c.eip

/-- Advance `pc` past `k` fetched bytes (R25): modulo the code width, the upper half of `EIP` unchanged
in 16-bit code. -/
def Cpu.advance (c : Cpu) (k : Nat) : Cpu :=
  { c with eip := merge (mask c.codeWidth) c.eip (c.eip + BitVec.ofNat 32 k) }

/-- `pc <- target` by a writer of width `n` (R26). -/
def Cpu.jumpTo (c : Cpu) (n : Width) (target : Word32) : Cpu :=
  { c with eip := truncW n target }

/-- `JumpRel(d)` (R280): the operand size decides the width, and a 16-bit jump clears `EIP[31:16]`. -/
def Cpu.jumpRel (c : Cpu) (d : Word32) : Cpu :=
  { c with eip := truncW c.opWidth (c.eip + d) }

/-- `DataSeg()` (R187): the override, else DS. -/
def Cpu.dataSeg (c : Cpu) : SegReg := c.segOvr.getD .ds

/-- `Lin(s, off)` (R68). -/
def Cpu.lin (c : Cpu) (s : SegReg) (off : Word32) : Word32 := (c.segs.get s).base + off

namespace State

/-- Read a register view. -/
def reg (s : State) (n : Width) (r : Reg) : Word32 := s.cpu.regs.read n r

/-- Write a register view. -/
def setReg (s : State) (n : Width) (r : Reg) (v : Word32) : State :=
  { s with cpu := { s.cpu with regs := s.cpu.regs.write n r v } }

end State

end Sys2Proof.Machine
end

