-- ==== Sys2Proof/Machine/Flags.lean ====
section
/-! DEFINITION. EFLAGS as a word (spec/10_state.md R27) and every flag computation of the spec: the
condition codes (spec/44_ref_control_system.md R282) and the single-flag writes (R301 to R307, R355). -/

namespace Sys2Proof.Machine

/-- The writable bits `FLAG_MASK` (R27). -/
def flagMask : Word32 := 0x00000FD5#32

/-- A Boolean as bit `k` of a word. -/
def flagBit (b : Bool) (k : Nat) : Word32 := if b then 1#32 <<< k else 0#32

/-- EFLAGS as read (R27): the nine flags in their places, bit 1 set, every other bit 0. -/
def Flags.image (f : Flags) : Word32 :=
  0x2#32 ||| flagBit f.cf 0 ||| flagBit f.pf 2 ||| flagBit f.af 4 ||| flagBit f.zf 6 |||
  flagBit f.sf 7 ||| flagBit f.tf 8 ||| flagBit f.ifl 9 ||| flagBit f.df 10 ||| flagBit f.ovf 11

/-- EFLAGS written whole (R27): `(v & FLAG_MASK) | 2` in the register, so the nine bits are taken
and the rest of `v` is dropped. -/
def Flags.ofImage (v : Word32) : Flags where
  cf := v.getLsbD 0
  pf := v.getLsbD 2
  af := v.getLsbD 4
  zf := v.getLsbD 6
  sf := v.getLsbD 7
  tf := v.getLsbD 8
  ifl := v.getLsbD 9
  df := v.getLsbD 10
  ovf := v.getLsbD 11

/-- The sixteen conditions of `Jcc` (R282). -/
inductive Cond where
  | o | no | b | ae | e | ne | be | a | s | ns | p | np | l | ge | le | g
  deriving DecidableEq, Repr

/-- `cond(cc)` on the flags (R282). -/
def Flags.cond (f : Flags) : Cond → Bool
  | .o => f.ovf
  | .no => !f.ovf
  | .b => f.cf
  | .ae => !f.cf
  | .e => f.zf
  | .ne => !f.zf
  | .be => f.cf || f.zf
  | .a => !f.cf && !f.zf
  | .s => f.sf
  | .ns => !f.sf
  | .p => f.pf
  | .np => !f.pf
  | .l => f.sf != f.ovf
  | .ge => f.sf == f.ovf
  | .le => f.zf || f.sf != f.ovf
  | .g => !f.zf && f.sf == f.ovf

/-- `IF <- 0; TF <- 0`, the clear of delivery (R355). -/
def Flags.clearIfTf (f : Flags) : Flags := { f with ifl := false, tf := false }

namespace State

/-- Replace the flags. -/
def setFlags (s : State) (f : Flags) : State := { s with cpu := { s.cpu with flags := f } }

end State

end Sys2Proof.Machine
end

