-- ==== Sys2Proof/Machine/Sparse.lean ====
section
/-! DEFINITION. Sparse tables: lists of (key, value) pairs by strictly rising key, which hold memory and
the I/O map as plain data (spec/20_memory.md R62: a model may use a total function from addresses to
records; these lists are that function's support). -/

namespace Sys2Proof.Machine.Sparse

/-- The value listed at a key. -/
def find? {α : Type} : List (Nat × α) → Nat → Option α
  | [], _ => none
  | (k, v) :: t, a => if k = a then some v else find? t a

/-- List a value at a key, in its place in the order. -/
def put {α : Type} : List (Nat × α) → Nat → α → List (Nat × α)
  | [], a, v => [(a, v)]
  | (k, w) :: t, a, v =>
    if a < k then (a, v) :: (k, w) :: t
    else if a = k then (a, v) :: t
    else (k, w) :: put t a v

/-- Remove a key. -/
def drop {α : Type} (l : List (Nat × α)) (a : Nat) : List (Nat × α) :=
  l.filter fun p => p.1 != a

/-- Store a value at a key of a table whose unlisted keys stand for `dflt`. -/
def store {α : Type} [DecidableEq α] (dflt : α) (l : List (Nat × α)) (a : Nat) (v : α) :
    List (Nat × α) :=
  if v = dflt then drop l a else put l a v

/-- Keys strictly rising and below the bound. -/
abbrev Sorted {α : Type} (bound : Nat) (l : List (Nat × α)) : Prop :=
  l.Pairwise (fun p q => p.1 < q.1) ∧ ∀ p ∈ l, p.1 < bound

/-- The canonical form of a table whose unlisted keys stand for `dflt`. -/
abbrev Canonical {α : Type} [DecidableEq α] (bound : Nat) (dflt : α) (l : List (Nat × α)) : Prop :=
  Sorted bound l ∧ ∀ p ∈ l, p.2 ≠ dflt

end Sys2Proof.Machine.Sparse
end

