-- ==== Sys2Proof/Machine/Ops.lean ====
section
/-! DEFINITION. The named operations over memory, ports, the interrupt slot, segment registers, the
stack and the instruction stream (spec/20_memory.md, 42_segment_resolver.md, 43_ref_data_movement.md
R236 R237, 40_decode_dispatch.md R154, 60_exceptions.md R342 to R347). Taking an interrupt, which needs the
host's hooks, is in Machine/Delivery.lean. -/

namespace Sys2Proof.Machine

/-- Go on with what follows where there is a next state; a fault or a refusal ends there. -/
def andThen (o : Host.Outcome State Fault Refusal) (f : State → Host.Outcome State Fault Refusal) :
    Host.Outcome State Fault Refusal :=
  match o with
  | .next s => f s
  | .fault e => .fault e
  | .refused r => .refused r

/-! ## Bytes of memory -/

/-- Has an operation touched byte `a` (R61). -/
def Memory.touched (m : Memory) (a : Word32) : Bool := (Sparse.find? m.attrs a.toNat).isSome

/-- The seven bits of byte `a` (R60, R61). -/
def Memory.attrAt (m : Memory) (a : Word32) : ByteAttr :=
  (Sparse.find? m.attrs a.toNat).getD (ByteAttr.untouched m.defaultPerm)

/-- `data[a]` (R60); a byte nothing has given a value has the free value `MEM_INIT_BYTE` (R61). -/
def Memory.byteAt (m : Memory) (a : Word32) : Byte :=
  (Sparse.find? m.data a.toNat).getD (Config.memInitByte a.toNat)

/-- Replace the seven bits of byte `a`, which is touched by that. -/
def Memory.setAttr (m : Memory) (a : Word32) (t : ByteAttr) : Memory :=
  { m with attrs := Sparse.put m.attrs a.toNat t }

/-- Replace `data[a]`. -/
def Memory.setByte (m : Memory) (a : Word32) (v : Byte) : Memory :=
  { m with data := Sparse.put m.data a.toNat v }

/-- `INVALID[a] <- 1` and `MEM.invalid <- 1`, with the byte's other bits as given (R63, R65). -/
def Memory.flagInvalid (m : Memory) (a : Word32) (t : ByteAttr) : Memory :=
  { m.setAttr a { t with invalid := true } with invalid := true }

/-- The two read-shaped accesses (R63, R64). -/
inductive Access where
  | read | execute
  deriving DecidableEq, Repr

/-- Does the byte have the permission the access needs: `R`, or `X` for a checked fetch (R64). -/
def Access.permits : Access → ByteAttr → Bool
  | .read, t => t.r
  | .execute, t => t.x

/-- Set the access's history bit: `WAS_R` or `WAS_X`. -/
def Access.mark : Access → ByteAttr → ByteAttr
  | .read, t => { t with wasR := true }
  | .execute, t => { t with wasX := true }

/-- What a byte access returns: `0xFF` where it is denied, else the data (R63, R64). -/
def Memory.valueAt (m : Memory) (k : Access) (a : Word32) : Byte :=
  if k.permits (m.attrAt a) then m.byteAt a else 0xFF#8

/-- What a byte access does to the memory object: denied, it flags the byte; granted, it marks the
history, and flags an uninitialized read (R63, R64). -/
def Memory.touch (m : Memory) (k : Access) (a : Word32) : Memory :=
  if k.permits (m.attrAt a) then
    if (m.attrAt a).wasW then m.setAttr a (k.mark (m.attrAt a))
    else m.flagInvalid a (k.mark (m.attrAt a))
  else m.flagInvalid a (m.attrAt a)

/-- An `n`-byte access (R66): byte accesses at rising linear addresses modulo 2^32, byte `i` carrying
bits `8i+7:8i` of the value. -/
def Memory.readLE (k : Access) : Memory → Word32 → Nat → Nat × Memory
  | m, _, 0 => (0, m)
  | m, a, n + 1 =>
    let rest := Memory.readLE k (m.touch k a) (a + 1#32) n
    ((m.valueAt k a).toNat + 256 * rest.1, rest.2)

/-- A byte write (R65): the flag says it was denied. -/
def Memory.writeByte (m : Memory) (a : Word32) (v : Byte) : Bool × Memory :=
  if (m.attrAt a).w then
    (false, (m.setByte a v).setAttr a { m.attrAt a with wasW := true })
  else (true, m.flagInvalid a (m.attrAt a))

/-- An `n`-byte write (R66); the flag says some byte was denied. -/
def Memory.writeLE : Memory → Word32 → Nat → Nat → Bool × Memory
  | m, _, 0, _ => (false, m)
  | m, a, n + 1, v =>
    let first := m.writeByte a (BitVec.ofNat 8 v)
    let rest := Memory.writeLE first.2 (a + 1#32) n (v / 256)
    (first.1 || rest.1, rest.2)

/-- `MemSeed(a, v)` (R72): the data with `WAS_W` set, no permission check. -/
def Memory.seed (m : Memory) (a : Word32) (v : Byte) : Memory :=
  (m.setByte a v).setAttr a { m.attrAt a with wasW := true }

namespace State

/-- `MODE.HALTED <- 1` if `b`; never cleared here. -/
def haltIf (b : Bool) (s : State) : State :=
  { s with cpu := { s.cpu with mode := { s.cpu.mode with halted := s.cpu.mode.halted || b } } }

/-- Replace the memory object. -/
def setMem (s : State) (m : Memory) : State := { s with mem := m }

/-- `MemRead(a, n)` (R63, R66), the value zero-extended. -/
def memRead (n : Width) (a : Word32) (s : State) : Word32 × State :=
  let r := s.mem.readLE .read a n.bytes
  (BitVec.ofNat 32 r.1, s.setMem r.2)

/-- `MemRead(a, 8)`, the qword width of R66 and R70, used by no rule. -/
def memReadQ (a : Word32) (s : State) : Word64 × State :=
  let r := s.mem.readLE .read a 8
  (BitVec.ofNat 64 r.1, s.setMem r.2)

/-- `MemWrite(a, n, v)` (R65, R66): a denied byte halts. -/
def memWrite (n : Width) (a : Word32) (v : Word32) (s : State) : State :=
  let r := s.mem.writeLE a n.bytes v.toNat
  (s.setMem r.2).haltIf r.1

/-- `MemWrite(a, 8, v)`, the qword width of R66 and R70, used by no rule. -/
def memWriteQ (a : Word32) (v : Word64) (s : State) : State :=
  let r := s.mem.writeLE a 8 v.toNat
  (s.setMem r.2).haltIf r.1

/-! ## The interrupt slot -/

/-- `raise Intr(...)` (R342, R343): record if the slot is idle, else nothing. -/
def raise (i : Intr) (s : State) : State :=
  match s.cpu.intr with
  | none => { s with cpu := { s.cpu with intr := some i } }
  | some _ => s

end State

/-- `#UD` (R344). -/
def Intr.ud : Intr := ⟨6#8, .fault, true, false, 0#32⟩
/-- `#GP(v)` (R345). -/
def Intr.gp (v : Word16) : Intr := ⟨13#8, .fault, true, true, v.setWidth 32⟩
/-- `#DE` (R346), for external handlers. -/
def Intr.de : Intr := ⟨0#8, .fault, true, false, 0#32⟩
/-- `Soft(n)` (R347). -/
def Intr.softInt (n : Byte) : Intr := ⟨n, .soft, false, false, 0#32⟩

/-! ## Ports -/

/-- A port's record (R75). -/
def IoMap.portAt (io : IoMap) (p : Word16) : PortAttr :=
  (Sparse.find? io.ports p.toNat).getD PortAttr.untouched

/-- Replace a port's record. -/
def IoMap.setPort (io : IoMap) (p : Word16) (t : PortAttr) : IoMap :=
  { io with ports := Sparse.store PortAttr.untouched io.ports p.toNat t }

/-- Is some port granted `R` or `W` (R76). -/
def IoMap.anyGranted (io : IoMap) : Bool := io.ports.any fun q => q.2.r || q.2.w

/-- The two directions of a port access. -/
inductive IoDir where
  | inp | out
  deriving DecidableEq, Repr

/-- The permission a direction needs (R77). -/
def IoDir.permits : IoDir → PortAttr → Bool
  | .inp, t => t.r
  | .out, t => t.w

/-- Set a port's history bit for a direction. -/
def IoDir.mark : IoDir → PortAttr → PortAttr
  | .inp, t => { t with wasR := true }
  | .out, t => { t with wasW := true }

/-- Bump a port's counter for a direction. -/
def IoDir.count : IoDir → PortAttr → PortAttr
  | .inp, t => { t with rdCount := t.rdCount + 1 }
  | .out, t => { t with wrCount := t.wrCount + 1 }

/-- Mark the `n` ports from `p` for a granted transaction (R78). -/
def IoMap.markSpan (d : IoDir) : IoMap → Word16 → Nat → IoMap
  | io, _, 0 => io
  | io, p, n + 1 => IoMap.markSpan d (io.setPort p (d.mark (io.portAt p))) (p + 1#16) n

/-- A granted transaction of `n` bytes at `p` (R77, R78): history on each port, the counter of port
`p` alone, and the next transaction number. -/
def IoMap.granted (d : IoDir) (io : IoMap) (p : Word16) (n : Nat) : IoMap :=
  let io1 := IoMap.markSpan d io p n
  { io1.setPort p (d.count (io1.portAt p)) with seq := io.seq + 1 }

/-- `INVALID[p] <- 1` (R77). -/
def IoMap.flagInvalid (io : IoMap) (p : Word16) : IoMap :=
  io.setPort p { io.portAt p with invalid := true }

/-- `IoRead(p, 1)` with I/O available (R77). -/
def IoMap.readByte (io : IoMap) (p : Word16) : Byte × IoMap :=
  if (io.portAt p).r then ((Config.portAnswer io.seq).setWidth 8, io.granted .inp p 1)
  else (0xFF#8, io.flagInvalid p)

/-- Record the device's write event (R75). -/
def IoMap.event (io : IoMap) (p : Word16) (n : Width) (v : Word32) : IoMap :=
  { io with writes := ⟨p, n, truncW n v⟩ :: io.writes }

/-- `IoWrite(p, 1, v)` with I/O available (R77); the flag says it was denied. -/
def IoMap.writeByte (io : IoMap) (p : Word16) (v : Byte) : Bool × IoMap :=
  if (io.portAt p).w then (false, (io.event p .byte (v.setWidth 32)).granted .out p 1)
  else (true, io.flagInvalid p)

/-- A decomposed port read (R78): byte accesses at `p`, `p+1`, ... modulo 65536, little-endian. -/
def IoMap.readLE : IoMap → Word16 → Nat → Nat × IoMap
  | io, _, 0 => (0, io)
  | io, p, n + 1 =>
    let first := io.readByte p
    let rest := IoMap.readLE first.2 (p + 1#16) n
    (first.1.toNat + 256 * rest.1, rest.2)

/-- A decomposed port write (R78); the flag says some byte was denied. -/
def IoMap.writeLE : IoMap → Word16 → Nat → Nat → Bool × IoMap
  | io, _, 0, _ => (false, io)
  | io, p, n + 1, v =>
    let first := io.writeByte p (BitVec.ofNat 8 v)
    let rest := IoMap.writeLE first.2 (p + 1#16) n (v / 256)
    (first.1 || rest.1, rest.2)

/-- May the access be one device transaction (R78): the span does not pass port `0xFFFF` and every
port of it has the permission. -/
def IoMap.wholeSpan (d : IoDir) (io : IoMap) (p : Word16) (n : Nat) : Bool :=
  p.toNat + n ≤ 0x10000 &&
    (List.range n).all fun k => d.permits (io.portAt (p + BitVec.ofNat 16 k))

/-- `IoRead(p, n)` with I/O available (R77, R78). -/
def IoMap.read (io : IoMap) (p : Word16) (n : Width) : Word32 × IoMap :=
  if io.wholeSpan .inp p n.bytes then
    (truncW n (Config.portAnswer io.seq), io.granted .inp p n.bytes)
  else
    let r := io.readLE p n.bytes
    (BitVec.ofNat 32 r.1, r.2)

/-- `IoWrite(p, n, v)` with I/O available (R77, R78); the flag says some byte was denied. -/
def IoMap.write (io : IoMap) (p : Word16) (n : Width) (v : Word32) : Bool × IoMap :=
  if io.wholeSpan .out p n.bytes then (false, (io.event p n v).granted .out p n.bytes)
  else io.writeLE p n.bytes v.toNat

/-! ## Segment registers -/

/-- The access-rights word of a descriptor (R205). -/
def descAcc (dh : Word32) : Word16 := 0#4 ++ dh.extractLsb' 20 4 ++ dh.extractLsb' 8 8

/-- The base of a descriptor (R205). -/
def descBase (dl dh : Word32) : Word32 :=
  dh.extractLsb' 24 8 ++ dh.extractLsb' 0 8 ++ dl.extractLsb' 16 16

/-- The limit of a descriptor: 20 bits, or shifted by 12 with `0xFFF` below when `G` is set (R205). -/
def descLimit (dl dh : Word32) : Word32 :=
  let limit20 : BitVec 20 := dh.extractLsb' 16 4 ++ dl.extractLsb' 0 16
  if dh.getLsbD 23 then (limit20.setWidth 32 <<< 12) ||| 0xFFF#32 else limit20.setWidth 32

namespace State

/-- Replace a segment register. -/
def setSegReg (s : State) (r : SegReg) (g : Seg) : State :=
  { s with cpu := { s.cpu with segs := s.cpu.segs.set r g } }

/-- A segment load that fails (R208): `#GP(v)`, nothing of the register changed. -/
def segFail (v : Word16) (s : State) : Bool × State := (false, s.raise (Intr.gp v))

/-- The protected-mode load of a selector that is not null (R204 to R208). -/
def setSegProtected (r : SegReg) (v : Word16) (s : State) : Bool × State :=
  let ofs : Word32 := (v &&& 0xFFF8#16).setWidth 32
  let table : Word32 × Word32 :=
    if v.getLsbD 2 then (s.cpu.ldtr.base, s.cpu.ldtr.limit)
    else (s.cpu.gdt.base, s.cpu.gdt.limit.setWidth 32)
  if table.2.toNat < ofs.toNat + 7 then s.segFail v
  else
    let a := table.1 + ofs
    let denied := (List.range 8).any fun k => !(s.mem.attrAt (a + BitVec.ofNat 32 k)).r
    let dl := s.memRead .dword a
    let dh := dl.2.memRead .dword (a + 4#32)
    let acc := descAcc dh.1
    if denied || !acc.getLsbD 7 || !acc.getLsbD 4 then dh.2.segFail v
    else (true, dh.2.setSegReg r ⟨v, descBase dl.1 dh.1, descLimit dl.1 dh.1, acc⟩)

/-- `SetSeg(r, v)` (R200): real mode (R201), null selector (R203), or a descriptor. -/
def setSeg (r : SegReg) (v : Word16) (s : State) : Bool × State :=
  if s.cpu.pe then
    if v &&& 0xFFF8#16 = 0#16 then (true, s.setSegReg r ⟨v, 0#32, 0#32, 0#16⟩)
    else s.setSegProtected r v
  else
    (true, s.setSegReg r { s.cpu.segs.get r with sel := v, base := v.setWidth 32 <<< 4 })

/-! ## The stack -/

/-- `Push(n, v)` (R236): decrement, then write through SS. -/
def push (n : Width) (v : Word32) (s : State) : State :=
  let w := s.cpu.stackWidth
  let s1 := s.setReg w .esp (s.reg w .esp - BitVec.ofNat 32 n.bytes)
  s1.memWrite n (s1.cpu.lin .ss (s1.reg w .esp)) v

/-- `Pop(n)` (R237): read through SS, then increment. -/
def pop (n : Width) (s : State) : Word32 × State :=
  let w := s.cpu.stackWidth
  let r := s.memRead n (s.cpu.lin .ss (s.reg w .esp))
  (r.1, r.2.setReg w .esp (r.2.reg w .esp + BitVec.ofNat 32 n.bytes))

/-! ## Program counter and instruction stream -/

/-- Replace the CPU context. -/
def setCpu (s : State) (c : Cpu) : State := { s with cpu := c }

/-- `pc <- target` (R26). -/
def jumpTo (n : Width) (target : Word32) (s : State) : State := s.setCpu (s.cpu.jumpTo n target)

/-- `JumpRel(d)` (R280). -/
def jumpRel (d : Word32) (s : State) : State := s.setCpu (s.cpu.jumpRel d)

/-- The access of instruction fetch (R64). -/
def fetchAccess (s : State) : Access := if s.host.run.xcheck then .execute else .read

/-- `FetchByte`, `FetchWord`, `FetchDword` (R154): `n` bytes at consecutive linear addresses from
`CS.base + pc`, then `pc` advances by `n`. -/
def fetch (n : Nat) (s : State) : Nat × State :=
  let r := s.mem.readLE s.fetchAccess (s.cpu.segs.cs.base + s.cpu.pc) n
  (r.1, (s.setMem r.2).setCpu (s.cpu.advance n))

/-- Run a fetch program on the instruction stream. -/
def fetchRun : Fetch → State → Instr × State
  | .done i, s => (i, s)
  | .byte k, s => fetchRun (k (BitVec.ofNat 8 (s.fetch 1).1)) (s.fetch 1).2
  | .word k, s => fetchRun (k (BitVec.ofNat 16 (s.fetch 2).1)) (s.fetch 2).2
  | .dword k, s => fetchRun (k (BitVec.ofNat 32 (s.fetch 4).1)) (s.fetch 4).2

/-- The sizes in force (R107). -/
def sizes (s : State) : Sizes := ⟨s.cpu.mode.data32, s.cpu.mode.addr32⟩

/-- Fetch one prefix byte, or one opcode with its operands (R135, R147). -/
def fetchInstr (s : State) : Instr × State := fetchRun (decodeFetch s.sizes) s

/-- Bytes stored where the next instruction is fetched, marked written and fetchable: byte `i` at
offset `pc + i`, both on the linear run-on of a multi-byte fetch and wrapped at the code width (R154). -/
def placeBytes (base pc : Word32) (w : Width) : List Byte → Nat → Memory → Memory
  | [], _, m => m
  | b :: bs, i, m =>
    let put := fun (m : Memory) (a : Word32) =>
      (m.seed a b).setAttr a { (m.seed a b).attrAt a with r := true, x := true }
    let off := pc + BitVec.ofNat 32 i
    placeBytes base pc w bs (i + 1) (put (put m (base + off)) (base + truncW w off))

end State

end Sys2Proof.Machine
end

