-- ==== Sys2Proof/Machine/Operands.lean ====
section
/-! DEFINITION. Every operand form: the ModRM/SIB addressing resolver (spec/41_addressing_resolver.md) and
the reads and writes of a resolved operand (spec/30_encoding.md R108, `ReadRM`, `WriteRM`). -/

namespace Sys2Proof.Machine

/-- What `ResolveRM` returns (R170): `Reg(rm)` or `Mem(s, off)`, a 16-bit offset zero-extended. -/
inductive Operand where
  | reg (r : Reg)
  | mem (s : SegReg) (off : Word32)
  deriving DecidableEq, Repr

/-- The 16-bit base sums (R172), on the 16-bit views; reduced modulo 0x10000 with the displacement in
`offset`. -/
def baseSum16 (g : Regs) : Base16 → Word32
  | .bxSi => g.read .word .ebx + g.read .word .esi
  | .bxDi => g.read .word .ebx + g.read .word .edi
  | .bpSi => g.read .word .ebp + g.read .word .esi
  | .bpDi => g.read .word .ebp + g.read .word .edi
  | .si => g.read .word .esi
  | .di => g.read .word .edi
  | .bp => g.read .word .ebp
  | .bx => g.read .word .ebx

end Sys2Proof.Machine

namespace Sys2Proof

open Sys2Proof.Machine

/-- The 16-bit bases that imply the stack segment (R172, R186). -/
def Base16.seg : Base16 → SegReg
  | .bpSi | .bpDi | .bp => .ss
  | .bxSi | .bxDi | .si | .di | .bx => .ds

/-- The 32-bit direct bases that imply the stack segment (R176): EBP alone. -/
def baseSeg32 : Reg → SegReg
  | .ebp => .ss
  | .eax | .ecx | .edx | .ebx | .esp | .esi | .edi => .ds

/-- The SIB bases that imply the stack segment (R181): ESP and EBP. -/
def sibSeg : Reg → SegReg
  | .esp | .ebp => .ss
  | .eax | .ecx | .edx | .ebx | .esi | .edi => .ds

/-- The value of a 16-bit displacement (R173). -/
def Disp16.value : Disp16 → Word32
  | .d0 => 0#32
  | .d8 v => v.signExtend 32
  | .d16 v => v.setWidth 32

/-- The value of a 32-bit displacement (R177). -/
def Disp32.value : Disp32 → Word32
  | .d0 => 0#32
  | .d8 v => v.signExtend 32
  | .d32 v => v

/-- `sib_index *_32 (1 << scale)` (R180); index number 4 is "no index". -/
def sibIndex (g : Regs) (scale : BitVec 2) : Reg → Word32
  | .esp => 0#32
  | .eax => g.eax <<< scale.toNat
  | .ecx => g.ecx <<< scale.toNat
  | .edx => g.edx <<< scale.toNat
  | .ebx => g.ebx <<< scale.toNat
  | .ebp => g.ebp <<< scale.toNat
  | .esi => g.esi <<< scale.toNat
  | .edi => g.edi <<< scale.toNat

/-- The offset of a memory operand (R172 to R180): modulo 0x10000 in the 16-bit forms (R174), modulo
2^32 in the others. -/
def Mem.offset (g : Regs) : Mem → Word32
  | .abs16 v => v.setWidth 32
  | .based16 b d => truncW .word (baseSum16 g b + d.value)
  | .abs32 v => v
  | .based32 b d => g.get b + d.value
  | .sibAbs s i v => v + sibIndex g s i
  | .sib s i b d => g.get b + sibIndex g s i + d.value

/-- The default segment of a memory operand (R172, R176, R181, R186). -/
def Mem.defaultSeg : Mem → SegReg
  | .abs16 _ => .ds
  | .based16 b _ => b.seg
  | .abs32 _ => .ds
  | .based32 b _ => baseSeg32 b
  | .sibAbs _ _ _ => .ds
  | .sib _ _ b _ => sibSeg b

/-- The segment of a memory operand: the override, else the default (R186). -/
def Mem.seg (ovr : Option SegReg) (m : Mem) : SegReg := ovr.getD m.defaultSeg

/-- `ResolveRM` without its fetches (R170): the operand a form denotes in a state. -/
def Rm.operand (c : Cpu) : Rm → Operand
  | .reg r => .reg r
  | .mem m => .mem (m.seg c.segOvr) (m.offset c.regs)

end Sys2Proof

namespace Sys2Proof.Machine

namespace State

/-- `EFF_SEG <- s` (R186). -/
def recordSeg (s : State) (r : SegReg) : State :=
  { s with cpu := { s.cpu with effSeg := some r } }

/-- What `ResolveRM` writes: `EFF_SEG` for a memory operand, nothing for a register (R170, R171). -/
def resolved (x : Rm) (s : State) : State :=
  match x with
  | .reg _ => s
  | .mem m => s.recordSeg (m.seg s.cpu.segOvr)

/-- `ReadRM(n)` (R108). -/
def readOperand (n : Width) (o : Operand) (s : State) : Word32 × State :=
  match o with
  | .reg r => (s.reg n r, s)
  | .mem g off => s.memRead n (s.cpu.lin g off)

/-- `WriteRM(n, v)` (R108). -/
def writeOperand (n : Width) (o : Operand) (v : Word32) (s : State) : State :=
  match o with
  | .reg r => s.setReg n r v
  | .mem g off => s.memWrite n (s.cpu.lin g off) v

/-- `x <- ResolveRM(mod, rm); ReadRM(n)`. -/
def loadRm (n : Width) (x : Rm) (s : State) : Word32 × State :=
  (s.resolved x).readOperand n (x.operand s.cpu)

/-- `x <- ResolveRM(mod, rm); WriteRM(n, v)`. -/
def storeRm (n : Width) (x : Rm) (v : Word32) (s : State) : State :=
  (s.resolved x).writeOperand n (x.operand s.cpu) v

end State

end Sys2Proof.Machine
end

