-- ==== Sys2Proof/Machine/Hooks.lean ====
section
/-! DEFINITION. The host's hooks (spec/00_scope.md R18, spec/10_state.md R42, R43). Which hooks are
installed is plain data in `State.host`; what an installed hook does is host code, so its result is a
free value: an opaque list of the operations its interface lets it make, or an opaque Boolean. Every
total hook that obeys its interface is such a list, because its run from a given state is a fixed
finite sequence of operations. -/

namespace Sys2Proof.Machine

/-- What the host may do to the machine, between runs or in a hook that takes and gives a whole state
(R43, R71, R72, R348). The run flags, the tables and the parameters of R9 are not among them: they do
not change during a run (R42), and `SessionOp` has them. -/
inductive HostOp where
  /-- Write any field of the CPU context (R43). -/
  | setCpu (c : Cpu)
  /-- Write the seven bits of a byte (R43). -/
  | setAttr (a : Word32) (t : ByteAttr)
  /-- Write the data of a byte and nothing else (R43). -/
  | setByte (a : Word32) (v : Byte)
  /-- Write `MEM.invalid` (R43, R91). -/
  | setInvalid (b : Bool)
  /-- Set the permissions of `len` bytes from `a` (R71). -/
  | setPerm (a : Word32) (len : Nat) (p : Perm)
  /-- `MemSeed(a, v)` (R72). -/
  | seed (a : Word32) (v : Byte)
  /-- Map a page onto the host's bytes, pre-written (R72). -/
  | mapPage (page : Nat) (bytes : List Byte)
  /-- Write a port's record (R43, R75). -/
  | setPort (p : Word16) (t : PortAttr)
  /-- Load a selector through `SetSeg` (R43, R200). -/
  | loadSelector (r : SegReg) (v : Word16)
  /-- `RaiseInterrupt` (R348). -/
  | raiseInterrupt (i : Intr)
  deriving DecidableEq, Repr

/-- What the host does between runs (R18, R43): everything it may do in a hook, and the control port
and configuration, which stand still during a run (R42). -/
inductive SessionOp where
  /-- One operation on the machine's state. -/
  | host (o : HostOp)
  /-- Write `MEM_DEFAULT_PERM` (R9, R43, R60). -/
  | setDefaultPerm (p : Perm)
  /-- Change the host configuration: the handler table, the hooks, the I/O parameters (R42). -/
  | configure (h : HostCfg)
  /-- `Reset` (R380). -/
  | reset
  /-- `Run(flags, max)` (R130), whose iterations are `step`. -/
  | run (f : RunFlags)
  deriving DecidableEq, Repr

/-- What an opcode handler may do: the capability set of R148. -/
inductive HandlerOp where
  | fetchByte
  | fetchWord
  | fetchDword
  | resolveRm (mod : BitVec 2) (rm : BitVec 3)
  | memRead (n : Width) (a : Word32)
  | memReadQ (a : Word32)
  | memWrite (n : Width) (a : Word32) (v : Word32)
  | memWriteQ (a : Word32) (v : Word64)
  | ioRead (n : Width) (p : Word16)
  | ioWrite (n : Width) (p : Word16) (v : Word32)
  | raise (i : Intr)
  | setSeg (r : SegReg) (v : Word16)
  | setCpu (c : Cpu)
  deriving DecidableEq, Repr

end Sys2Proof.Machine

namespace Sys2Proof.Config

open Sys2Proof.Machine

/-- The host's function at entry `op` of the handler table: `ExtHandler(op)`, or its own function of the
byte in place of a reference handler (R7, R42, R149, D2). What it does, by the state it is called in. -/
opaque extHandler : Byte → State → List HandlerOp

/-- `CodeCheck` (R134, D39): what the callback does to the state. -/
opaque codeCheckOps : State → List HostOp

/-- `CodeCheck` (R134, D39): does the callback say stop. -/
opaque codeCheckStop : State → Bool

/-- `IntrCallback[nr]` (R351, D18): what the callback does to the state. -/
opaque callbackOps : Intr → State → List HostOp

/-- `IntrCallback[nr]` (R351, D18): does the callback say handled. -/
opaque callbackHandled : Intr → State → Bool

/-- What the device behind the ports raises during the `k`-th granted transaction, if anything (R348:
`RaiseInterrupt` from inside a `PortDevice`). -/
opaque portRaise : Nat → Option Intr

end Sys2Proof.Config

namespace Sys2Proof.Machine

/-- Set the permissions of `len` bytes from `a`, their data and history unchanged (R71). -/
def Memory.setPermRange (p : Perm) : Memory → Word32 → Nat → Memory
  | m, _, 0 => m
  | m, a, n + 1 =>
    Memory.setPermRange p (m.setAttr a { m.attrAt a with r := p.r, w := p.w, x := p.x }) (a + 1#32) n

/-- The host's write of `data[a]` (R43): nothing else changes, and the byte is touched by it. -/
def Memory.hostSetByte (m : Memory) (a : Word32) (v : Byte) : Memory :=
  (m.setByte a v).setAttr a (m.attrAt a)

/-- Write `MEM_DEFAULT_PERM` (R43, R60): the untouched bytes follow it (R61). -/
def Memory.setDefaultPerm (m : Memory) (p : Perm) : Memory := { m with defaultPerm := p }

/-- Seed bytes at rising addresses (R72). -/
def Memory.seedBytes : Memory → Word32 → List Byte → Memory
  | m, _, [] => m
  | m, a, b :: bs => Memory.seedBytes (m.seed a b) (a + 1#32) bs

namespace State

/-- One host operation. A permission range that would wrap past 2^32 is refused (R71), and so is a
page that is not whole inside the address space or whose storage is not one page (R72). -/
def hostOp (s : State) : HostOp → Host.Outcome State Fault Refusal
  | .setCpu c => .next (s.setCpu c)
  | .setAttr a t => .next (s.setMem (s.mem.setAttr a t))
  | .setByte a v => .next (s.setMem (s.mem.hostSetByte a v))
  | .setInvalid b => .next (s.setMem { s.mem with invalid := b })
  | .setPerm a len p =>
    if a.toNat + len ≤ 4294967296 then .next (s.setMem (s.mem.setPermRange p a len))
    else .refused .permRangeWraps
  | .seed a v => .next (s.setMem (s.mem.seed a v))
  | .mapPage page bytes =>
    if (page + 1) * Config.pageSize ≤ 4294967296 ∧ bytes.length = Config.pageSize then
      .next (s.setMem (s.mem.seedBytes (BitVec.ofNat 32 (page * Config.pageSize)) bytes))
    else .refused .pageMisfit
  | .setPort p t => .next { s with io := s.io.setPort p t }
  | .loadSelector r v => .next (s.setSeg r v).2
  | .raiseInterrupt i => .next (s.raise i)

/-- A hook's operations, in order. -/
def hostOps (s : State) : List HostOp → Host.Outcome State Fault Refusal
  | [] => .next s
  | o :: l => andThen (s.hostOp o) fun t => hostOps t l

/-! ## Port access of the machine: the I/O map, the gate, the device -/

/-- `IO.avail` (R76). -/
def ioAvail (s : State) : Bool := s.host.ioHostOk && s.io.anyGranted

/-- What the device raises during the transactions numbered `k` to `k + n - 1`, in order (R348), where
the host's device does that at all. -/
def deviceRaises (s : State) (k : Nat) : Nat → State
  | 0 => s
  | n + 1 =>
    let s1 := if s.host.portRaises then
        match Config.portRaise k with
        | some i => s.raise i
        | none => s
      else s
    deviceRaises s1 (k + 1) n

/-- Put back the I/O map and let the device raise for every transaction made. -/
def withIo (s : State) (io : IoMap) : State :=
  State.deviceRaises { s with io := io } s.io.seq (io.seq - s.io.seq)

/-- `IoRead(p, n)` (R76 to R78): all ones while I/O is unavailable. -/
def ioRead (n : Width) (p : Word16) (s : State) : Word32 × State :=
  if s.ioAvail then
    let r := s.io.read p n
    (r.1, s.withIo r.2)
  else (mask n, s)

/-- `IoWrite(p, n, v)` (R76 to R78): dropped while I/O is unavailable; a denied byte halts where
`IO_DENIED_WRITE_HALTS`. -/
def ioWrite (n : Width) (p : Word16) (v : Word32) (s : State) : State :=
  if s.ioAvail then
    let r := s.io.write p n v
    (s.withIo r.2).haltIf (r.1 && s.host.ioDeniedWriteHalts)
  else s

/-! ## Running a hook -/

/-- One operation of a handler of the host's (R148). -/
def handlerOp (s : State) : HandlerOp → State
  | .fetchByte => (s.fetch 1).2
  | .fetchWord => (s.fetch 2).2
  | .fetchDword => (s.fetch 4).2
  | .resolveRm mod rm =>
    let r := fetchRun (decodeRm s.sizes mod rm fun x => .done (.movRm8R8 x .eax)) s
    match r.1 with
    | .movRm8R8 x _ => r.2.resolved x
    | _ => r.2
  | .memRead n a => (s.memRead n a).2
  | .memReadQ a => (s.memReadQ a).2
  | .memWrite n a v => s.memWrite n a v
  | .memWriteQ a v => s.memWriteQ a v
  | .ioRead n p => (s.ioRead n p).2
  | .ioWrite n p v => s.ioWrite n p v
  | .raise i => s.raise i
  | .setSeg r v => (s.setSeg r v).2
  | .setCpu c => s.setCpu c

/-- The operations of a handler of the host's, in order. -/
def handlerOps (s : State) (l : List HandlerOp) : State := l.foldl handlerOp s

/-! ## The host control port -/

/-- `Reset` (R380): every field of the CPU context, nothing else. -/
def hostReset (s : State) : State := { s with cpu := .reset }

/-- The entry of `Run(flags, max)` (R130): latch the flags, clear `MODE.HALTED`, refuse where code may
not modify itself (R74); the iterations that follow are `step`. -/
def runEntry (f : RunFlags) (s : State) : Host.Outcome State Fault Refusal :=
  if f.selfmod then
    .next { s with
      cpu := { s.cpu with mode := { s.cpu.mode with halted := false } }
      host := { s.host with run := f }
      stop := none }
  else .refused .selfModForbidden

/-- One operation of the host between runs. -/
def sessionOp (s : State) : SessionOp → Host.Outcome State Fault Refusal
  | .host o => s.hostOp o
  | .setDefaultPerm p => .next (s.setMem (s.mem.setDefaultPerm p))
  | .configure h => .next { s with host := h }
  | .reset => .next s.hostReset
  | .run f => s.runEntry f

end State

end Sys2Proof.Machine
end

