-- ==== Sys2Proof/Machine/Delivery.lean ====
section
/-! DEFINITION. Taking an interrupt (spec/60_exceptions.md R350 to R356), the one delivery of the block,
performed at step 6 of the loop; and the return from one (spec/44_ref_control_system.md R298). -/

namespace Sys2Proof.Machine.State

/-- The return address of the frame (R352): saved for a restartable interrupt, else current. -/
def returnAddress (i : Intr) (s : State) : Word16 × Word32 :=
  if i.restart then (s.cpu.savedCs, s.cpu.savedEip) else (s.cpu.segs.cs.sel, s.cpu.eip)

/-- The real-mode vector (R353): offset at `IDT.base + 4*nr`, selector two bytes above. -/
def realVector (nr : Byte) (s : State) : (Word16 × Word32) × State :=
  let a := s.cpu.idt.base + 4#32 * nr.setWidth 32
  let ip := s.memRead .word a
  let cs := ip.2.memRead .word (a + 2#32)
  ((cs.1.setWidth 16, ip.1), cs.2)

/-- The target of a vector, with the reads it takes (R350, R353, R356): `none` in protected mode
without `PmVectorLookup`. -/
def vectorTarget (nr : Byte) (s : State) : Option ((Word16 × Word32) × State) :=
  if s.cpu.pe then
    if s.host.pmLookup then some (Config.pmVectorLookup nr, s) else none
  else some (s.realVector nr)

/-- The width of the frame (R354): 32 bits in 32-bit protected mode, else 16. -/
def frameWidth (s : State) : Width := if s.cpu.pe && s.cpu.mode.code32 then .dword else .word

/-- The frame (R354): FLAGS, CS, IP, and the 4-byte error code last. -/
def pushFrame (i : Intr) (ret : Word16 × Word32) (s : State) : State :=
  let w := s.frameWidth
  let s1 := s.push w (truncW w s.cpu.flags.image)
  let s2 := s1.push w (ret.1.setWidth 32)
  let s3 := s2.push w (truncW w ret.2)
  if i.hasErr then s3.push .dword i.err else s3

/-- The slot back to idle (R350). -/
def idleSlot (s : State) : State := { s with cpu := { s.cpu with intr := none } }

/-- The built-in path of delivery (R350, R352 to R356). -/
def deliverBuiltIn (i : Intr) (s : State) : Host.Outcome State Fault Refusal :=
  match s.vectorTarget i.nr with
  | none => .refused .pmDeliveryUnsupported
  | some t =>
    let w := s.frameWidth
    let s1 := t.2.pushFrame i (s.returnAddress i)
    let s2 := s1.setFlags s1.cpu.flags.clearIfTf
    let r := s2.setSeg .cs t.1.1
    if r.1 then .next (r.2.jumpTo w t.1.2).idleSlot
    else .refused .pmDeliveryUnsupported

/-- Step 6 (R150, R350, R351): with an interrupt pending, the host's callback for its vector where
one is installed, and the built-in path where none is or it says not handled. -/
def deliver (s : State) : Host.Outcome State Fault Refusal :=
  match s.cpu.intr with
  | none => .next s
  | some i =>
    if s.host.callbacks.contains i.nr then
      andThen (s.hostOps (Config.callbackOps i s)) fun s1 =>
        if Config.callbackHandled i s then .next s1.idleSlot else s1.deliverBuiltIn i
    else s.deliverBuiltIn i

/-- `IRET` (R298): pop IP, CS, FLAGS at the operand size; if the CS load succeeds, write `pc` and the
flags. -/
def returnFromInterrupt (s : State) : State :=
  let w := s.cpu.opWidth
  let t := s.pop w
  let c := t.2.pop w
  let f := c.2.pop w
  let r := f.2.setSeg .cs (c.1.setWidth 16)
  if r.1 then (r.2.jumpTo w t.1).setFlags (Flags.ofImage f.1) else r.2

end Sys2Proof.Machine.State
end

