-- ==== Sys2Proof/Machine/Strings.lean ====
section
/-! DEFINITION. The string instructions and REP (spec/43_ref_data_movement.md R250 to R256). -/

namespace Sys2Proof.Machine

/-- `delta` (R250): the element size, negative when `DF == 1`. -/
def stringDelta (n : Width) (s : State) : Word32 :=
  if s.cpu.flags.df then -(BitVec.ofNat 32 n.bytes) else BitVec.ofNat 32 n.bytes

/-- `S <- S + delta` or `D <- D + delta`, modulo 2^AW (R250). -/
def stringAdvance (n : Width) (r : Reg) (s : State) : State :=
  s.setReg s.cpu.adWidth r (s.reg s.cpu.adWidth r + stringDelta n s)

/-- The source address of a string instruction: `Lin(DataSeg(), S)` (R187, R250). -/
def stringSource (s : State) : Word32 := s.cpu.lin s.cpu.dataSeg (s.reg s.cpu.adWidth .esi)

/-- The destination address of a string instruction: `Lin(ES, D)` (R187, R250). -/
def stringDest (s : State) : Word32 := s.cpu.lin .es (s.reg s.cpu.adWidth .edi)

/-- `C <- C -_AW 1` (R250, R284). -/
def countDown (s : State) : State :=
  s.setReg s.cpu.adWidth .ecx (s.reg s.cpu.adWidth .ecx - 1#32)

/-- `body; C <- C - 1`, `k` times. -/
def repeatBody (body : State → State) : Nat → State → State
  | 0, s => s
  | k + 1, s => repeatBody body k (countDown (body s))

/-- The common part of the string instructions (R250): with a repeat prefix `while C != 0`, which is
`C` times because no body writes `C`; else once. -/
def stringOp (body : State → State) (s : State) : State :=
  if s.cpu.mode.repe || s.cpu.mode.repne then
    repeatBody body (s.reg s.cpu.adWidth .ecx).toNat s
  else body s

/-- One element of `MOVS` (R251, R252). -/
def movsBody (n : Width) (s : State) : State :=
  let v := s.memRead n (stringSource s)
  let s1 := v.2.memWrite n (stringDest v.2) v.1
  stringAdvance n .edi (stringAdvance n .esi s1)

/-- One element of `STOS` (R253, R254). -/
def stosBody (n : Width) (s : State) : State :=
  stringAdvance n .edi (s.memWrite n (stringDest s) (s.reg n .eax))

/-- One element of `LODS` (R255, R256). -/
def lodsBody (n : Width) (s : State) : State :=
  let v := s.memRead n (stringSource s)
  stringAdvance n .esi (v.2.setReg n .eax v.1)

/-- `MOVSB` (R251). -/
def execMovsb (s : State) : Host.Outcome State Fault Refusal := .next (stringOp (movsBody .byte) s)

/-- `MOVSW`/`MOVSD` (R252). -/
def execMovsw (s : State) : Host.Outcome State Fault Refusal := .next (stringOp (movsBody s.cpu.opWidth) s)

/-- `STOSB` (R253). -/
def execStosb (s : State) : Host.Outcome State Fault Refusal := .next (stringOp (stosBody .byte) s)

/-- `STOSW`/`STOSD` (R254). -/
def execStosw (s : State) : Host.Outcome State Fault Refusal := .next (stringOp (stosBody s.cpu.opWidth) s)

/-- `LODSB` (R255). -/
def execLodsb (s : State) : Host.Outcome State Fault Refusal := .next (stringOp (lodsBody .byte) s)

/-- `LODSW`/`LODSD` (R256). -/
def execLodsw (s : State) : Host.Outcome State Fault Refusal := .next (stringOp (lodsBody s.cpu.opWidth) s)

end Sys2Proof.Machine
end

