-- ==== Sys2Proof/Machine/Control.lean ====
section
/-! DEFINITION. Jumps, loops, calls and returns (spec/44_ref_control_system.md R280 to R294). -/

namespace Sys2Proof.Machine

/-- `Jcc rel8` (R283): the condition is that of the flags at entry. -/
def jumpIf (c : Bool) (d : Byte) (s : State) : State :=
  if c then s.jumpRel (d.signExtend 32) else s

/-- `JO rel8` (R282, R283). -/
def execJo (d : Byte) (s : State) : Host.Outcome State Fault Refusal :=
  .next (jumpIf (s.cpu.flags.cond .o) d s)

/-- `JNO rel8` (R282, R283). -/
def execJno (d : Byte) (s : State) : Host.Outcome State Fault Refusal :=
  .next (jumpIf (s.cpu.flags.cond .no) d s)

/-- `JB rel8` (R282, R283). -/
def execJb (d : Byte) (s : State) : Host.Outcome State Fault Refusal :=
  .next (jumpIf (s.cpu.flags.cond .b) d s)

/-- `JAE rel8` (R282, R283). -/
def execJae (d : Byte) (s : State) : Host.Outcome State Fault Refusal :=
  .next (jumpIf (s.cpu.flags.cond .ae) d s)

/-- `JE rel8` (R282, R283). -/
def execJe (d : Byte) (s : State) : Host.Outcome State Fault Refusal :=
  .next (jumpIf (s.cpu.flags.cond .e) d s)

/-- `JNE rel8` (R282, R283). -/
def execJne (d : Byte) (s : State) : Host.Outcome State Fault Refusal :=
  .next (jumpIf (s.cpu.flags.cond .ne) d s)

/-- `JBE rel8` (R282, R283). -/
def execJbe (d : Byte) (s : State) : Host.Outcome State Fault Refusal :=
  .next (jumpIf (s.cpu.flags.cond .be) d s)

/-- `JA rel8` (R282, R283). -/
def execJa (d : Byte) (s : State) : Host.Outcome State Fault Refusal :=
  .next (jumpIf (s.cpu.flags.cond .a) d s)

/-- `JS rel8` (R282, R283). -/
def execJs (d : Byte) (s : State) : Host.Outcome State Fault Refusal :=
  .next (jumpIf (s.cpu.flags.cond .s) d s)

/-- `JNS rel8` (R282, R283). -/
def execJns (d : Byte) (s : State) : Host.Outcome State Fault Refusal :=
  .next (jumpIf (s.cpu.flags.cond .ns) d s)

/-- `JP rel8` (R282, R283). -/
def execJp (d : Byte) (s : State) : Host.Outcome State Fault Refusal :=
  .next (jumpIf (s.cpu.flags.cond .p) d s)

/-- `JNP rel8` (R282, R283). -/
def execJnp (d : Byte) (s : State) : Host.Outcome State Fault Refusal :=
  .next (jumpIf (s.cpu.flags.cond .np) d s)

/-- `JL rel8` (R282, R283). -/
def execJl (d : Byte) (s : State) : Host.Outcome State Fault Refusal :=
  .next (jumpIf (s.cpu.flags.cond .l) d s)

/-- `JGE rel8` (R282, R283). -/
def execJge (d : Byte) (s : State) : Host.Outcome State Fault Refusal :=
  .next (jumpIf (s.cpu.flags.cond .ge) d s)

/-- `JLE rel8` (R282, R283). -/
def execJle (d : Byte) (s : State) : Host.Outcome State Fault Refusal :=
  .next (jumpIf (s.cpu.flags.cond .le) d s)

/-- `JG rel8` (R282, R283). -/
def execJg (d : Byte) (s : State) : Host.Outcome State Fault Refusal :=
  .next (jumpIf (s.cpu.flags.cond .g) d s)

/-- `C == 0` for the count register of the address size (R284). -/
def countZero (s : State) : Bool := s.reg s.cpu.adWidth .ecx == 0#32

/-- `LOOPNE rel8` (R284). -/
def execLoopne (d : Byte) (s : State) : Host.Outcome State Fault Refusal :=
  let s1 := countDown s
  .next (jumpIf (!countZero s1 && !s1.cpu.flags.zf) d s1)

/-- `LOOPE rel8` (R285). -/
def execLoope (d : Byte) (s : State) : Host.Outcome State Fault Refusal :=
  let s1 := countDown s
  .next (jumpIf (!countZero s1 && s1.cpu.flags.zf) d s1)

/-- `LOOP rel8` (R286). -/
def execLoop (d : Byte) (s : State) : Host.Outcome State Fault Refusal :=
  let s1 := countDown s
  .next (jumpIf (!countZero s1) d s1)

/-- `JCXZ`/`JECXZ rel8` (R287). -/
def execJcxz (d : Byte) (s : State) : Host.Outcome State Fault Refusal := .next (jumpIf (countZero s) d s)

/-- `JMP rel8` (R288). -/
def execJmpRel8 (d : Byte) (s : State) : Host.Outcome State Fault Refusal := .next (s.jumpRel (d.signExtend 32))

/-- `JMP rel16/32` (R289). -/
def execJmpRel (d : Word32) (s : State) : Host.Outcome State Fault Refusal :=
  .next (s.jumpRel (sextW s.cpu.opWidth d))

/-- `CALL rel16/32` (R290): push the address of the next instruction, then jump. -/
def execCallRel (d : Word32) (s : State) : Host.Outcome State Fault Refusal :=
  .next ((s.push s.cpu.opWidth (truncW s.cpu.opWidth s.cpu.eip)).jumpRel (sextW s.cpu.opWidth d))

/-- `RET` (R291). -/
def execRet (s : State) : Host.Outcome State Fault Refusal :=
  let t := s.pop s.cpu.opWidth
  .next (t.2.jumpTo s.cpu.opWidth t.1)

/-- Load CS and, if that succeeds, `pc` (R281, R292): the end of every far transfer. -/
def farTo (n : Width) (sel : Word16) (off : Word32) (s : State) : State :=
  let r := s.setSeg .cs sel
  if r.1 then r.2.jumpTo n off else r.2

/-- `JMP ptr16:16/32` (R292). -/
def execJmpFar (off : Word32) (sel : Word16) (s : State) : Host.Outcome State Fault Refusal :=
  .next (farTo s.cpu.opWidth sel off s)

/-- `CALL ptr16:16/32` (R293): the pushes stay when the load fails. -/
def execCallFar (off : Word32) (sel : Word16) (s : State) : Host.Outcome State Fault Refusal :=
  let w := s.cpu.opWidth
  let s1 := s.push w (s.cpu.segs.cs.sel.setWidth 32)
  .next (farTo w sel off (s1.push w (truncW w s1.cpu.eip)))

/-- `RETF` (R294): the pops stay when the load fails. -/
def execRetf (s : State) : Host.Outcome State Fault Refusal :=
  let w := s.cpu.opWidth
  let t := s.pop w
  let c := t.2.pop w
  .next (farTo w (c.1.setWidth 16) t.1 c.2)

end Sys2Proof.Machine
end

