-- ==== Sys2Proof/Machine/Illegal.lean ====
section
/-! DEFINITION. The illegal sub-encodings of the reference set (spec/30_encoding.md R111): each raises `#UD`, which
step 6 of the same iteration delivers. -/

namespace Sys2Proof.Machine

/-- An illegal sub-encoding (R111): `#UD`, and nothing else beyond the fetches made. -/
def invalidOpcode (s : State) : State := s.raise Intr.ud

/-- `8C /6` (R225). -/
def execUdMovRm16Sreg6 (s : State) : Host.Outcome State Fault Refusal := .next (invalidOpcode s)

/-- `8C /7` (R225). -/
def execUdMovRm16Sreg7 (s : State) : Host.Outcome State Fault Refusal := .next (invalidOpcode s)

/-- `8D mod 3` (R226). -/
def execUdLeaMod3 (s : State) : Host.Outcome State Fault Refusal := .next (invalidOpcode s)

/-- `8E /6` (R227). -/
def execUdMovSreg6Rm16 (s : State) : Host.Outcome State Fault Refusal := .next (invalidOpcode s)

/-- `8E /7` (R227). -/
def execUdMovSreg7Rm16 (s : State) : Host.Outcome State Fault Refusal := .next (invalidOpcode s)

/-- `C6 /1` (R234). -/
def execUdC6r1 (s : State) : Host.Outcome State Fault Refusal := .next (invalidOpcode s)

/-- `C6 /2` (R234). -/
def execUdC6r2 (s : State) : Host.Outcome State Fault Refusal := .next (invalidOpcode s)

/-- `C6 /3` (R234). -/
def execUdC6r3 (s : State) : Host.Outcome State Fault Refusal := .next (invalidOpcode s)

/-- `C6 /4` (R234). -/
def execUdC6r4 (s : State) : Host.Outcome State Fault Refusal := .next (invalidOpcode s)

/-- `C6 /5` (R234). -/
def execUdC6r5 (s : State) : Host.Outcome State Fault Refusal := .next (invalidOpcode s)

/-- `C6 /6` (R234). -/
def execUdC6r6 (s : State) : Host.Outcome State Fault Refusal := .next (invalidOpcode s)

/-- `C6 /7` (R234). -/
def execUdC6r7 (s : State) : Host.Outcome State Fault Refusal := .next (invalidOpcode s)

/-- `C7 /1` (R235). -/
def execUdC7r1 (s : State) : Host.Outcome State Fault Refusal := .next (invalidOpcode s)

/-- `C7 /2` (R235). -/
def execUdC7r2 (s : State) : Host.Outcome State Fault Refusal := .next (invalidOpcode s)

/-- `C7 /3` (R235). -/
def execUdC7r3 (s : State) : Host.Outcome State Fault Refusal := .next (invalidOpcode s)

/-- `C7 /4` (R235). -/
def execUdC7r4 (s : State) : Host.Outcome State Fault Refusal := .next (invalidOpcode s)

/-- `C7 /5` (R235). -/
def execUdC7r5 (s : State) : Host.Outcome State Fault Refusal := .next (invalidOpcode s)

/-- `C7 /6` (R235). -/
def execUdC7r6 (s : State) : Host.Outcome State Fault Refusal := .next (invalidOpcode s)

/-- `C7 /7` (R235). -/
def execUdC7r7 (s : State) : Host.Outcome State Fault Refusal := .next (invalidOpcode s)


end Sys2Proof.Machine
end

