-- ==== Sys2Proof/Machine/Moves.lean ====
section
/-! DEFINITION. MOV and LEA (spec/43_ref_data_movement.md R221 to R235). A meaning starts after the fetches of its
bytes, which are the first actions of every handler. -/

namespace Sys2Proof.Machine

/-- `MOV r/m8, r8` (R221). -/
def execMovRm8R8 (x : Rm) (r : Reg) (s : State) : Host.Outcome State Fault Refusal :=
  .next (s.storeRm .byte x (s.reg .byte r))

/-- `MOV r/m16/32, r16/32` (R222). -/
def execMovRmR (x : Rm) (r : Reg) (s : State) : Host.Outcome State Fault Refusal :=
  .next (s.storeRm s.cpu.opWidth x (s.reg s.cpu.opWidth r))

/-- `MOV r8, r/m8` (R223). -/
def execMovR8Rm8 (r : Reg) (x : Rm) (s : State) : Host.Outcome State Fault Refusal :=
  let v := s.loadRm .byte x
  .next (v.2.setReg .byte r v.1)

/-- `MOV r16/32, r/m16/32` (R224). -/
def execMovRRm (r : Reg) (x : Rm) (s : State) : Host.Outcome State Fault Refusal :=
  let v := s.loadRm s.cpu.opWidth x
  .next (v.2.setReg s.cpu.opWidth r v.1)

/-- `MOV r/m16, Sreg` (R225): 16 bits whatever the operand size. -/
def execMovRm16Sreg (x : Rm) (sr : SegReg) (s : State) : Host.Outcome State Fault Refusal :=
  .next (s.storeRm .word x ((s.cpu.segs.get sr).sel.setWidth 32))

/-- `LEA r16/32, m` (R226): the offset, no memory access; `EFF_SEG` is still written. -/
def execLea (r : Reg) (m : Mem) (s : State) : Host.Outcome State Fault Refusal :=
  .next ((s.resolved (.mem m)).setReg s.cpu.opWidth r (m.offset s.cpu.regs))

/-- `MOV Sreg, r/m16` (R227): a failing load leaves the register and raises `#GP`. -/
def execMovSregRm16 (sr : SegReg) (x : Rm) (s : State) : Host.Outcome State Fault Refusal :=
  let v := s.loadRm .word x
  .next (v.2.setSeg sr (v.1.setWidth 16)).2

/-- `MOV AL, moffs8` (R228). -/
def execMovAlMoffs (off : Word32) (s : State) : Host.Outcome State Fault Refusal :=
  let v := s.memRead .byte (s.cpu.lin s.cpu.dataSeg off)
  .next (v.2.setReg .byte .eax v.1)

/-- `MOV eAX, moffs` (R229). -/
def execMovEaxMoffs (off : Word32) (s : State) : Host.Outcome State Fault Refusal :=
  let v := s.memRead s.cpu.opWidth (s.cpu.lin s.cpu.dataSeg off)
  .next (v.2.setReg s.cpu.opWidth .eax v.1)

/-- `MOV moffs8, AL` (R230). -/
def execMovMoffsAl (off : Word32) (s : State) : Host.Outcome State Fault Refusal :=
  .next (s.memWrite .byte (s.cpu.lin s.cpu.dataSeg off) (s.reg .byte .eax))

/-- `MOV moffs, eAX` (R231). -/
def execMovMoffsEax (off : Word32) (s : State) : Host.Outcome State Fault Refusal :=
  .next (s.memWrite s.cpu.opWidth (s.cpu.lin s.cpu.dataSeg off) (s.reg s.cpu.opWidth .eax))

/-- `MOV r8, imm8` (R232). -/
def execMovR8Imm (r : Reg) (v : Byte) (s : State) : Host.Outcome State Fault Refusal :=
  .next (s.setReg .byte r (v.setWidth 32))

/-- `MOV r16/32, imm16/32` (R233). -/
def execMovRImm (r : Reg) (v : Word32) (s : State) : Host.Outcome State Fault Refusal :=
  .next (s.setReg s.cpu.opWidth r v)

/-- `MOV r/m8, imm8` (R234). -/
def execMovRm8Imm (x : Rm) (v : Byte) (s : State) : Host.Outcome State Fault Refusal :=
  .next (s.storeRm .byte x (v.setWidth 32))

/-- `MOV r/m16/32, imm16/32` (R235). -/
def execMovRmImm (x : Rm) (v : Word32) (s : State) : Host.Outcome State Fault Refusal :=
  .next (s.storeRm s.cpu.opWidth x v)

end Sys2Proof.Machine
end

