-- ==== Sys2Proof/Machine/PortIo.lean ====
section
/-! DEFINITION. IN and OUT (spec/43_ref_data_movement.md R260 to R269). -/

namespace Sys2Proof.Machine

/-- `AL` or `eAX` from a port (R260). -/
def portIn (n : Width) (p : Word16) (s : State) : State :=
  let v := s.ioRead n p
  v.2.setReg n .eax v.1

/-- `AL` or `eAX` to a port (R260). -/
def portOut (n : Width) (p : Word16) (s : State) : State := s.ioWrite n p (s.reg n .eax)

/-- The port number of the `DX` forms (R260). -/
def dxPort (s : State) : Word16 := (s.reg .word .edx).setWidth 16

/-- `IN AL, imm8` (R262). -/
def execInAlImm (p : Byte) (s : State) : Host.Outcome State Fault Refusal :=
  .next (portIn .byte (p.setWidth 16) s)

/-- `IN eAX, imm8` (R263). -/
def execInEaxImm (p : Byte) (s : State) : Host.Outcome State Fault Refusal :=
  .next (portIn s.cpu.opWidth (p.setWidth 16) s)

/-- `OUT imm8, AL` (R264). -/
def execOutImmAl (p : Byte) (s : State) : Host.Outcome State Fault Refusal :=
  .next (portOut .byte (p.setWidth 16) s)

/-- `OUT imm8, eAX` (R265). -/
def execOutImmEax (p : Byte) (s : State) : Host.Outcome State Fault Refusal :=
  .next (portOut s.cpu.opWidth (p.setWidth 16) s)

/-- `IN AL, DX` (R266). -/
def execInAlDx (s : State) : Host.Outcome State Fault Refusal :=
  .next (portIn .byte (dxPort s) s)

/-- `IN eAX, DX` (R267). -/
def execInEaxDx (s : State) : Host.Outcome State Fault Refusal :=
  .next (portIn s.cpu.opWidth (dxPort s) s)

/-- `OUT DX, AL` (R268). -/
def execOutDxAl (s : State) : Host.Outcome State Fault Refusal :=
  .next (portOut .byte (dxPort s) s)

/-- `OUT DX, eAX` (R269). -/
def execOutDxEax (s : State) : Host.Outcome State Fault Refusal :=
  .next (portOut s.cpu.opWidth (dxPort s) s)


end Sys2Proof.Machine
end

