-- ==== Sys2Proof/Machine/Prefixes.lean ====
section
/-! DEFINITION. The eleven legacy prefixes (spec/40_decode_dispatch.md R136 to R146). A prefix is met by the prefix
loop, which goes on after it (Machine/Loop.lean). -/

namespace Sys2Proof.Machine

/-- Record a segment override; the last one seen wins (R136 to R141). -/
def override (r : SegReg) (s : State) : State :=
  { s with cpu := { s.cpu with segOvr := some r } }

/-- `ES:` (R136). -/
def execSegEs (s : State) : Host.Outcome State Fault Refusal := .next (override .es s)

/-- `CS:` (R137). -/
def execSegCs (s : State) : Host.Outcome State Fault Refusal := .next (override .cs s)

/-- `SS:` (R138). -/
def execSegSs (s : State) : Host.Outcome State Fault Refusal := .next (override .ss s)

/-- `DS:` (R139). -/
def execSegDs (s : State) : Host.Outcome State Fault Refusal := .next (override .ds s)

/-- `FS:` (R140). -/
def execSegFs (s : State) : Host.Outcome State Fault Refusal := .next (override .fs s)

/-- `GS:` (R141). -/
def execSegGs (s : State) : Host.Outcome State Fault Refusal := .next (override .gs s)

/-- Operand-size prefix (R142): a toggle. -/
def execOpSize (s : State) : Host.Outcome State Fault Refusal :=
  .next { s with cpu := { s.cpu with mode := { s.cpu.mode with data32 := !s.cpu.mode.data32 } } }

/-- Address-size prefix (R143): a toggle. -/
def execAdSize (s : State) : Host.Outcome State Fault Refusal :=
  .next { s with cpu := { s.cpu with mode := { s.cpu.mode with addr32 := !s.cpu.mode.addr32 } } }

/-- `LOCK` (R144): consumed, no effect. -/
def execLock (s : State) : Host.Outcome State Fault Refusal := .next s

/-- `REPNE` (R145). -/
def execRepne (s : State) : Host.Outcome State Fault Refusal :=
  .next { s with cpu := { s.cpu with mode := { s.cpu.mode with repne := true } } }

/-- `REP`/`REPE` (R146). -/
def execRep (s : State) : Host.Outcome State Fault Refusal :=
  .next { s with cpu := { s.cpu with mode := { s.cpu.mode with repe := true } } }

end Sys2Proof.Machine
end

