-- ==== Sys2Proof/Machine/Stack.lean ====
section
/-! DEFINITION. The stack instructions (spec/43_ref_data_movement.md R238 to R248). -/

namespace Sys2Proof.Machine

/-- `PUSH Sreg` at the operand size, the selector zero-extended (R242 to R245). -/
def pushSeg (r : SegReg) (s : State) : State :=
  s.push s.cpu.opWidth ((s.cpu.segs.get r).sel.setWidth 32)

/-- `POP Sreg` at the operand size (R246 to R248): the pop stays when the load fails (R281). -/
def popSeg (r : SegReg) (s : State) : State :=
  let v := s.pop s.cpu.opWidth
  (v.2.setSeg r (v.1.setWidth 16)).2

/-- `PUSH r16/32` (R238): the value is read before the decrement. -/
def execPushReg (r : Reg) (s : State) : Host.Outcome State Fault Refusal :=
  .next (s.push s.cpu.opWidth (s.reg s.cpu.opWidth r))

/-- `POP r16/32` (R239): the register is written after the increment. -/
def execPopReg (r : Reg) (s : State) : Host.Outcome State Fault Refusal :=
  let v := s.pop s.cpu.opWidth
  .next (v.2.setReg s.cpu.opWidth r v.1)

/-- `PUSHF`/`PUSHFD` (R240). -/
def execPushf (s : State) : Host.Outcome State Fault Refusal :=
  .next (s.push s.cpu.opWidth (truncW s.cpu.opWidth s.cpu.flags.image))

/-- `POPF`/`POPFD` (R241). -/
def execPopf (s : State) : Host.Outcome State Fault Refusal :=
  let v := s.pop s.cpu.opWidth
  .next (v.2.setFlags (Flags.ofImage v.1))

/-- `PUSH ES` (R242). -/
def execPushEs (s : State) : Host.Outcome State Fault Refusal := .next (pushSeg .es s)

/-- `PUSH CS` (R243). -/
def execPushCs (s : State) : Host.Outcome State Fault Refusal := .next (pushSeg .cs s)

/-- `PUSH SS` (R244). -/
def execPushSs (s : State) : Host.Outcome State Fault Refusal := .next (pushSeg .ss s)

/-- `PUSH DS` (R245). -/
def execPushDs (s : State) : Host.Outcome State Fault Refusal := .next (pushSeg .ds s)

/-- `POP ES` (R246). -/
def execPopEs (s : State) : Host.Outcome State Fault Refusal := .next (popSeg .es s)

/-- `POP SS` (R247). -/
def execPopSs (s : State) : Host.Outcome State Fault Refusal := .next (popSeg .ss s)

/-- `POP DS` (R248). -/
def execPopDs (s : State) : Host.Outcome State Fault Refusal := .next (popSeg .ds s)


end Sys2Proof.Machine
end

