-- ==== Sys2Proof/Machine/System.lean ====
section
/-! DEFINITION. Software interrupts, IRET, HLT, NOP, the flag instructions (spec/44_ref_control_system.md R295 to R307)
and the external opcode bytes (spec/40_decode_dispatch.md R149). -/

namespace Sys2Proof.Machine

/-- `INT3` (R295): recorded here, delivered at step 6 of the same iteration. -/
def execInt3 (s : State) : Host.Outcome State Fault Refusal := .next (s.raise (Intr.softInt 3#8))

/-- `INT imm8` (R296). -/
def execInt (n : Byte) (s : State) : Host.Outcome State Fault Refusal := .next (s.raise (Intr.softInt n))

/-- `INTO` (R297). -/
def execInto (s : State) : Host.Outcome State Fault Refusal :=
  .next (if s.cpu.flags.ovf then s.raise (Intr.softInt 4#8) else s)

/-- `IRET`/`IRETD` (R298). -/
def execIret (s : State) : Host.Outcome State Fault Refusal := .next s.returnFromInterrupt

/-- `HLT` (R299): the loop stops at step 8. -/
def execHlt (s : State) : Host.Outcome State Fault Refusal := .next (s.haltIf true)

/-- `NOP` (R300). -/
def execNop (s : State) : Host.Outcome State Fault Refusal := .next s

/-- `CMC` (R301). -/
def execCmc (s : State) : Host.Outcome State Fault Refusal :=
  .next (s.setFlags { s.cpu.flags with cf := !s.cpu.flags.cf })

/-- `CLC` (R302). -/
def execClc (s : State) : Host.Outcome State Fault Refusal := .next (s.setFlags { s.cpu.flags with cf := false })

/-- `STC` (R303). -/
def execStc (s : State) : Host.Outcome State Fault Refusal := .next (s.setFlags { s.cpu.flags with cf := true })

/-- `CLI` (R304). -/
def execCli (s : State) : Host.Outcome State Fault Refusal := .next (s.setFlags { s.cpu.flags with ifl := false })

/-- `STI` (R305). -/
def execSti (s : State) : Host.Outcome State Fault Refusal := .next (s.setFlags { s.cpu.flags with ifl := true })

/-- `CLD` (R306). -/
def execCld (s : State) : Host.Outcome State Fault Refusal := .next (s.setFlags { s.cpu.flags with df := false })

/-- `STD` (R307). -/
def execStd (s : State) : Host.Outcome State Fault Refusal := .next (s.setFlags { s.cpu.flags with df := true })

/-- An external opcode byte (R149): the host's handler where one is installed, else refused. -/
def execExt (op : Byte) (s : State) : Host.Outcome State Fault Refusal :=
  if s.host.extHandler then .next (s.handlerOps (Config.extHandler op s))
  else .refused (.noHandler op)

end Sys2Proof.Machine
end

