-- ==== Sys2Proof/Machine/Dispatch.lean ====
section
/-! DEFINITION. The reference handler set as one table (spec/40_decode_dispatch.md R149): one arm per
instruction, each a direct call of its meaning. -/

namespace Sys2Proof.Machine

def exec (i : Instr) (s : State) : Host.Outcome State Fault Refusal :=
  match i with
  | .segEs => Sys2Proof.Machine.execSegEs s
  | .segCs => Sys2Proof.Machine.execSegCs s
  | .segSs => Sys2Proof.Machine.execSegSs s
  | .segDs => Sys2Proof.Machine.execSegDs s
  | .segFs => Sys2Proof.Machine.execSegFs s
  | .segGs => Sys2Proof.Machine.execSegGs s
  | .opSize => Sys2Proof.Machine.execOpSize s
  | .adSize => Sys2Proof.Machine.execAdSize s
  | .lock => Sys2Proof.Machine.execLock s
  | .repne => Sys2Proof.Machine.execRepne s
  | .rep => Sys2Proof.Machine.execRep s
  | .udMovRm16Sreg6 _ _ => Sys2Proof.Machine.execUdMovRm16Sreg6 s
  | .udMovRm16Sreg7 _ _ => Sys2Proof.Machine.execUdMovRm16Sreg7 s
  | .udLeaMod3 _ _ => Sys2Proof.Machine.execUdLeaMod3 s
  | .udMovSreg6Rm16 _ _ => Sys2Proof.Machine.execUdMovSreg6Rm16 s
  | .udMovSreg7Rm16 _ _ => Sys2Proof.Machine.execUdMovSreg7Rm16 s
  | .udC6r1 _ _ => Sys2Proof.Machine.execUdC6r1 s
  | .udC6r2 _ _ => Sys2Proof.Machine.execUdC6r2 s
  | .udC6r3 _ _ => Sys2Proof.Machine.execUdC6r3 s
  | .udC6r4 _ _ => Sys2Proof.Machine.execUdC6r4 s
  | .udC6r5 _ _ => Sys2Proof.Machine.execUdC6r5 s
  | .udC6r6 _ _ => Sys2Proof.Machine.execUdC6r6 s
  | .udC6r7 _ _ => Sys2Proof.Machine.execUdC6r7 s
  | .udC7r1 _ _ => Sys2Proof.Machine.execUdC7r1 s
  | .udC7r2 _ _ => Sys2Proof.Machine.execUdC7r2 s
  | .udC7r3 _ _ => Sys2Proof.Machine.execUdC7r3 s
  | .udC7r4 _ _ => Sys2Proof.Machine.execUdC7r4 s
  | .udC7r5 _ _ => Sys2Proof.Machine.execUdC7r5 s
  | .udC7r6 _ _ => Sys2Proof.Machine.execUdC7r6 s
  | .udC7r7 _ _ => Sys2Proof.Machine.execUdC7r7 s
  | .pushEs => Sys2Proof.Machine.execPushEs s
  | .popEs => Sys2Proof.Machine.execPopEs s
  | .pushCs => Sys2Proof.Machine.execPushCs s
  | .pushSs => Sys2Proof.Machine.execPushSs s
  | .popSs => Sys2Proof.Machine.execPopSs s
  | .pushDs => Sys2Proof.Machine.execPushDs s
  | .popDs => Sys2Proof.Machine.execPopDs s
  | .pushReg r => Sys2Proof.Machine.execPushReg r s
  | .popReg r => Sys2Proof.Machine.execPopReg r s
  | .jo d => Sys2Proof.Machine.execJo d s
  | .jno d => Sys2Proof.Machine.execJno d s
  | .jb d => Sys2Proof.Machine.execJb d s
  | .jae d => Sys2Proof.Machine.execJae d s
  | .je d => Sys2Proof.Machine.execJe d s
  | .jne d => Sys2Proof.Machine.execJne d s
  | .jbe d => Sys2Proof.Machine.execJbe d s
  | .ja d => Sys2Proof.Machine.execJa d s
  | .js d => Sys2Proof.Machine.execJs d s
  | .jns d => Sys2Proof.Machine.execJns d s
  | .jp d => Sys2Proof.Machine.execJp d s
  | .jnp d => Sys2Proof.Machine.execJnp d s
  | .jl d => Sys2Proof.Machine.execJl d s
  | .jge d => Sys2Proof.Machine.execJge d s
  | .jle d => Sys2Proof.Machine.execJle d s
  | .jg d => Sys2Proof.Machine.execJg d s
  | .movRm8R8 x r => Sys2Proof.Machine.execMovRm8R8 x r s
  | .movRmR x r => Sys2Proof.Machine.execMovRmR x r s
  | .movR8Rm8 r x => Sys2Proof.Machine.execMovR8Rm8 r x s
  | .movRRm r x => Sys2Proof.Machine.execMovRRm r x s
  | .movRm16Sreg x sr => Sys2Proof.Machine.execMovRm16Sreg x sr s
  | .lea r m => Sys2Proof.Machine.execLea r m s
  | .movSregRm16 sr x => Sys2Proof.Machine.execMovSregRm16 sr x s
  | .nop => Sys2Proof.Machine.execNop s
  | .callFar off sel => Sys2Proof.Machine.execCallFar off sel s
  | .pushf => Sys2Proof.Machine.execPushf s
  | .popf => Sys2Proof.Machine.execPopf s
  | .movAlMoffs off => Sys2Proof.Machine.execMovAlMoffs off s
  | .movEaxMoffs off => Sys2Proof.Machine.execMovEaxMoffs off s
  | .movMoffsAl off => Sys2Proof.Machine.execMovMoffsAl off s
  | .movMoffsEax off => Sys2Proof.Machine.execMovMoffsEax off s
  | .movsb => Sys2Proof.Machine.execMovsb s
  | .movsw => Sys2Proof.Machine.execMovsw s
  | .stosb => Sys2Proof.Machine.execStosb s
  | .stosw => Sys2Proof.Machine.execStosw s
  | .lodsb => Sys2Proof.Machine.execLodsb s
  | .lodsw => Sys2Proof.Machine.execLodsw s
  | .movR8Imm r v => Sys2Proof.Machine.execMovR8Imm r v s
  | .movRImm r v => Sys2Proof.Machine.execMovRImm r v s
  | .ret => Sys2Proof.Machine.execRet s
  | .movRm8Imm x v => Sys2Proof.Machine.execMovRm8Imm x v s
  | .movRmImm x v => Sys2Proof.Machine.execMovRmImm x v s
  | .retf => Sys2Proof.Machine.execRetf s
  | .int3 => Sys2Proof.Machine.execInt3 s
  | .int n => Sys2Proof.Machine.execInt n s
  | .into => Sys2Proof.Machine.execInto s
  | .iret => Sys2Proof.Machine.execIret s
  | .loopne d => Sys2Proof.Machine.execLoopne d s
  | .loope d => Sys2Proof.Machine.execLoope d s
  | .loop d => Sys2Proof.Machine.execLoop d s
  | .jcxz d => Sys2Proof.Machine.execJcxz d s
  | .inAlImm p => Sys2Proof.Machine.execInAlImm p s
  | .inEaxImm p => Sys2Proof.Machine.execInEaxImm p s
  | .outImmAl p => Sys2Proof.Machine.execOutImmAl p s
  | .outImmEax p => Sys2Proof.Machine.execOutImmEax p s
  | .callRel d => Sys2Proof.Machine.execCallRel d s
  | .jmpRel d => Sys2Proof.Machine.execJmpRel d s
  | .jmpFar off sel => Sys2Proof.Machine.execJmpFar off sel s
  | .jmpRel8 d => Sys2Proof.Machine.execJmpRel8 d s
  | .inAlDx => Sys2Proof.Machine.execInAlDx s
  | .inEaxDx => Sys2Proof.Machine.execInEaxDx s
  | .outDxAl => Sys2Proof.Machine.execOutDxAl s
  | .outDxEax => Sys2Proof.Machine.execOutDxEax s
  | .hlt => Sys2Proof.Machine.execHlt s
  | .cmc => Sys2Proof.Machine.execCmc s
  | .clc => Sys2Proof.Machine.execClc s
  | .stc => Sys2Proof.Machine.execStc s
  | .cli => Sys2Proof.Machine.execCli s
  | .sti => Sys2Proof.Machine.execSti s
  | .cld => Sys2Proof.Machine.execCld s
  | .std => Sys2Proof.Machine.execStd s
  | .ext op => Sys2Proof.Machine.execExt op s

end Sys2Proof.Machine
end

