-- ==== Sys2Proof/Machine/Loop.lean ====
section
/-! DEFINITION. One iteration of the decode/dispatch loop, its eight steps (spec/40_decode_dispatch.md R130
to R153). The handler table is an argument of the loop, a function of the opcode byte called with `pc`
after that byte (R147), so the reference set stays replaceable (spec/00_scope.md R7, spec/10_state.md
R42); Step.lean gives the loop the table that the host configured. -/

namespace Sys2Proof.Machine

/-- `Handler[0..255]` (R42): "256 entries, each a function of the fetched opcode byte". -/
abbrev HandlerTable := Byte → State → Host.Outcome State Fault Refusal

namespace State

/-! ## The handler table -/

/-- The reference handler of an opcode byte (R147, R149): it fetches its own operands, from `pc` after
the byte, and has its instruction's meaning; for a byte outside the reference set it is
`ExtHandler`'s entry. -/
def referenceHandler : HandlerTable := fun op s =>
  exec (fetchRun (decodeOperands s.sizes op) s).1 (fetchRun (decodeOperands s.sizes op) s).2

/-- The host's own function at an entry of the table (R7, R42): whatever operations of R148 it makes,
its fetches among them. -/
def ownHandler : HandlerTable := fun op s => .next (s.handlerOps (Config.extHandler op s))

/-- The handler table in force: that of R149, but for the entries the host put in place of it (R7,
R42). -/
def handler : HandlerTable := fun op s =>
  match s.host.handlers.lookup op with
  | none => referenceHandler op s
  | some .own => ownHandler op s
  | some .external => execExt op s

/-! ## The eight steps -/

/-- Step 1 (R132): sizes from the current CS and SS descriptors; the per-instruction bits and the
override cleared; `HALTED` not written. -/
def computeSizes (s : State) : State :=
  let d := s.cpu.segs.cs.big
  { s with cpu := { s.cpu with
      mode := ⟨d, d, d, s.cpu.segs.ss.big, false, false, s.cpu.mode.halted⟩
      segOvr := none
      effSeg := none } }

/-- Step 2 (R133): the restart address. -/
def snapshot (s : State) : State :=
  { s with cpu := { s.cpu with savedCs := s.cpu.segs.cs.sel, savedEip := s.cpu.eip } }

/-- Steps 1 and 2. -/
def beginIteration (s : State) : State := s.computeSizes.snapshot

/-- Step 3 (R134): the code-check callback where one is installed; `true` is stop. -/
def codeCheckStep (s : State) : Bool × Host.Outcome State Fault Refusal :=
  if s.host.codeCheck then (Config.codeCheckStop s, s.hostOps (Config.codeCheckOps s))
  else (false, .next s)

/-- The number of code offsets, and so of bytes a prefix run can have before it comes round to its
own start and never ends (R135): 65536 in 16-bit code, 2^32 in 32-bit code. -/
def prefixFuel (s : State) : Nat := if s.cpu.mode.code32 then 4294967296 else 65536

/-- `FetchByte()` (R154) as a byte. -/
def fetchOpcode (s : State) : Byte × State := (BitVec.ofNat 8 (s.fetch 1).1, (s.fetch 1).2)

/-- Steps 4 and 5 (R135, R147): fetch bytes, applying each prefix, until one that is no prefix, and
call the table's handler of that byte. The fuel is the length of code space: when it is gone every
byte of code space is a prefix byte and the block itself would loop for ever. -/
def prefixLoop (h : HandlerTable) : Nat → State → Host.Outcome State Fault Refusal
  | 0, _ => .refused .prefixFuel
  | n + 1, s =>
    match prefixOf s.fetchOpcode.1 with
    | some p => andThen (exec p s.fetchOpcode.2) (prefixLoop h n)
    | none => h s.fetchOpcode.1 s.fetchOpcode.2

/-- Step 7 (R151). -/
def countInstr (s : State) : State :=
  { s with cpu := { s.cpu with icount := s.cpu.icount + 1#64 } }

/-- The stop reason of step 8 (R152): halted is tested first. -/
def stopReason (s : State) : Option StopReason :=
  if s.cpu.mode.halted then some .halted
  else if s.host.run.cap && s.host.run.max ≤ s.cpu.icount then some .maxInstr
  else none

/-- Steps 7 and 8. -/
def endIteration (s : State) : State :=
  { s.countInstr with stop := s.countInstr.stopReason }

/-- Steps 6 to 8 after the handler returned (R150 to R152). -/
def completeStep (o : Host.Outcome State Fault Refusal) : Host.Outcome State Fault Refusal :=
  andThen o fun s => andThen s.deliver fun t => .next t.endIteration

/-- Steps 4 to 8 from the state step 3 left. -/
def runInstr (h : HandlerTable) (s : State) : Host.Outcome State Fault Refusal :=
  completeStep (prefixLoop h s.prefixFuel s)

/-- One iteration (R131). A run that has ended makes none until the host enters `Run` again (R153,
R368); a run with `RUN.selfmod` false has no meaning (R74, R130). -/
def iteration (h : HandlerTable) (s : State) : Host.Outcome State Fault Refusal :=
  match s.stop with
  | some _ => .next s
  | none =>
    if s.host.run.selfmod then
      andThen s.beginIteration.codeCheckStep.2 fun u =>
        if s.beginIteration.codeCheckStep.1 then .next { u with stop := some .codeCheck }
        else u.runInstr h
    else .refused .selfModForbidden

/-- Store bytes where the next iteration fetches its first instruction, and let that iteration reach
the fetch and the instruction's own handler: the run in progress, `RUN.selfmod` true, no code-check
callback, the handler table of R149. -/
def placeInstr (bs : List Byte) (s : State) : State :=
  let c := s.computeSizes.cpu
  { s with
    mem := placeBytes c.segs.cs.base c.pc c.codeWidth bs 0 s.mem
    host := { s.host with
      run := { s.host.run with selfmod := true }, codeCheck := false, handlers := [] }
    stop := none }

end State

end Sys2Proof.Machine
end

