-- ==== Sys2Proof/Machine/Step.lean ====
section
/-! DEFINITION. The step of the machine: one iteration of the loop (spec/40_decode_dispatch.md R131) with
the handler table in force (R42, R149). -/

namespace Sys2Proof.Machine

/-- One loop iteration, an atomic transition (R19, R131). -/
def step (s : State) : Host.Outcome State Fault Refusal := s.iteration State.handler

/-- `s` with a table word stored where `step` fetches its next instruction. -/
def State.withFetchWord (s : State) (nbits w : Nat) : State := s.placeInstr (tableBytes nbits w)

end Sys2Proof.Machine
end

