-- ==== Sys2Proof/Safety.lean ====
section
/-! DEFINITION. The terms statements use: canonical forms and the invariant, safe steps, and what an
access or an instruction's operation leaves of memory, said byte by byte. -/

namespace Sys2Proof.Machine

/-! ## The invariant -/

/-- Memory in canonical form: both lists by strictly rising address below 2^32. No listed entry stands
for what an unlisted address does (R61): an unlisted data byte has a free value and a listed one a
value, an unlisted record is an untouched byte's and a listed one a touched byte's. -/
abbrev Memory.wf (m : Memory) : Prop :=
  Sparse.Sorted 4294967296 m.data ∧ Sparse.Sorted 4294967296 m.attrs

/-- The I/O map in canonical form. -/
abbrev IoMap.wf (io : IoMap) : Prop := Sparse.Canonical 65536 PortAttr.untouched io.ports

/-- A run goes on only while the core is not halted, and says halted only when it is (R152, R153). -/
abbrev State.stopOk (s : State) : Prop :=
  (s.stop = none → s.cpu.mode.halted = false) ∧
    (s.stop = some .halted → s.cpu.mode.halted = true)

/-- The invariant of the machine. -/
abbrev State.Inv (s : State) : Prop := s.mem.wf ∧ s.io.wf ∧ s.stopOk

/-- A step that ends without refusal is safe: the block has no error exit (R157). -/
def State.SafeStep (s : State) : Prop := ∃ t, step s = .next t

/-- A run of `k` steps that meets no refusal. -/
def State.SafeRun : Nat → State → Prop
  | 0, _ => True
  | k + 1, s => ∃ t, step s = .next t ∧ State.SafeRun k t

/-- The nineteen illegal sub-encodings of the reference set (R111). -/
def isIllegal : Instr → Bool
  | .udMovRm16Sreg6 _ _ | .udMovRm16Sreg7 _ _ | .udLeaMod3 _ _ | .udMovSreg6Rm16 _ _
  | .udMovSreg7Rm16 _ _ | .udC6r1 _ _ | .udC6r2 _ _ | .udC6r3 _ _ | .udC6r4 _ _ | .udC6r5 _ _
  | .udC6r6 _ _ | .udC6r7 _ _ | .udC7r1 _ _ | .udC7r2 _ _ | .udC7r3 _ _ | .udC7r4 _ _
  | .udC7r5 _ _ | .udC7r6 _ _ | .udC7r7 _ _ => true
  | _ => false

/-- No hook of the host is installed and no entry of the handler table is its own (R42, R149): what the
machine does is then the spec's alone. -/
def HostCfg.noHooks (h : HostCfg) : Prop :=
  h.codeCheck = false ∧ h.callbacks = [] ∧ h.extHandler = false ∧ h.portRaises = false ∧
    h.handlers = []

/-- The entry of the handler table for this byte is that of R149. -/
abbrev HostCfg.standard (h : HostCfg) (op : Byte) : Prop := h.handlers.lookup op = none

/-- A run is in progress, with stores to code allowed (R74): the machine makes its next iteration. -/
def State.running (s : State) : Prop := s.stop = none ∧ s.host.run.selfmod = true

/-! ## Register views -/

/-- The register that holds a view (R21). -/
def viewHome (n : Width) (r : Reg) : Reg :=
  match n with
  | .byte => (slot8 r).1
  | .word => r
  | .dword => r

/-- The bits of its register that a view covers (R21). -/
def viewMask (n : Width) (r : Reg) : Word32 :=
  match n with
  | .byte => if (slot8 r).2 then 0x0000FF00#32 else 0x000000FF#32
  | .word => 0x0000FFFF#32
  | .dword => 0xFFFFFFFF#32

/-! ## Memory, byte by byte -/

/-- Byte `b` is one of the `n` bytes from `a`, modulo 2^32 (R66). -/
abbrev inSpan (a : Word32) (n : Nat) (b : Word32) : Prop := (b - a).toNat < n

/-- The value an `n`-byte access at `a` returns, little-endian (R63, R66). -/
def Memory.valueLE (m : Memory) (k : Access) (a : Word32) : Nat → Nat
  | 0 => 0
  | n + 1 => (m.valueAt k a).toNat + 256 * Memory.valueLE m k (a + 1#32) n

/-- The seven bits of a byte after one access (R63, R64). -/
def Access.after (k : Access) (t : ByteAttr) : ByteAttr :=
  if k.permits t then { k.mark t with invalid := t.invalid || !t.wasW } else { t with invalid := true }

/-- `m'` is `m` after an access to the `n` bytes at `a` (R63, R64, R66): no data byte changes, the
bytes of the span have their history and `INVALID` bits updated, every other byte is as before, and
`MEM.invalid` is set if some byte of the span was denied or never written. -/
def Memory.AccessedBy (k : Access) (a : Word32) (n : Nat) (m m' : Memory) : Prop :=
  (∀ b, m'.byteAt b = m.byteAt b) ∧
  (∀ b, m'.attrAt b = if inSpan a n b then k.after (m.attrAt b) else m.attrAt b) ∧
  (m'.invalid = true ↔ m.invalid = true ∨
    ∃ b, inSpan a n b ∧ (k.permits (m.attrAt b) = false ∨ (m.attrAt b).wasW = false)) ∧
  m'.defaultPerm = m.defaultPerm

/-- Some byte of the span refuses a write (R65). -/
def Memory.deniesWrite (m : Memory) (a : Word32) (n : Nat) : Bool :=
  (List.range n).any fun i => !(m.attrAt (a + BitVec.ofNat 32 i)).w

/-- `m'` is `m` after a write of the low `n` bytes of `v` at `a` (R65, R66): each byte of the span that
has `W` holds its byte of `v` and is marked written, each that has not is flagged and keeps its data,
every byte outside the span is as before, and `MEM.invalid` is set if some byte was denied. -/
def Memory.WrittenBy (a : Word32) (n v : Nat) (m m' : Memory) : Prop :=
  (∀ i, i < n →
    (m'.byteAt (a + BitVec.ofNat 32 i) =
      if (m.attrAt (a + BitVec.ofNat 32 i)).w then BitVec.ofNat 8 (v / 256 ^ i)
      else m.byteAt (a + BitVec.ofNat 32 i)) ∧
    (m'.attrAt (a + BitVec.ofNat 32 i) =
      if (m.attrAt (a + BitVec.ofNat 32 i)).w then
        { m.attrAt (a + BitVec.ofNat 32 i) with wasW := true }
      else { m.attrAt (a + BitVec.ofNat 32 i) with invalid := true })) ∧
  (∀ b, ¬inSpan a n b → m'.byteAt b = m.byteAt b ∧ m'.attrAt b = m.attrAt b) ∧
  (m'.invalid = true ↔ m.invalid = true ∨ m.deniesWrite a n = true) ∧
  m'.defaultPerm = m.defaultPerm

namespace State

/-- `t` is `s` after a data read of `n` bytes at `a`: nothing but the memory object differs. -/
def ReadsAt (n : Width) (a : Word32) (s t : State) : Prop :=
  ∃ m', s.mem.AccessedBy .read a n.bytes m' ∧ t = s.setMem m'

/-- `t` is `s` after a data write of `n` bytes at `a`: nothing but the memory object differs, and
`HALTED` where a byte was denied (R65). -/
def WritesAt (n : Width) (a : Word32) (v : Word32) (s t : State) : Prop :=
  ∃ m', s.mem.WrittenBy a n.bytes v.toNat m' ∧
    t = (s.setMem m').haltIf (s.mem.deniesWrite a n.bytes)

/-- The value a data read of `n` bytes at `a` gives. -/
def valueAt (s : State) (n : Width) (a : Word32) : Word32 :=
  BitVec.ofNat 32 (s.mem.valueLE .read a n.bytes)

/-- The linear address of the top of the stack (R236). -/
def stackTop (s : State) : Word32 := s.cpu.segs.ss.base + s.reg s.cpu.stackWidth .esp

/-- `t` is `s` after `Push(n, v)` (R236): the pointer decremented in its width, `n` bytes written at
the new top, nothing else. -/
def Pushes (n : Width) (v : Word32) (s t : State) : Prop :=
  ∃ s1, s1 = s.setReg s.cpu.stackWidth .esp
      (s.reg s.cpu.stackWidth .esp - BitVec.ofNat 32 n.bytes) ∧
    WritesAt n s1.stackTop v s1 t

/-- `t` is `s` after `Pop(n)` (R237): `n` bytes read at the top, the pointer incremented in its width,
nothing else. The value is `s.valueAt n s.stackTop`. -/
def Pops (n : Width) (s t : State) : Prop :=
  ∃ s1, ReadsAt n s.stackTop s s1 ∧
    t = s1.setReg s.cpu.stackWidth .esp (s.reg s.cpu.stackWidth .esp + BitVec.ofNat 32 n.bytes)

/-- The value `Pop(n)` gives. -/
def topValue (s : State) (n : Width) : Word32 := s.valueAt n s.stackTop

/-! ## What an instruction's operation leaves, as relations -/

/-- The state with the instruction pointer replaced and nothing else. -/
def withEip (s : State) (v : Word32) : State := { s with cpu := { s.cpu with eip := v } }

/-- The state with the interrupt slot replaced and nothing else. -/
def withSlot (s : State) (i : Option Intr) : State := { s with cpu := { s.cpu with intr := i } }

/-- The linear address of a memory operand (R68, R170, R186): the segment is the override where one
was seen, else the form's default. -/
def memAddr (s : State) (m : Mem) : Word32 :=
  (s.cpu.segs.get (s.cpu.segOvr.getD m.defaultSeg)).base + m.offset s.cpu.regs

/-- The state with the effective segment of a memory operand recorded and nothing else (R186). -/
def segRecorded (s : State) (m : Mem) : State :=
  { s with cpu := { s.cpu with effSeg := some (s.cpu.segOvr.getD m.defaultSeg) } }

/-- `t` is `s` after `v` was written to the `n`-byte operand `x` (R108, R170). -/
def StoresRm (n : Width) (x : Rm) (v : Word32) (s t : State) : Prop :=
  match x with
  | .reg r => t = s.setReg n r v
  | .mem m => WritesAt n (s.memAddr m) v (s.segRecorded m) t

/-- The value an `n`-byte read of the operand `x` gives (R108). -/
def rmValue (s : State) (n : Width) (x : Rm) : Word32 :=
  match x with
  | .reg r => s.reg n r
  | .mem m => s.valueAt n (s.memAddr m)

/-- `t` is `s` after an `n`-byte read of the operand `x` (R108, R170). -/
def LoadsRm (n : Width) (x : Rm) (s t : State) : Prop :=
  match x with
  | .reg _ => t = s
  | .mem m => ReadsAt n (s.memAddr m) (s.segRecorded m) t

/-- The target of a relative transfer (R280): the operand size decides the width of the sum. -/
def nearTarget (s : State) (d : Word32) : Word32 :=
  if s.cpu.mode.data32 then s.cpu.eip + d else ((s.cpu.eip + d).setWidth 16).setWidth 32

/-- A value of the operand size: itself, or its low 16 bits. -/
def atOpSize (s : State) (v : Word32) : Word32 :=
  if s.cpu.mode.data32 then v else (v.setWidth 16).setWidth 32

/-- What a far transfer does after its stack accesses (R281, R292): load CS, and if that succeeds the
instruction pointer; a failing load leaves what `SetSeg` leaves. -/
def farTarget (s : State) (sel : Word16) (off : Word32) : State :=
  if (s.setSeg .cs sel).1 then (s.setSeg .cs sel).2.withEip (s.atOpSize off) else (s.setSeg .cs sel).2

/-- The step of a string index register (R250). -/
def elementDelta (s : State) (n : Width) : Word32 :=
  if s.cpu.flags.df then 0#32 - BitVec.ofNat 32 n.bytes else BitVec.ofNat 32 n.bytes

/-- A string index register stepped, in the width of the address size (R250). -/
def stepIndex (n : Width) (r : Reg) (s : State) : State :=
  s.setReg s.cpu.adWidth r (s.reg s.cpu.adWidth r + s.elementDelta n)

/-- The address of a string source: `[SI]` in DS or the override (R187). -/
def sourceAddr (s : State) : Word32 :=
  (s.cpu.segs.get (s.cpu.segOvr.getD .ds)).base + s.reg s.cpu.adWidth .esi

/-- The address of a string destination: `[DI]` in ES whatever the override (R187). -/
def destAddr (s : State) : Word32 := s.cpu.segs.es.base + s.reg s.cpu.adWidth .edi

/-- One element of `MOVS` (R251). -/
def MovsElement (n : Width) (s t : State) : Prop :=
  ∃ u v, ReadsAt n s.sourceAddr s u ∧ WritesAt n s.destAddr (s.valueAt n s.sourceAddr) u v ∧
    t = (v.stepIndex n .esi).stepIndex n .edi

/-- One element of `STOS` (R253). -/
def StosElement (n : Width) (s t : State) : Prop :=
  ∃ u, WritesAt n s.destAddr (s.reg n .eax) s u ∧ t = u.stepIndex n .edi

/-- One element of `LODS` (R255). -/
def LodsElement (n : Width) (s t : State) : Prop :=
  ∃ u, ReadsAt n s.sourceAddr s u ∧
    t = (u.setReg n .eax (s.valueAt n s.sourceAddr)).stepIndex n .esi

/-- `body; C <- C - 1`, `k` times (R250). -/
def Repeats (body : State → State → Prop) : Nat → State → State → Prop
  | 0, s, t => t = s
  | k + 1, s, t => ∃ u, body s u ∧
      Repeats body k (u.setReg u.cpu.adWidth .ecx (u.reg u.cpu.adWidth .ecx - 1#32)) t

/-- What a string instruction of one element relation does (R250): the element once, or with a repeat
prefix `C` times. -/
def StringRun (body : State → State → Prop) (s t : State) : Prop :=
  if s.cpu.mode.repe ∨ s.cpu.mode.repne then Repeats body (s.reg s.cpu.adWidth .ecx).toNat s t
  else body s t

/-! ## Fetch, prefixes, delivery, as relations -/

/-- `t` is `s` after a fetch of `n` bytes (R154): the bytes accessed, `pc` advanced, nothing else. -/
def Fetches (n : Nat) (s t : State) : Prop :=
  ∃ m', s.mem.AccessedBy s.fetchAccess (s.cpu.segs.cs.base + s.cpu.pc) n m' ∧
    t = { s with mem := m', cpu := s.cpu.advance n }

/-- The bytes a fetch at `pc` reads, one by one, are these, and they do not pass the end of the code
offset space. -/
def CodeBytes (bs : List Byte) (s : State) : Prop :=
  s.cpu.pc.toNat + bs.length ≤ 2 ^ (8 * s.cpu.codeWidth.bytes) ∧
    ∀ k b, bs[k]? = some b →
      s.mem.valueAt s.fetchAccess (s.cpu.segs.cs.base + s.cpu.pc + BitVec.ofNat 32 k) = b

/-- `t` is `s` after the prefix loop consumed these prefix bytes, in order (R135). -/
def PrefixRun : List Instr → State → State → Prop
  | [], s, t => t = s
  | p :: ps, s, t => prefixOf s.fetchOpcode.1 = some p ∧
      ∃ u, exec p s.fetchOpcode.2 = .next u ∧ PrefixRun ps u t

/-- `t` is `s` after the built-in delivery of `i` in real mode (R350, R352 to R355). -/
def EntersReal (i : Intr) (s t : State) : Prop :=
  ∃ a u1 u2 u3 u4 u5 u6 ret,
    a = s.cpu.idt.base + 4#32 * i.nr.setWidth 32 ∧
    ret = (if i.restart then (s.cpu.savedCs, s.cpu.savedEip) else (s.cpu.segs.cs.sel, s.cpu.eip)) ∧
    ReadsAt .word a s u1 ∧ ReadsAt .word (a + 2#32) u1 u2 ∧
    Pushes .word (s.cpu.flags.image) u2 u3 ∧ Pushes .word (ret.1.setWidth 32) u3 u4 ∧
    Pushes .word ((ret.2.setWidth 16).setWidth 32) u4 u5 ∧
    (if i.hasErr then Pushes .dword i.err u5 u6 else u6 = u5) ∧
    t = { u6 with cpu := { u6.cpu with
      flags := { s.cpu.flags with ifl := false, tf := false }
      segs := { s.cpu.segs with cs := { s.cpu.segs.cs with
        sel := (s.valueAt .word (a + 2#32)).setWidth 16
        base := s.valueAt .word (a + 2#32) <<< 4 } }
      eip := s.valueAt .word a
      intr := none } }

end State

/-! ## What the guest cannot change -/

/-- A byte keeps its permissions, and no history or `INVALID` bit of it is cleared. -/
def ByteAttr.GuardedBy (t t' : ByteAttr) : Prop :=
  t'.r = t.r ∧ t'.w = t.w ∧ t'.x = t.x ∧ (t.wasR = true → t'.wasR = true) ∧
    (t.wasW = true → t'.wasW = true) ∧ (t.wasX = true → t'.wasX = true) ∧
    (t.invalid = true → t'.invalid = true)

/-- Every byte keeps its permissions and marks, a byte without `W` keeps its data, and `MEM.invalid` is
never cleared (R65, R81, R91). -/
def Memory.GuardedBy (m m' : Memory) : Prop :=
  (∀ a, (m.attrAt a).GuardedBy (m'.attrAt a)) ∧
  (∀ a, (m.attrAt a).w = false → m'.byteAt a = m.byteAt a) ∧
  (m.invalid = true → m'.invalid = true) ∧
  m'.defaultPerm = m.defaultPerm

/-- A port keeps its permissions, no history or `INVALID` bit of it is cleared, and no counter falls. -/
def PortAttr.GuardedBy (t t' : PortAttr) : Prop :=
  t'.r = t.r ∧ t'.w = t.w ∧ (t.wasR = true → t'.wasR = true) ∧ (t.wasW = true → t'.wasW = true) ∧
    (t.invalid = true → t'.invalid = true) ∧ t.rdCount ≤ t'.rdCount ∧ t.wrCount ≤ t'.wrCount

/-- Every port keeps its permissions and marks, and no recorded write event is lost (R75, R77, R78). -/
def IoMap.GuardedBy (io io' : IoMap) : Prop :=
  (∀ p, (io.portAt p).GuardedBy (io'.portAt p)) ∧ io.writes <:+ io'.writes

/-- Real mode, and every segment base is its selector shifted (R31). -/
def State.RealSegments (s : State) : Prop :=
  s.cpu.pe = false ∧ ∀ r, (s.cpu.segs.get r).base = (s.cpu.segs.get r).sel.setWidth 32 <<< 4

end Sys2Proof.Machine
end

