-- ==== Sys2Proof/Certificates/Slice0/Obligations.lean ====
section
/-! DEFINITION. The statements for the provers, one `Prop` each. OBLIGATIONS.json gives their titles and
the rules of spec/ they rest on. -/

open Sys2Proof Sys2Proof.Machine

/-! ## Encoding -/

/-- Decoding the bytes of a well-formed instruction gives it back, under every pair of sizes and
whatever follows it (R100 to R112). -/
def Obligations.EncodeThenDecode : Prop :=
  ∀ (sz : Sizes) (i : Instr) (rest : List Byte), i.wellFormed sz = true →
    decode sz (encode sz i ++ rest) = .ok (i, rest)

/-- Every instruction read from bytes is well-formed and its bytes are those read, so each byte
sequence has one meaning (R109 to R112). -/
def Obligations.DecodeThenEncode : Prop :=
  ∀ (sz : Sizes) (bs rest : List Byte) (i : Instr), decode sz bs = .ok (i, rest) →
    i.wellFormed sz = true ∧ encode sz i ++ rest = bs

/-- A few byte sequences of the spec's own examples decode to what the spec says they are (R142,
R192, R221 to R235, R290, R292). -/
def Obligations.SpecBytesDecode : Prop :=
  (∀ d, decode ⟨false, d⟩ [0xB8, 0x34, 0x12] = .ok (.movRImm .eax 0x1234, [])) ∧
  (∀ d, decode ⟨true, d⟩ [0xB8, 0x78, 0x56, 0x34, 0x12] = .ok (.movRImm .eax 0x12345678, [])) ∧
  (∀ d, decode ⟨d, false⟩ [0xC6, 0x06, 0x00, 0x10, 0x55] =
    .ok (.movRm8Imm (.mem (.abs16 0x1000)) 0x55, [])) ∧
  (∀ d, decode ⟨d, true⟩ [0x8B, 0x04, 0x8B] =
    .ok (.movRRm .eax (.mem (.sib 2 .ecx .ebx .d0)), [])) ∧
  (∀ d, decode ⟨d, true⟩ [0x8B, 0x04, 0x25, 0x78, 0x56, 0x34, 0x12] =
    .ok (.movRRm .eax (.mem (.sibAbs 0 .esp 0x12345678)), [])) ∧
  (∀ d, decode ⟨d, false⟩ [0x8B, 0x82, 0x00, 0x80] =
    .ok (.movRRm .eax (.mem (.based16 .bpSi (.d16 0x8000))), [])) ∧
  (∀ d, decode ⟨false, d⟩ [0xEA, 0x00, 0x7C, 0x00, 0x00] = .ok (.jmpFar 0x7C00 0, [])) ∧
  (∀ sz, decode sz [0x8C, 0xF0] = .ok (.udMovRm16Sreg6 3 0, [])) ∧
  (∀ sz, decode sz [0x74, 0x05] = .ok (.je 5, [])) ∧
  (∀ sz, decode sz [0xCD, 0x21] = .ok (.int 0x21, []))

/-- The bytes the resolver takes after the ModRM byte, by address size, `mod`, `rm` and, where a SIB
byte is read, its base: the table of R183. -/
def Obligations.ResolverByteCounts : Prop :=
  ∀ (sz : Sizes) (mod : BitVec 2) (rm : BitVec 3) (bs rest : List Byte) (i : Instr),
    (decodeRm sz mod rm fun x => .done (.movRm8R8 x .eax)).runBytes bs = .ok (i, rest) →
    bs.length = rest.length +
      (if mod = 3 then 0
      else if sz.addr32 = false then
        (if mod = 1 then 1 else if mod = 2 then 2 else if rm = 6 then 2 else 0)
      else if rm = 4 then
        (if mod = 1 then 2 else if mod = 2 then 5
        else if (bs.head?.map lowField) = some 5 then 5 else 1)
      else if mod = 1 then 1 else if mod = 2 then 4 else if rm = 5 then 4 else 0)

/-- The classes of the 256 first bytes: the eleven prefix bytes, and the bytes dispatched to the
external handler, which are exactly the listed ranges (R109). -/
def Obligations.OpcodeByteClasses : Prop :=
  ∀ (sz : Sizes) (op : Byte) (bs : List Byte),
    ((∃ i rest, decode sz (op :: bs) = .ok (i, rest) ∧ i.isPrefixByte = true) ↔
      op.toNat ∈ [0x26, 0x2E, 0x36, 0x3E, 0x64, 0x65, 0x66, 0x67, 0xF0, 0xF2, 0xF3]) ∧
    (decode sz (op :: bs) = .ok (.ext op, bs) ↔
      ∃ p ∈ [(0x00, 0x05), (0x08, 0x0D), (0x0F, 0x0F), (0x10, 0x15), (0x18, 0x1D), (0x20, 0x25),
          (0x27, 0x27), (0x28, 0x2D), (0x2F, 0x2F), (0x30, 0x35), (0x37, 0x37), (0x38, 0x3D),
          (0x3F, 0x3F), (0x40, 0x4F), (0x60, 0x63), (0x68, 0x6F), (0x80, 0x87), (0x8F, 0x8F),
          (0x91, 0x99), (0x9B, 0x9B), (0x9E, 0x9F), (0xA6, 0xA9), (0xAE, 0xAF), (0xC0, 0xC2),
          (0xC4, 0xC5), (0xC8, 0xCA), (0xD0, 0xDF), (0xF1, 0xF1), (0xF6, 0xF7), (0xFE, 0xFF)],
        p.1 ≤ op.toNat ∧ op.toNat ≤ p.2)

/-! ## Fetch and the loop -/

/-- A fetch of 1, 2 or 4 bytes returns the little-endian value of the bytes at consecutive linear
addresses from `CS.base + pc`, marks them accessed, and advances `pc` by their number: in 16-bit code
`IP` modulo 65536 with the upper half of `EIP` unchanged, in 32-bit code `EIP` modulo 2^32 (R24, R25,
R154). The access is a read, or a checked execute with `RUN.xcheck` (R64). -/
def Obligations.FetchReadsBytesAtPc : Prop :=
  ∀ (s : State) (n : Nat), n = 1 ∨ n = 2 ∨ n = 4 →
    ∀ a k, k = (if s.host.run.xcheck then Access.execute else Access.read) →
    a = s.cpu.segs.cs.base +
      (if s.cpu.mode.code32 then s.cpu.eip else (s.cpu.eip.setWidth 16).setWidth 32) →
    (s.fetch n).1 = s.mem.valueLE k a n ∧
    ∃ m', s.mem.AccessedBy k a n m' ∧
      (s.fetch n).2 = { s with
        mem := m'
        cpu := { s.cpu with eip :=
          if s.cpu.mode.code32 then s.cpu.eip + BitVec.ofNat 32 n
          else s.cpu.eip.extractLsb' 16 16 ++ (s.cpu.eip.setWidth 16 + BitVec.ofNat 16 n) } }

/-- The instruction fetched is the one the bytes at `pc` decode to, and the fetch takes exactly its
bytes: they are marked accessed, `pc` moves past them, nothing else changes. -/
def Obligations.FetchFollowsDecode : Prop :=
  ∀ (s : State) (bs : List Byte) (i : Instr), s.CodeBytes bs → decode s.sizes bs = .ok (i, []) →
    s.fetchInstr.1 = i ∧ State.Fetches bs.length s s.fetchInstr.2

/-- A step whose bytes at `pc` decode to an instruction that is no prefix is `exec` of it, where the
handler table's entry for its first byte is that of R149: after steps 1 and 2 and the fetch, and
followed by delivery, the count and the stop test (R131, R147). -/
def Obligations.StepRunsDecodedInstruction : Prop :=
  ∀ (s : State) (bs : List Byte) (i : Instr), s.running → s.host.codeCheck = false →
    (∀ op, bs.head? = some op → s.host.standard op) → s.beginIteration.CodeBytes bs → decode s.beginIteration.sizes bs = .ok (i, []) →
    i.isPrefixByte = false →
    ∃ u, State.Fetches bs.length s.beginIteration u ∧ step s = State.completeStep (exec i u)

/-- An iteration consumes the prefix bytes in order, each with its effect, and then calls, whatever the
handler table, its entry for the first byte that is no prefix, with that byte, with `pc` after it and
with the sizes the prefixes left (R42, R131, R135, R147). The step is the iteration of the table in
force, and where its entry is that of R149 the step runs the instruction fetched there. -/
def Obligations.StepRunsPrefixesThenInstruction : Prop :=
  ∀ (s u v : State) (ps : List Instr) (op : Byte), s.running → s.host.codeCheck = false →
    State.PrefixRun ps s.beginIteration u → prefixOf op = none →
    (op.toNat, v) = u.fetch 1 → ps.length < s.beginIteration.prefixFuel →
    (∀ h : HandlerTable, s.iteration h = State.completeStep (h op v)) ∧
    step s = State.completeStep (State.handler op v) ∧
    (s.host.standard op → step s = State.completeStep (exec u.fetchInstr.1 u.fetchInstr.2))

/-- The step refuses for want of prefix fuel exactly where the block would fetch prefix bytes for
ever: every byte of the code offset space is one of the eleven (R135, R390). -/
def Obligations.PrefixFuelRefusalIsAHang : Prop :=
  ∀ (s : State), s.running → s.host.codeCheck = false →
    (step s = .refused .prefixFuel ↔
      ∀ off : Word32, off.toNat < (if s.cpu.segs.cs.big then 4294967296 else 65536) →
        (s.mem.valueAt s.fetchAccess (s.cpu.segs.cs.base + off)).toNat ∈
          [0x26, 0x2E, 0x36, 0x3E, 0x64, 0x65, 0x66, 0x67, 0xF0, 0xF2, 0xF3])

/-- Every step counts one instruction, whatever it did, and leaves the saved address of its own first
byte and the code and stack sizes of the descriptors at its start, a load of CS or SS and a delivered
interrupt included (R35, R38, R39, R132, R133, R151, R385); no hook is installed. -/
def Obligations.StepCountsAndKeepsItsStart : Prop :=
  ∀ (s t : State), s.running → s.host.noHooks → step s = .next t →
    t.cpu.icount = s.cpu.icount + 1 ∧
    t.cpu.savedCs = s.cpu.segs.cs.sel ∧ t.cpu.savedEip = s.cpu.eip ∧
    t.cpu.mode.code32 = s.cpu.segs.cs.acc.getLsbD 10 ∧
    t.cpu.mode.stack32 = s.cpu.segs.ss.acc.getLsbD 10

/-- After a step that got past the code check the slot is idle and the stop reason is that of step 8:
halted first, then the budget (R150, R152, R153), hooks or not. -/
def Obligations.StepEndsIdleWithStopTest : Prop :=
  ∀ (s t : State), s.stop = none → step s = .next t → t.stop ≠ some .codeCheck →
    t.cpu.intr = none ∧
    t.stop = (if t.cpu.mode.halted then some .halted
      else if t.host.run.cap ∧ t.host.run.max.toNat ≤ t.cpu.icount.toNat then some .maxInstr
      else none)

/-- The code check, the steps that make no iteration, and the entry of a run: an installed callback runs
after steps 1 and 2, before any fetch, and where it says stop the step ends there, with nothing
fetched, counted or delivered, and the core not halted by it (R134); what refuses one of its operations
refuses the step (notes/assumptions/16.md); a run that may not modify its own code is refused, at its
entry as in a step (R74, R130); a run that has ended makes no iteration (R153, R368;
notes/assumptions/10.md says how the model holds an ended run). `Run` latches its flags and the cap,
clears `HALTED`, begins the run and touches nothing else, a pending interrupt included (R130). -/
def Obligations.StepsThatFetchNothing : Prop :=
  ∀ (s b : State), b = s.beginIteration →
    (s.running → s.host.codeCheck = true →
      step s = andThen (b.hostOps (Config.codeCheckOps b)) fun u =>
        if Config.codeCheckStop b then .next { u with stop := some .codeCheck }
        else u.runInstr State.handler) ∧
    (s.stop = none → s.host.run.selfmod = false → step s = .refused .selfModForbidden) ∧
    (s.stop ≠ none → step s = .next s) ∧
    ∀ f : RunFlags,
      (f.selfmod = false → s.sessionOp (.run f) = .refused .selfModForbidden) ∧
      (f.selfmod = true → ∃ t, s.sessionOp (.run f) = .next t ∧ t.running ∧
        t.host = { s.host with run := f } ∧ t.mem = s.mem ∧ t.io = s.io ∧
        t.cpu = { s.cpu with mode := { s.cpu.mode with halted := false } })

/-! ## Reset and the invariant -/

/-- Reset writes the whole CPU context, whatever it was, to the values of R45, touches nothing else,
and done twice is done once (R380). -/
def Obligations.ResetWritesTheContext : Prop :=
  ∀ (s : State), (∃ c, s.hostReset = { s with cpu := c } ∧
    (∀ r, c.regs.get r = 0) ∧ c.eip = 0x0000FFF0 ∧ c.flags.image = 0x00000002 ∧
    c.segs.cs = ⟨0xF000, 0x000F0000, 0x0000FFFF, 0x009B⟩ ∧
    (∀ r, r ≠ .cs → c.segs.get r = ⟨0, 0, 0x0000FFFF, 0x0093⟩) ∧
    c.ldtr = ⟨0, 0, 0x0000FFFF, 0x0082⟩ ∧ (∀ k : Fin 8, c.cr[k] = 0 ∧ c.dr[k] = 0) ∧
    c.gdt = ⟨0, 0xFFFF⟩ ∧ c.idt = ⟨0, 0xFFFF⟩ ∧
    c.mode = ⟨false, false, false, false, false, false, false⟩ ∧
    c.segOvr = none ∧ c.effSeg = none ∧ c.intr = none ∧ c.savedCs = 0 ∧ c.savedEip = 0 ∧
    c.icount = 0) ∧
  s.hostReset.hostReset = s.hostReset ∧ State.reset.cpu = s.hostReset.cpu

/-- The invariant holds after reset. -/
def Obligations.ResetHasInvariant : Prop := State.reset.Inv

/-- Every step keeps the invariant: memory and the port table stay in canonical form, and a run goes
on only while the core is not halted; hooks or not, and from every state that has it. -/
def Obligations.StepKeepsInvariant : Prop :=
  ∀ (s t : State), s.Inv → step s = .next t → t.Inv

/-! ## Memory -/

/-- A byte access that reads (R63, R64, R91): a data read by `R`, a fetch with `RUN.xcheck` by `X`,
without it by `R`. Denied, it gives `0xFF` and flags the byte and the object; granted, it gives the data
and marks the byte, and flags it where nothing ever wrote it. No data, no other byte and nothing outside
memory changes, but for `pc` in a fetch. -/
def Obligations.ByteReadAndExecute : Prop :=
  ∀ (s : State) (a : Word32) (t : ByteAttr), t = s.mem.attrAt a →
    (∃ m', s.memRead .byte a =
        (if t.r then (s.mem.byteAt a).setWidth 32 else 0xFF, { s with mem := m' }) ∧
      (∀ b, m'.byteAt b = s.mem.byteAt b) ∧ (∀ b, b ≠ a → m'.attrAt b = s.mem.attrAt b) ∧
      m'.attrAt a = (if t.r then { t with wasR := true, invalid := t.invalid || !t.wasW }
        else { t with invalid := true }) ∧
      m'.invalid = (s.mem.invalid || !t.r || !t.wasW)) ∧
    (a = s.cpu.segs.cs.base + s.cpu.pc →
      ∃ m' x, x = (if s.host.run.xcheck then t.x else t.r) ∧
      s.fetch 1 = (if x then (s.mem.byteAt a).toNat else 0xFF,
        { s with mem := m', cpu := s.cpu.advance 1 }) ∧
      (∀ b, m'.byteAt b = s.mem.byteAt b) ∧ (∀ b, b ≠ a → m'.attrAt b = s.mem.attrAt b) ∧
      m'.attrAt a = (if x then { t with
          wasX := t.wasX || s.host.run.xcheck
          wasR := t.wasR || !s.host.run.xcheck
          invalid := t.invalid || !t.wasW }
        else { t with invalid := true }) ∧
      m'.invalid = (s.mem.invalid || !x || !t.wasW))

/-- A byte write (R65, R91): granted it stores and marks the byte written; denied it leaves the data,
flags the byte and the object and halts. No other byte changes. -/
def Obligations.ByteWrite : Prop :=
  ∀ (s : State) (a v : Word32), ∃ m',
    s.memWrite .byte a v = { s with
      mem := m'
      cpu := { s.cpu with mode := { s.cpu.mode with
        halted := s.cpu.mode.halted || !(s.mem.attrAt a).w } } } ∧
    (∀ b, b ≠ a → m'.byteAt b = s.mem.byteAt b ∧ m'.attrAt b = s.mem.attrAt b) ∧
    m'.byteAt a = (if (s.mem.attrAt a).w then v.setWidth 8 else s.mem.byteAt a) ∧
    m'.attrAt a = (if (s.mem.attrAt a).w then { s.mem.attrAt a with wasW := true }
      else { s.mem.attrAt a with invalid := true }) ∧
    m'.invalid = (s.mem.invalid || !(s.mem.attrAt a).w)

/-- Accesses of 2, 4 and 8 bytes are byte accesses at rising linear addresses modulo 2^32, the least
significant byte first, each judged alone, and a write halts where one of its bytes is denied (R66,
R67). -/
def Obligations.WideAccessesAreBytes : Prop :=
  ∀ (s : State) (a : Word32),
    (∀ n : Width, (s.memRead n a).1 = BitVec.ofNat 32 (((List.range n.bytes).map fun i =>
      (s.memRead .byte (a + BitVec.ofNat 32 i)).1.toNat * 256 ^ i).sum)) ∧
    (s.memRead .word a).2 = ((s.memRead .byte a).2.memRead .byte (a + 1)).2 ∧
    (s.memRead .dword a).2 = ((s.memRead .word a).2.memRead .word (a + 2)).2 ∧
    (s.memReadQ a).1 = (s.memRead .dword (a + 4)).1 ++ (s.memRead .dword a).1 ∧
    (s.memReadQ a).2 = ((s.memRead .dword a).2.memRead .dword (a + 4)).2 ∧
    (∀ v : Word32, s.memWrite .word a v =
      (s.memWrite .byte a v).memWrite .byte (a + 1) (v >>> 8)) ∧
    (∀ v : Word32, s.memWrite .dword a v =
      (s.memWrite .word a v).memWrite .word (a + 2) (v >>> 16)) ∧
    (∀ v : Word64, s.memWriteQ a v =
      (s.memWrite .dword a (v.setWidth 32)).memWrite .dword (a + 4) ((v >>> 32).setWidth 32))

/-- After a permitted write of any width, a permitted read of the same bytes gives the value written,
neither sets the `INVALID` bit of any byte nor `MEM.invalid`, and nothing halts; and a narrower read sees the bytes of the wider value in little-endian order (R67,
R85, R91). -/
def Obligations.ReadAfterWrite : Prop :=
  ∀ (s : State) (n : Width) (a v : Word32),
    (∀ i, i < n.bytes → (s.mem.attrAt (a + BitVec.ofNat 32 i)).r = true ∧
      (s.mem.attrAt (a + BitVec.ofNat 32 i)).w = true) →
    ((s.memWrite n a v).memRead n a).1 = truncW n v ∧
    ((s.memWrite n a v).memRead n a).2.mem.invalid = s.mem.invalid ∧
    (∀ b, (((s.memWrite n a v).memRead n a).2.mem.attrAt b).invalid = (s.mem.attrAt b).invalid) ∧
    ((s.memWrite n a v).memRead n a).2.cpu = s.cpu ∧
    (∀ i, i < n.bytes → ((s.memWrite n a v).memRead .byte (a + BitVec.ofNat 32 i)).1 =
      (v >>> (8 * i)) &&& 0xFF)

/-- The host's operations on memory. A permission range that ends at 2^32 or below sets the permissions
of its bytes and nothing else, and one that would wrap is refused (R71). A seed gives a byte its data
and marks it written, whatever its permissions, and changes nothing else; a page mapped onto the
host's storage seeds every byte of the page, and is refused where the page is not whole inside the
address space or the storage is not one page, which is the model's choice (R72;
notes/assumptions/16.md). A host's write of a byte's data or of its bits writes that alone (R43). A new
`MEM_DEFAULT_PERM` is the permission of the bytes no operation has touched, and leaves every other byte
(R43, R61; notes/assumptions/23.md). -/
def Obligations.HostMemoryOperations : Prop :=
  ∀ (s : State) (a : Word32),
    (∀ (len : Nat) (p : Perm),
      (a.toNat + len ≤ 2 ^ 32 → ∃ m', s.hostOp (.setPerm a len p) = .next { s with mem := m' } ∧
        (∀ b, m'.byteAt b = s.mem.byteAt b) ∧ m'.invalid = s.mem.invalid ∧
        m'.defaultPerm = s.mem.defaultPerm ∧
        (∀ b, m'.attrAt b = if a.toNat ≤ b.toNat ∧ b.toNat < a.toNat + len then
          { s.mem.attrAt b with r := p.r, w := p.w, x := p.x } else s.mem.attrAt b) ∧
        (∀ b, m'.touched b = true ↔
          s.mem.touched b = true ∨ (a.toNat ≤ b.toNat ∧ b.toNat < a.toNat + len))) ∧
      (2 ^ 32 < a.toNat + len → s.hostOp (.setPerm a len p) = .refused .permRangeWraps)) ∧
    (∀ v : Byte, ∃ m', s.hostOp (.seed a v) = .next { s with mem := m' } ∧
      m'.invalid = s.mem.invalid ∧ m'.defaultPerm = s.mem.defaultPerm ∧
      (∀ b, m'.byteAt b = if b = a then v else s.mem.byteAt b) ∧
      (∀ b, m'.attrAt b = if b = a then { s.mem.attrAt b with wasW := true } else s.mem.attrAt b) ∧
      (∀ b, m'.touched b = true ↔ s.mem.touched b = true ∨ b = a)) ∧
    (∀ (page : Nat) (bytes : List Byte) (first : Nat), first = page * Config.pageSize →
      (first + Config.pageSize ≤ 2 ^ 32 ∧ bytes.length = Config.pageSize →
        ∃ m', s.hostOp (.mapPage page bytes) = .next { s with mem := m' } ∧
          m'.invalid = s.mem.invalid ∧ m'.defaultPerm = s.mem.defaultPerm ∧
          (∀ i v, bytes[i]? = some v → m'.byteAt (BitVec.ofNat 32 (first + i)) = v) ∧
          (∀ b : Word32, ¬(first ≤ b.toNat ∧ b.toNat < first + Config.pageSize) →
            m'.byteAt b = s.mem.byteAt b) ∧
          (∀ b, m'.attrAt b = if first ≤ b.toNat ∧ b.toNat < first + Config.pageSize then
            { s.mem.attrAt b with wasW := true } else s.mem.attrAt b)) ∧
      (¬(first + Config.pageSize ≤ 2 ^ 32 ∧ bytes.length = Config.pageSize) →
        s.hostOp (.mapPage page bytes) = .refused .pageMisfit)) ∧
    (∀ v : Byte, ∃ m', s.hostOp (.setByte a v) = .next { s with mem := m' } ∧
      m'.invalid = s.mem.invalid ∧ m'.defaultPerm = s.mem.defaultPerm ∧
      (∀ b, m'.byteAt b = if b = a then v else s.mem.byteAt b) ∧ ∀ b, m'.attrAt b = s.mem.attrAt b) ∧
    (∀ t : ByteAttr, ∃ m', s.hostOp (.setAttr a t) = .next { s with mem := m' } ∧
      m'.invalid = s.mem.invalid ∧ m'.defaultPerm = s.mem.defaultPerm ∧
      (∀ b, m'.byteAt b = s.mem.byteAt b) ∧ ∀ b, m'.attrAt b = if b = a then t else s.mem.attrAt b) ∧
    (∀ p : Perm, ∃ m', s.sessionOp (.setDefaultPerm p) = .next { s with mem := m' } ∧
      m'.defaultPerm = p ∧ m'.invalid = s.mem.invalid ∧ (∀ b, m'.byteAt b = s.mem.byteAt b) ∧
      (∀ b, m'.touched b = s.mem.touched b) ∧
      (∀ b, m'.attrAt b = if s.mem.touched b then s.mem.attrAt b
        else ⟨p.r, p.w, p.x, false, false, false, false⟩))

/-- No step without hooks changes a permission of memory or of a port, stores to a byte that lacks
`W`, clears a history or `INVALID` bit of a byte or of a port, lowers a port's counter, loses a recorded
port write, or clears `MEM.invalid`: the protection and its marks are the host's alone to take back
(R63 to R65, R75, R77, R78, R81, R91). -/
def Obligations.StepObeysPermissions : Prop :=
  ∀ (s t : State), s.host.noHooks → step s = .next t →
    s.mem.GuardedBy t.mem ∧ s.io.GuardedBy t.io ∧ t.host = s.host

/-! ## Ports -/

/-- While I/O is unavailable, which is while the host side says so or no port has a permission, a port
read gives all ones, a port write is dropped, and nothing changes (R76). -/
def Obligations.PortsUnavailable : Prop :=
  ∀ (s : State) (p : Word16), s.io.wf →
    (s.host.ioHostOk = false ∨
      ∀ q : Word16, (s.io.portAt q).r = false ∧ (s.io.portAt q).w = false) →
    s.ioRead .byte p = (0xFF, s) ∧ s.ioRead .word p = (0xFFFF, s) ∧
    s.ioRead .dword p = (0xFFFFFFFF, s) ∧ ∀ n v, s.ioWrite n p v = s

/-- A byte access to a port while I/O is available (R77): granted it is one device transaction that
marks and counts the port, denied it flags the port, a read gives `0xFF` and a write is dropped and
halts exactly where the host's parameter says so. Only the slot may change besides, by the device
(R348). -/
def Obligations.PortByteAccess : Prop :=
  ∀ (s : State) (p : Word16), s.ioAvail = true →
    (∃ io' q, s.ioRead .byte p =
        (if (s.io.portAt p).r then Config.portAnswer s.io.seq &&& 0xFF else 0xFF,
          { s.withSlot q with io := io' }) ∧
      (s.host.portRaises = false → q = s.cpu.intr) ∧
      (∀ r, io'.portAt r = if r ≠ p then s.io.portAt r
        else if (s.io.portAt p).r then { s.io.portAt p with
          wasR := true, rdCount := (s.io.portAt p).rdCount + 1 }
        else { s.io.portAt p with invalid := true }) ∧
      io'.writes = s.io.writes) ∧
    (∀ v : Word32, ∃ io' q, s.ioWrite .byte p v =
        ({ s.withSlot q with io := io' } : State).haltIf
          (!(s.io.portAt p).w && s.host.ioDeniedWriteHalts) ∧
      (s.host.portRaises = false → q = s.cpu.intr) ∧
      (∀ r, io'.portAt r = if r ≠ p then s.io.portAt r
        else if (s.io.portAt p).w then { s.io.portAt p with
          wasW := true, wrCount := (s.io.portAt p).wrCount + 1 }
        else { s.io.portAt p with invalid := true }) ∧
      io'.writes = if (s.io.portAt p).w then ⟨p, .byte, v &&& 0xFF⟩ :: s.io.writes
        else s.io.writes)

/-- A wide access to ports while I/O is available (R78): where the span stays below port `0xFFFF` and
every port of it has the permission it is one transaction, which marks every port and counts the
first; otherwise it is byte accesses in order, port numbers modulo 65536, little-endian. -/
def Obligations.PortWideAccess : Prop :=
  ∀ (s : State) (p : Word16) (n : Width), s.io.wf → s.ioAvail = true → n ≠ .byte →
    ((p.toNat + n.bytes ≤ 0x10000 ∧ ∀ i, i < n.bytes → (s.io.portAt (p + BitVec.ofNat 16 i)).r = true) →
      ∃ io' q, s.ioRead n p = (truncW n (Config.portAnswer s.io.seq), { s.withSlot q with io := io' }) ∧
        (s.host.portRaises = false → q = s.cpu.intr) ∧ io'.writes = s.io.writes ∧
        (∀ r, io'.portAt r = if p.toNat ≤ r.toNat ∧ r.toNat < p.toNat + n.bytes then
          { s.io.portAt r with
            wasR := true, rdCount := (s.io.portAt r).rdCount + if r = p then 1 else 0 }
          else s.io.portAt r)) ∧
    ((p.toNat + n.bytes ≤ 0x10000 ∧ ∀ i, i < n.bytes → (s.io.portAt (p + BitVec.ofNat 16 i)).w = true) →
      ∀ v : Word32, ∃ io' q, s.ioWrite n p v = { s.withSlot q with io := io' } ∧
        (s.host.portRaises = false → q = s.cpu.intr) ∧
        io'.writes = ⟨p, n, truncW n v⟩ :: s.io.writes ∧
        (∀ r, io'.portAt r = if p.toNat ≤ r.toNat ∧ r.toNat < p.toNat + n.bytes then
          { s.io.portAt r with
            wasW := true, wrCount := (s.io.portAt r).wrCount + if r = p then 1 else 0 }
          else s.io.portAt r)) ∧
    (¬(p.toNat + n.bytes ≤ 0x10000 ∧ ∀ i, i < n.bytes → (s.io.portAt (p + BitVec.ofNat 16 i)).r = true) →
      ∃ b : Nat → Word32 × State, b 0 = s.ioRead .byte p ∧
        (∀ i, i + 1 < n.bytes → b (i + 1) = (b i).2.ioRead .byte (p + BitVec.ofNat 16 (i + 1))) ∧
        s.ioRead n p = (BitVec.ofNat 32 (((List.range n.bytes).map fun i =>
          (b i).1.toNat * 256 ^ i).sum), (b (n.bytes - 1)).2)) ∧
    (¬(p.toNat + n.bytes ≤ 0x10000 ∧ ∀ i, i < n.bytes → (s.io.portAt (p + BitVec.ofNat 16 i)).w = true) →
      ∀ v : Word32, ∃ b : Nat → State, b 0 = s.ioWrite .byte p v ∧
        (∀ i, i + 1 < n.bytes →
          b (i + 1) = (b i).ioWrite .byte (p + BitVec.ofNat 16 (i + 1)) (v >>> (8 * (i + 1)))) ∧
        s.ioWrite n p v = b (n.bytes - 1))

/-! ## Segment registers -/

/-- In real mode a segment load always succeeds, sets the selector and the base, sixteen times it, and
changes neither limit nor access rights nor anything else (R201). In protected mode a selector whose
index is zero loads a null segment and succeeds, reading nothing (R203). -/
def Obligations.RealAndNullSegmentLoads : Prop :=
  ∀ (s : State) (r : SegReg) (v : Word16),
    (s.cpu.cr[0].getLsbD 0 = false → s.setSeg r v = (true, s.setSegReg r
      ⟨v, BitVec.ofNat 32 (16 * v.toNat), (s.cpu.segs.get r).limit, (s.cpu.segs.get r).acc⟩)) ∧
    (s.cpu.cr[0].getLsbD 0 = true → v.toNat < 8 →
      s.setSeg r v = (true, s.setSegReg r ⟨v, 0, 0, 0⟩))

/-- In protected mode a selector within its table's limit whose eight descriptor bytes are readable,
present and not of a system segment loads base, limit and access rights from them (R204 to R207). The
reads leave their history marks and nothing else changes. -/
def Obligations.DescriptorLoad : Prop :=
  ∀ (s : State) (r : SegReg) (v : Word16) (table : Word32) (limit : Nat) (b : Nat → Nat),
    s.cpu.cr[0].getLsbD 0 = true → 8 ≤ v.toNat →
    table = (if v.getLsbD 2 then s.cpu.ldtr.base else s.cpu.gdt.base) →
    limit = (if v.getLsbD 2 then s.cpu.ldtr.limit.toNat else s.cpu.gdt.limit.toNat) →
    v.toNat / 8 * 8 + 7 ≤ limit →
    (∀ i, i < 8 → (s.mem.attrAt (table + BitVec.ofNat 32 (v.toNat / 8 * 8 + i))).r = true ∧
      b i = (s.mem.byteAt (table + BitVec.ofNat 32 (v.toNat / 8 * 8 + i))).toNat) →
    (b 5).testBit 7 = true → (b 5).testBit 4 = true →
    ∃ m', s.mem.AccessedBy .read (table + BitVec.ofNat 32 (v.toNat / 8 * 8)) 8 m' ∧
      s.setSeg r v = (true, ({ s with mem := m' } : State).setSegReg r
        { sel := v
          base := BitVec.ofNat 32 (b 2 + 256 * b 3 + 65536 * b 4 + 16777216 * b 7)
          limit := if (b 6).testBit 7 then
              BitVec.ofNat 32 (4096 * (b 0 + 256 * b 1 + 65536 * (b 6 % 16)) + 4095)
            else BitVec.ofNat 32 (b 0 + 256 * b 1 + 65536 * (b 6 % 16))
          acc := BitVec.ofNat 16 (b 5 + 256 * (b 6 / 16)) })

/-- A protected-mode load fails where the index is out of the table's limit, a descriptor byte may not
be read, or the descriptor is absent or of a system segment: no segment register changes, and
`#GP(v)`, vector 13, restartable, with the selector as error code, is recorded unless an interrupt is
already pending (R208, R345). That all eight bytes of a descriptor within the limit are accessed, also
where one of them may not be read, is the model's reading (notes/assumptions/19.md). -/
def Obligations.SegmentLoadFailure : Prop :=
  ∀ (s : State) (r : SegReg) (v : Word16) (table : Word32) (limit : Nat),
    s.cpu.cr[0].getLsbD 0 = true → 8 ≤ v.toNat →
    table = (if v.getLsbD 2 then s.cpu.ldtr.base else s.cpu.gdt.base) →
    limit = (if v.getLsbD 2 then s.cpu.ldtr.limit.toNat else s.cpu.gdt.limit.toNat) →
    (limit < v.toNat / 8 * 8 + 7 ∨
      (∃ i, i < 8 ∧ (s.mem.attrAt (table + BitVec.ofNat 32 (v.toNat / 8 * 8 + i))).r = false) ∨
      (s.mem.byteAt (table + BitVec.ofNat 32 (v.toNat / 8 * 8 + 5))).getLsbD 7 = false ∨
      (s.mem.byteAt (table + BitVec.ofNat 32 (v.toNat / 8 * 8 + 5))).getLsbD 4 = false) →
    ∃ m', (if limit < v.toNat / 8 * 8 + 7 then m' = s.mem
        else s.mem.AccessedBy .read (table + BitVec.ofNat 32 (v.toNat / 8 * 8)) 8 m') ∧
      s.setSeg r v = (false, ({ s with mem := m' } : State).withSlot
        (some (s.cpu.intr.getD ⟨13, .fault, true, true, v.setWidth 32⟩)))

/-! ## The addressing resolver -/

/-- The offsets of the addressing forms: the 16-bit forms computed in 16 bits from the 16-bit views and
zero-extended (R172 to R174), the 32-bit and SIB forms modulo 2^32, with the index scaled by 1, 2, 4 or
8 and absent for index number 4 (R176, R177, R180). -/
def Obligations.OperandOffsets : Prop :=
  (∀ (g : Regs) (d : Disp16) (x bx si di bp v : Word16), bx = g.ebx.setWidth 16 →
    si = g.esi.setWidth 16 → di = g.edi.setWidth 16 → bp = g.ebp.setWidth 16 →
    v = (match d with | .d0 => 0 | .d8 x => x.signExtend 16 | .d16 x => x) →
    (Mem.based16 .bxSi d).offset g = (bx + si + v).setWidth 32 ∧
    (Mem.based16 .bxDi d).offset g = (bx + di + v).setWidth 32 ∧
    (Mem.based16 .bpSi d).offset g = (bp + si + v).setWidth 32 ∧
    (Mem.based16 .bpDi d).offset g = (bp + di + v).setWidth 32 ∧
    (Mem.based16 .si d).offset g = (si + v).setWidth 32 ∧
    (Mem.based16 .di d).offset g = (di + v).setWidth 32 ∧
    (Mem.based16 .bp d).offset g = (bp + v).setWidth 32 ∧
    (Mem.based16 .bx d).offset g = (bx + v).setWidth 32 ∧
    (Mem.abs16 x).offset g = x.setWidth 32) ∧
  (∀ (g : Regs) (d : Disp32) (sc : BitVec 2) (i b : Reg) (x idx v : Word32),
    idx = (if i = .esp then 0 else BitVec.ofNat 32 (2 ^ sc.toNat) * g.get i) →
    v = (match d with | .d0 => 0 | .d8 y => y.signExtend 32 | .d32 y => y) →
    (Mem.abs32 x).offset g = x ∧ (Mem.based32 b d).offset g = g.get b + v ∧
    (Mem.sibAbs sc i x).offset g = x + idx ∧
    (Mem.sib sc i b d).offset g = g.get b + idx + v)

/-- The segment of a memory operand: the override where one was seen; else the stack segment for
exactly the bases `BP+SI`, `BP+DI`, `BP`, direct `EBP`, SIB base `ESP` and SIB base `EBP`, and the
data segment for every other form (R172, R176, R181, R186). -/
def Obligations.SegmentOfOperand : Prop :=
  ∀ (c : Cpu) (m : Mem) (off : Word32) (stackForm : Prop), off = m.offset c.regs →
    stackForm = ((∃ b d, m = .based16 b d ∧ (b = .bpSi ∨ b = .bpDi ∨ b = .bp)) ∨
      (∃ d, m = .based32 .ebp d) ∨ (∃ sc i b d, m = .sib sc i b d ∧ (b = .esp ∨ b = .ebp))) →
    (∀ r, c.segOvr = some r → (Rm.mem m).operand c = .mem r off) ∧
    (c.segOvr = none → stackForm → (Rm.mem m).operand c = .mem .ss off) ∧
    (c.segOvr = none → ¬stackForm → (Rm.mem m).operand c = .mem .ds off)

/-! ## Registers and flags -/

/-- A view of a register is a slice of one 32-bit store: which register and which bits (R21); a read
gives them zero-extended, and a write replaces them and no other bit of any register (R22). -/
def Obligations.RegisterViews : Prop :=
  ∀ (g : Regs) (n : Width) (r q : Reg) (v : Word32) (i : Nat) (home : Reg) (low : Nat), i < 32 →
    (home, low) = (match n, r with
      | .byte, .esp => (.eax, 8) | .byte, .ebp => (.ecx, 8) | .byte, .esi => (.edx, 8)
      | .byte, .edi => (.ebx, 8) | _, _ => (r, 0)) →
    (g.read n r).getLsbD i = (decide (i < 8 * n.bytes) && (g.get home).getLsbD (low + i)) ∧
    ((g.write n r v).get q).getLsbD i =
      if q = home ∧ low ≤ i ∧ i < low + 8 * n.bytes then v.getLsbD (i - low)
      else (g.get q).getLsbD i

/-- EFLAGS holds nine implemented bits at their positions, reads bit 1 as 1 and every other bit as 0,
and written whole takes `(v & FLAG_MASK) | 2`; reset leaves `2` (R27). -/
def Obligations.FlagsRegister : Prop :=
  (∀ v : Word32, (Flags.ofImage v).image = (v &&& 0x00000FD5) ||| 0x2) ∧
  (∀ f : Flags, Flags.ofImage f.image = f ∧ f.image &&& 0xFFFFF02A = 0x2) ∧
  (∀ f : Flags, f.image.getLsbD 0 = f.cf ∧ f.image.getLsbD 2 = f.pf ∧ f.image.getLsbD 4 = f.af ∧
    f.image.getLsbD 6 = f.zf ∧ f.image.getLsbD 7 = f.sf ∧ f.image.getLsbD 8 = f.tf ∧
    f.image.getLsbD 9 = f.ifl ∧ f.image.getLsbD 10 = f.df ∧ f.image.getLsbD 11 = f.ovf) ∧
  State.reset.cpu.flags.image = 0x00000002

/-! ## Instructions: what each one leaves, whole -/

/-- The eleven prefixes: each sets or toggles its own decode bit and changes nothing else (R136 to
R146). -/
def Obligations.PrefixEffects : Prop :=
  ∀ (s : State) (m : Mode), m = s.cpu.mode →
    (∀ p ∈ [(Instr.segEs, SegReg.es), (.segCs, .cs), (.segSs, .ss), (.segDs, .ds), (.segFs, .fs),
        (.segGs, .gs)], exec p.1 s = .next { s with cpu := { s.cpu with segOvr := some p.2 } }) ∧
    (∀ p ∈ [(Instr.opSize, { m with data32 := !m.data32 }), (.adSize, { m with addr32 := !m.addr32 }),
        (.repne, { m with repne := true }), (.rep, { m with repe := true }), (.lock, m)],
      exec p.1 s = .next { s with cpu := { s.cpu with mode := p.2 } })

/-- The nineteen illegal sub-encodings record `#UD`, vector 6, a restartable fault without error code,
unless an interrupt is already pending, and change nothing else (R111, R344). That the slot's error
code field, for which R344 writes a dash, holds 0 is the model's choice (notes/assumptions/13.md). -/
def Obligations.IllegalEncodings : Prop :=
  ∀ (s : State) (mod : BitVec 2) (reg rm : BitVec 3),
    ∀ i ∈ [Instr.udMovRm16Sreg6 mod rm, .udMovRm16Sreg7 mod rm, .udLeaMod3 reg rm,
        .udMovSreg6Rm16 mod rm, .udMovSreg7Rm16 mod rm, .udC6r1 mod rm, .udC6r2 mod rm,
        .udC6r3 mod rm, .udC6r4 mod rm, .udC6r5 mod rm, .udC6r6 mod rm, .udC6r7 mod rm,
        .udC7r1 mod rm, .udC7r2 mod rm, .udC7r3 mod rm, .udC7r4 mod rm, .udC7r5 mod rm,
        .udC7r6 mod rm, .udC7r7 mod rm],
      exec i s = .next (s.withSlot (some (s.cpu.intr.getD ⟨6, .fault, true, false, 0⟩)))

/-- `MOV` to an `r/m` operand stores exactly the source, of its width, at the operand, and changes
nothing else (R221, R222, R225, R234, R235). -/
def Obligations.MovesToOperand : Prop :=
  ∀ (s : State) (x : Rm) (r : Reg) (sr : SegReg) (v : Byte) (w : Word32),
    (∃ t, exec (.movRm8R8 x r) s = .next t ∧ State.StoresRm .byte x (s.reg .byte r) s t) ∧
    (∃ t, exec (.movRmR x r) s = .next t ∧
      State.StoresRm s.cpu.opWidth x (s.reg s.cpu.opWidth r) s t) ∧
    (∃ t, exec (.movRm16Sreg x sr) s = .next t ∧
      State.StoresRm .word x ((s.cpu.segs.get sr).sel.setWidth 32) s t) ∧
    (∃ t, exec (.movRm8Imm x v) s = .next t ∧ State.StoresRm .byte x (v.setWidth 32) s t) ∧
    (∃ t, exec (.movRmImm x w) s = .next t ∧ State.StoresRm s.cpu.opWidth x w s t)

/-- `MOV` from an `r/m` operand loads the operand's value into the register and changes nothing else
but the marks of the read; the address is formed before the register is written (R184, R223, R224). -/
def Obligations.MovesFromOperand : Prop :=
  ∀ (s : State) (x : Rm) (r : Reg),
    (∃ u, State.LoadsRm .byte x s u ∧
      exec (.movR8Rm8 r x) s = .next (u.setReg .byte r (s.rmValue .byte x))) ∧
    (∃ u, State.LoadsRm s.cpu.opWidth x s u ∧
      exec (.movRRm r x) s = .next (u.setReg s.cpu.opWidth r (s.rmValue s.cpu.opWidth x)))

/-- The `moffs` forms load and store the accumulator at the offset in the data segment or the
override, and change nothing else (R187, R228 to R231). -/
def Obligations.MovesAtOffset : Prop :=
  ∀ (s : State) (off a : Word32), a = (s.cpu.segs.get (s.cpu.segOvr.getD .ds)).base + off →
    (∃ u, State.ReadsAt .byte a s u ∧
      exec (.movAlMoffs off) s = .next (u.setReg .byte .eax (s.valueAt .byte a))) ∧
    (∃ u, State.ReadsAt s.cpu.opWidth a s u ∧
      exec (.movEaxMoffs off) s =
        .next (u.setReg s.cpu.opWidth .eax (s.valueAt s.cpu.opWidth a))) ∧
    (∃ t, State.WritesAt .byte a (s.reg .byte .eax) s t ∧ exec (.movMoffsAl off) s = .next t) ∧
    (∃ t, State.WritesAt s.cpu.opWidth a (s.reg s.cpu.opWidth .eax) s t ∧
      exec (.movMoffsEax off) s = .next t)

/-- The immediate moves and `LEA` write one register; `LEA` also records the segment it did not use.
Memory and everything else are unchanged (R226, R232, R233). -/
def Obligations.ImmediatesAndLea : Prop :=
  ∀ (s : State) (r : Reg) (v : Byte) (w : Word32) (m : Mem),
    exec (.movR8Imm r v) s = .next (s.setReg .byte r (v.setWidth 32)) ∧
    exec (.movRImm r w) s = .next (s.setReg s.cpu.opWidth r w) ∧
    exec (.lea r m) s =
      .next ((s.segRecorded m).setReg s.cpu.opWidth r (s.atOpSize (m.offset s.cpu.regs)))

/-- `MOV Sreg, r/m16` reads the operand as 16 bits and loads the segment register through the segment
resolver (R227). -/
def Obligations.MovesToSegment : Prop :=
  ∀ (s : State) (sr : SegReg) (x : Rm), ∃ u, State.LoadsRm .word x s u ∧
    exec (.movSregRm16 sr x) s = .next (u.setSeg sr ((s.rmValue .word x).setWidth 16)).2

/-- The pushes decrement the stack pointer in its width and store, through SS whatever the override,
the value the source had before, and change nothing else (R236, R238, R240, R242 to R245). -/
def Obligations.Pushes : Prop :=
  ∀ (s : State), (∀ r : Reg, ∃ t, exec (.pushReg r) s = .next t ∧
      State.Pushes s.cpu.opWidth (s.reg s.cpu.opWidth r) s t) ∧
    ∀ p ∈ [(Instr.pushf, s.cpu.flags.image), (.pushEs, s.cpu.segs.es.sel.setWidth 32),
        (.pushCs, s.cpu.segs.cs.sel.setWidth 32), (.pushSs, s.cpu.segs.ss.sel.setWidth 32),
        (.pushDs, s.cpu.segs.ds.sel.setWidth 32)],
      ∃ t, exec p.1 s = .next t ∧ State.Pushes s.cpu.opWidth p.2 s t

/-- The pops read the top of the stack through SS, increment the stack pointer in its width and write
their destination last: a register, all nine flags, or a segment register through the resolver; the
stack pointer stays moved when a segment load fails (R237, R239, R241, R246 to R248, R281). -/
def Obligations.Pops : Prop :=
  ∀ (s : State), ∃ u v, v = s.topValue s.cpu.opWidth ∧ State.Pops s.cpu.opWidth s u ∧
    (∀ r : Reg, exec (.popReg r) s = .next (u.setReg s.cpu.opWidth r v)) ∧
    exec .popf s = .next (u.setFlags (Flags.ofImage v)) ∧
    exec .popEs s = .next (u.setSeg .es (v.setWidth 16)).2 ∧
    exec .popSs s = .next (u.setSeg .ss (v.setWidth 16)).2 ∧
    exec .popDs s = .next (u.setSeg .ds (v.setWidth 16)).2

/-- The string instructions: one element, or with a repeat prefix `C` elements with `C` counted down
after each, to zero; the source in the data segment or the override, the destination in ES, the index
registers stepped by the element size in the direction of `DF`, and nothing else changed (R187, R250
to R256). -/
def Obligations.StringInstructions : Prop :=
  ∀ (s : State) (w : Width), w = s.cpu.opWidth →
    ∀ p ∈ [(Instr.movsb, State.MovsElement .byte), (.movsw, State.MovsElement w),
        (.stosb, State.StosElement .byte), (.stosw, State.StosElement w),
        (.lodsb, State.LodsElement .byte), (.lodsw, State.LodsElement w)],
      ∃ t, exec p.1 s = .next t ∧ State.StringRun p.2 s t ∧
        ((s.cpu.mode.repe = true ∨ s.cpu.mode.repne = true) → t.reg s.cpu.adWidth .ecx = 0)

/-- `IN` writes the accumulator with what the port access gives and `OUT` makes the access with the
accumulator, at the immediate port or at `DX`; nothing else changes (R260, R262 to R269). -/
def Obligations.PortInstructions : Prop :=
  ∀ (s : State) (p : Byte) (w : Width) (a d : Word16), w = s.cpu.opWidth →
    a = p.setWidth 16 → d = s.cpu.regs.edx.setWidth 16 →
    (∀ q ∈ [(Instr.inAlImm p, Width.byte, a), (.inEaxImm p, w, a), (.inAlDx, .byte, d),
        (.inEaxDx, w, d)],
      exec q.1 s = .next ((s.ioRead q.2.1 q.2.2).2.setReg q.2.1 .eax (s.ioRead q.2.1 q.2.2).1)) ∧
    (∀ q ∈ [(Instr.outImmAl p, Width.byte, a), (.outImmEax p, w, a), (.outDxAl, .byte, d),
        (.outDxEax, w, d)],
      exec q.1 s = .next (s.ioWrite q.2.1 q.2.2 (s.reg q.2.1 .eax)))

/-- The sixteen conditional jumps: taken exactly on the condition of R282, relative to the next
instruction in the operand size, and nothing but `EIP` changes (R280, R282, R283). -/
def Obligations.ConditionalJumps : Prop :=
  ∀ (s : State) (d : Byte) (f : Flags), f = s.cpu.flags →
    ∀ p ∈ [(Instr.jo d, f.ovf = true), (.jno d, f.ovf = false), (.jb d, f.cf = true),
        (.jae d, f.cf = false), (.je d, f.zf = true), (.jne d, f.zf = false),
        (.jbe d, f.cf = true ∨ f.zf = true), (.ja d, f.cf = false ∧ f.zf = false),
        (.js d, f.sf = true), (.jns d, f.sf = false), (.jp d, f.pf = true), (.jnp d, f.pf = false),
        (.jl d, f.sf ≠ f.ovf), (.jge d, f.sf = f.ovf), (.jle d, f.zf = true ∨ f.sf ≠ f.ovf),
        (.jg d, f.zf = false ∧ f.sf = f.ovf)],
      (p.2 → exec p.1 s = .next (s.withEip (s.nearTarget (d.signExtend 32)))) ∧
      (¬p.2 → exec p.1 s = .next s)

/-- The loop instructions count `CX` or `ECX` down by the address size, without a flag, and jump while
it is not zero and, for `LOOPE` and `LOOPNE`, on `ZF`; `JCXZ` only tests it (R284 to R287). -/
def Obligations.Loops : Prop :=
  ∀ (s u : State) (d : Byte) (c : Word32), c = s.reg s.cpu.adWidth .ecx →
    u = s.setReg s.cpu.adWidth .ecx (c - 1) →
    (∀ p ∈ [(Instr.loopne d, s.cpu.flags.zf = false), (.loope d, s.cpu.flags.zf = true), (.loop d, True)],
      ((c ≠ 1 ∧ p.2) → exec p.1 s = .next (u.withEip (s.nearTarget (d.signExtend 32)))) ∧
      (¬(c ≠ 1 ∧ p.2) → exec p.1 s = .next u)) ∧
    exec (.jcxz d) s =
      .next (if c = 0 then s.withEip (s.nearTarget (d.signExtend 32)) else s)

/-- The near transfers: `JMP` and `CALL` are relative to the next instruction, `CALL` pushes its
address first, `RET` pops the target; nothing else changes (R288 to R291). -/
def Obligations.NearTransfers : Prop :=
  ∀ (s : State) (b : Byte) (d e : Word32),
    e = (if s.cpu.mode.data32 then d else (d.setWidth 16).signExtend 32) →
    exec (.jmpRel8 b) s = .next (s.withEip (s.nearTarget (b.signExtend 32))) ∧
    exec (.jmpRel d) s = .next (s.withEip (s.nearTarget e)) ∧
    (∃ u, State.Pushes s.cpu.opWidth (s.atOpSize s.cpu.eip) s u ∧
      exec (.callRel d) s = .next (u.withEip (s.nearTarget e))) ∧
    (∃ u, State.Pops s.cpu.opWidth s u ∧
      exec .ret s = .next (u.withEip (s.topValue s.cpu.opWidth)))

/-- The far transfers: `JMP` loads CS and then the offset, `CALL` pushes CS and the next address
first, `RETF` pops offset and selector; a failing load leaves CS and `EIP` and keeps the stack accesses
made (R281, R292 to R294). -/
def Obligations.FarTransfers : Prop :=
  ∀ (s : State) (off : Word32) (sel : Word16) (w : Width), w = s.cpu.opWidth →
    exec (.jmpFar off sel) s = .next (s.farTarget sel off) ∧
    (∃ u v, State.Pushes w (s.cpu.segs.cs.sel.setWidth 32) s u ∧
      State.Pushes w (s.atOpSize s.cpu.eip) u v ∧
      exec (.callFar off sel) s = .next (v.farTarget sel off)) ∧
    (∃ u v, State.Pops w s u ∧ State.Pops w u v ∧
      exec .retf s = .next (v.farTarget ((u.topValue w).setWidth 16) (s.topValue w)))

/-- The software interrupts record a soft interrupt of their vector, without restart or error code,
unless one is already pending, and change nothing else; `INTO` does so only with `OF` (R295 to R297,
R347). That the slot's error code field, for which R347 writes a dash, holds 0 is the model's choice
(notes/assumptions/13.md). -/
def Obligations.SoftwareInterrupts : Prop :=
  ∀ (s : State) (n : Byte),
    exec .int3 s = .next (s.withSlot (some (s.cpu.intr.getD ⟨3, .soft, false, false, 0⟩))) ∧
    exec (.int n) s = .next (s.withSlot (some (s.cpu.intr.getD ⟨n, .soft, false, false, 0⟩))) ∧
    (s.cpu.flags.ovf = true → exec .into s =
      .next (s.withSlot (some (s.cpu.intr.getD ⟨4, .soft, false, false, 0⟩)))) ∧
    (s.cpu.flags.ovf = false → exec .into s = .next s)

/-- `IRET` pops IP, CS and FLAGS at the operand size and, if the CS load succeeds, writes `EIP` and all
nine flags; if it fails they stay and the stack pointer stays moved (R281, R298). -/
def Obligations.InterruptReturn : Prop :=
  ∀ (s : State) (w : Width), w = s.cpu.opWidth →
    ∃ u v x, State.Pops w s u ∧ State.Pops w u v ∧ State.Pops w v x ∧
      ((x.setSeg .cs ((u.topValue w).setWidth 16)).1 = true →
        exec .iret s = .next ((x.farTarget ((u.topValue w).setWidth 16) (s.topValue w)).setFlags
          (Flags.ofImage (v.topValue w)))) ∧
      ((x.setSeg .cs ((u.topValue w).setWidth 16)).1 = false →
        exec .iret s = .next (x.setSeg .cs ((u.topValue w).setWidth 16)).2)

/-- `HLT` sets `HALTED`, `NOP` does nothing, and each flag instruction writes its one flag; nothing
else changes in any mode (R299 to R307). -/
def Obligations.HaltAndFlagInstructions : Prop :=
  ∀ (s : State) (f : Flags), f = s.cpu.flags →
    exec .hlt s = .next { s with cpu := { s.cpu with mode := { s.cpu.mode with halted := true } } } ∧
    exec .nop s = .next s ∧
    ∀ p ∈ [(Instr.cmc, { f with cf := !f.cf }), (.clc, { f with cf := false }),
        (.stc, { f with cf := true }), (.cli, { f with ifl := false }), (.sti, { f with ifl := true }),
        (.cld, { f with df := false }), (.std, { f with df := true })],
      exec p.1 s = .next { s with cpu := { s.cpu with flags := p.2 } }

/-- An external opcode byte runs the host's handler where one is installed and is refused where none
is (R149). The entries of the handler table, each a function of the opcode byte called with `pc` after
it: for a reference byte the reference handler, which fetches its operands from there and has its
instruction's meaning; for an external byte `ExtHandler`'s; where the host put its own function, that
one, which makes whatever fetches and accesses of R148 it makes; and a byte the host took out of the
reference set is `ExtHandler`'s like any other (R7, R42, R147 to R149). -/
def Obligations.ExternalBytes : Prop :=
  ∀ (s : State) (op : Byte),
    (s.host.extHandler = true → exec (.ext op) s = .next (s.handlerOps (Config.extHandler op s))) ∧
    (s.host.extHandler = false → exec (.ext op) s = .refused (.noHandler op)) ∧
    (s.host.standard op → ∀ r, r = State.fetchRun (decodeOperands s.sizes op) s →
      State.handler op s = exec r.1 r.2) ∧
    (s.host.standard op → isExternal op = true → State.handler op s = exec (.ext op) s) ∧
    (s.host.handlers.lookup op = some .own →
      State.handler op s = .next (s.handlerOps (Config.extHandler op s))) ∧
    (s.host.handlers.lookup op = some .external → State.handler op s = exec (.ext op) s)

/-! ## Interrupts -/

/-- A raise records the interrupt in an idle slot and nothing else; while one is pending it does
nothing, so the first one wins, and the host's `RaiseInterrupt` is the same operation (R342, R343,
R348). -/
def Obligations.FirstRaiseWins : Prop :=
  ∀ (s : State) (i : Intr),
    (s.cpu.intr = none → s.raise i = s.withSlot (some i)) ∧
    (∀ j, s.cpu.intr = some j → s.raise i = s) ∧
    s.hostOp (.raiseInterrupt i) = .next (s.raise i) ∧ ∀ j, (s.raise i).raise j = s.raise i

/-- Delivery in real mode, where no callback serves the vector: the vector is read, FLAGS, CS and IP
and then the error code are pushed, `IF` and `TF` are cleared, CS and IP are loaded and the slot is
idle; the return address is the saved one for a restartable interrupt, else the current one; whatever
`IF` was (R349, R350, R352 to R355). -/
def Obligations.RealModeDelivery : Prop :=
  ∀ (s : State) (i : Intr), s.cpu.intr = some i → s.cpu.cr[0].getLsbD 0 = false →
    i.nr ∉ s.host.callbacks → ∃ t, s.deliver = .next t ∧ State.EntersReal i s t

/-- Delivery in protected mode, where no callback serves the vector: refused without
`PmVectorLookup`; with it, a frame of 32 bits in 32-bit code and else of 16, the flags cleared, the
looked-up target loaded, and refused where that CS load fails (R350, R354 to R356). -/
def Obligations.ProtectedModeDelivery : Prop :=
  ∀ (s : State) (i : Intr) (w : Width), s.cpu.intr = some i → s.cpu.cr[0].getLsbD 0 = true →
    i.nr ∉ s.host.callbacks → w = (if s.cpu.mode.code32 then .dword else .word) →
    (s.host.pmLookup = false → s.deliver = .refused .pmDeliveryUnsupported) ∧
    (s.host.pmLookup = true →
      ∃ u1 u2 u3 u4 v sel off ret,
        ret = (if i.restart then (s.cpu.savedCs, s.cpu.savedEip) else (s.cpu.segs.cs.sel, s.cpu.eip)) ∧
        State.Pushes w s.cpu.flags.image s u1 ∧ State.Pushes w (ret.1.setWidth 32) u1 u2 ∧
        State.Pushes w (truncW w ret.2) u2 u3 ∧
        (if i.hasErr then State.Pushes .dword i.err u3 u4 else u4 = u3) ∧
        (sel, off) = Config.pmVectorLookup i.nr ∧
        v = u4.setFlags { s.cpu.flags with ifl := false, tf := false } ∧
        s.deliver = if (v.setSeg .cs sel).1 then
            .next (((v.setSeg .cs sel).2.withEip (truncW w off)).withSlot none)
          else .refused .pmDeliveryUnsupported)

/-- Delivery where a callback serves the vector: it runs first; if it says handled, the slot goes
idle and nothing more changes; if not, the built-in path runs on the state it left, the same path that
runs where no callback serves the vector (R351); what refuses one of its operations refuses the
delivery (notes/assumptions/16.md). With nothing pending step 6 does nothing (R150). -/
def Obligations.CallbackDelivery : Prop :=
  ∀ (s : State), (s.cpu.intr = none → s.deliver = .next s) ∧
    ∀ (i : Intr), s.cpu.intr = some i →
      (i.nr ∉ s.host.callbacks → s.deliver = s.deliverBuiltIn i) ∧
      (i.nr ∈ s.host.callbacks →
        s.deliver = andThen (s.hostOps (Config.callbackOps i s)) fun u =>
          if Config.callbackHandled i s then .next (u.withSlot none) else u.deliverBuiltIn i)

/-- A software interrupt or an illegal sub-encoding in real mode is taken within its own step: with the
slot idle, no hook, and the bytes fetched, the step ends at the vector with the frame pushed, the saved
address in it for an illegal sub-encoding and the next one for a software interrupt (R150, R295 to
R297, R344, R347, R358). The error code 0 in the slot, which no frame here holds, is
notes/assumptions/13.md's. -/
def Obligations.InterruptTakenInItsOwnStep : Prop :=
  ∀ (s : State) (bs : List Byte) (i : Instr) (n : Intr), s.running → s.host.noHooks →
    s.cpu.intr = none → s.cpu.cr[0].getLsbD 0 = false →
    s.beginIteration.CodeBytes bs → decode s.beginIteration.sizes bs = .ok (i, []) →
    ((i = .int3 ∧ n = ⟨3, .soft, false, false, 0⟩) ∨
      (∃ v, i = .int v ∧ n = ⟨v, .soft, false, false, 0⟩) ∨
      (i = .into ∧ s.cpu.flags.ovf = true ∧ n = ⟨4, .soft, false, false, 0⟩) ∨
      (isIllegal i = true ∧ n = ⟨6, .fault, true, false, 0⟩)) →
    ∃ u t, State.Fetches bs.length s.beginIteration u ∧ State.EntersReal n (u.withSlot (some n)) t ∧
      step s = .next t.endIteration

/-- An interrupt and its return, in real mode with a 16-bit stack pointer whose six frame bytes, those
at the stack's top lowered by 2, 4 and 6, may be read and written: `IRET` after the delivery of a soft
interrupt gives back CS, IP, all nine flags and the stack pointer (R354, R361). -/
def Obligations.ReturnUndoesDelivery : Prop :=
  ∀ (s t u : State) (n : Byte) (e : Word32), s.cpu.cr[0].getLsbD 0 = false → n ∉ s.host.callbacks →
    s.cpu.mode.stack32 = false → s.cpu.mode.data32 = false →
    s.cpu.intr = some ⟨n, .soft, false, false, e⟩ →
    (∀ k, k = 2 ∨ k = 4 ∨ k = 6 → ∀ a,
      a = (s.setReg .word .esp (s.reg .word .esp - BitVec.ofNat 32 k)).stackTop →
      (s.mem.attrAt a).r = true ∧ (s.mem.attrAt a).w = true ∧
      (s.mem.attrAt (a + 1)).r = true ∧ (s.mem.attrAt (a + 1)).w = true) →
    s.deliver = .next t → exec .iret t = .next u →
    u.cpu.segs.cs.sel = s.cpu.segs.cs.sel ∧ u.cpu.eip = (s.cpu.eip.setWidth 16).setWidth 32 ∧
    u.cpu.flags = s.cpu.flags ∧ u.cpu.regs = s.cpu.regs ∧ u.cpu.intr = none

/-! ## Rules of the whole machine -/

/-- No step without hooks writes a control, debug or table register, LDTR included, so the guest cannot
change the mode (R33, R34, R360). -/
def Obligations.StepKeepsSystemRegisters : Prop :=
  ∀ (s t : State), s.host.noHooks → step s = .next t →
    t.cpu.cr = s.cpu.cr ∧ t.cpu.dr = s.cpu.dr ∧ t.cpu.gdt = s.cpu.gdt ∧ t.cpu.idt = s.cpu.idt ∧
    t.cpu.ldtr = s.cpu.ldtr

/-- In real mode every segment base stays its selector shifted by four, and no limit and no access
right ever changes (R31, R201, R385); no hook is installed. -/
def Obligations.StepKeepsRealSegments : Prop :=
  ∀ (s t : State), s.RealSegments → s.host.noHooks → step s = .next t →
    t.RealSegments ∧ ∀ r, (t.cpu.segs.get r).limit = (s.cpu.segs.get r).limit ∧
      (t.cpu.segs.get r).acc = (s.cpu.segs.get r).acc

/-- The loop has no error exit in real mode: a run in progress steps on, unless it meets an external
byte with no handler installed or a prefix run without end (R14, R157). -/
def Obligations.RealModeStepIsSafe : Prop :=
  ∀ (s : State), s.running → s.host.noHooks → s.cpu.cr[0].getLsbD 0 = false →
    s.SafeStep ∨ (∃ op, isExternal op = true ∧ step s = .refused (.noHandler op)) ∨
      step s = .refused .prefixFuel
end

