-- ==== Sys2Proof/Laws/Coding.lean ====
section
/-! SUPPORT. Decoding after encoding for the parts of an instruction: fields, sized values, memory
operands, `r/m` operands. Laws/PerInstr.lean puts them together. -/

namespace Sys2Proof

/-! ## Fields -/

theorem topField_fieldByte (t : BitVec 2) (m l : BitVec 3) : topField (fieldByte t m l) = t := by
  revert t m l; decide

theorem midField_fieldByte (t : BitVec 2) (m l : BitVec 3) : midField (fieldByte t m l) = m := by
  revert t m l; decide

theorem lowField_fieldByte (t : BitVec 2) (m l : BitVec 3) : lowField (fieldByte t m l) = l := by
  revert t m l; decide

theorem Reg.ofBits_toBits (r : Reg) : Reg.ofBits r.toBits = r := by cases r <;> rfl

theorem SegReg.ofBits_toBits (r : SegReg) : SegReg.ofBits r.toBits = some r := by cases r <;> rfl

theorem Base16.ofBits_toBits (b : Base16) : Base16.ofBits b.toBits = b := by cases b <;> rfl

theorem join16_bytes (v : Word16) : join16 (v.extractLsb' 0 8) (v.extractLsb' 8 8) = v := by
  apply BitVec.eq_of_getLsbD_eq
  intro i hi
  simp only [join16, BitVec.getLsbD_append, BitVec.getLsbD_extractLsb']
  by_cases h : i < 8
  · simp [h]
  · simp only [h, decide_false]
    have : i - 8 < 8 := by omega
    simp [this, show 8 + (i - 8) = i by omega]

theorem join32_bytes (v : Word32) :
    join32 (v.extractLsb' 0 8) (v.extractLsb' 8 8) (v.extractLsb' 16 8) (v.extractLsb' 24 8) = v := by
  apply BitVec.eq_of_getLsbD_eq
  intro i hi
  simp only [join32, BitVec.getLsbD_append, BitVec.getLsbD_extractLsb']
  by_cases h1 : i < 8
  · simp [h1]
  · by_cases h2 : i < 16
    · simp [h1, show i - 8 < 8 by omega, show 8 + (i - 8) = i by omega]
    · by_cases h3 : i < 24
      · simp [h1, show ¬(i - 8 < 8) by omega, show i - 8 - 8 < 8 by omega,
          show 16 + (i - 8 - 8) = i by omega]
      · simp [h1, show ¬(i - 8 < 8) by omega, show ¬(i - 8 - 8 < 8) by omega,
          show i - 8 - 8 - 8 < 8 by omega, show 24 + (i - 8 - 8 - 8) = i by omega]

/-! ## Values -/

theorem runBytes_word (k : Word16 → Fetch) (v : Word16) (rest : List Byte) :
    (Fetch.word k).runBytes (bytes16 v ++ rest) = (k v).runBytes rest := by
  simp only [bytes16, List.cons_append, List.nil_append, Fetch.runBytes, join16_bytes]

theorem runBytes_dword (k : Word32 → Fetch) (v : Word32) (rest : List Byte) :
    (Fetch.dword k).runBytes (bytes32 v ++ rest) = (k v).runBytes rest := by
  simp only [bytes32, List.cons_append, List.nil_append, Fetch.runBytes, join32_bytes]

theorem runBytes_sized (wide : Bool) (k : Word32 → Fetch) (v : Word32) (rest : List Byte)
    (h : fitsSize wide v = true) :
    (Fetch.sized wide k).runBytes (sizedBytes wide v ++ rest) = (k v).runBytes rest := by
  cases wide with
  | true => exact runBytes_dword k v rest
  | false =>
    have hv : (v.setWidth 16).setWidth 32 = v := by
      have hl : v.toNat < 0x10000 := by simpa [fitsSize] using h
      apply BitVec.eq_of_toNat_eq
      simp only [BitVec.toNat_setWidth]
      omega
    show (Fetch.word fun x => k (x.setWidth 32)).runBytes (bytes16 (v.setWidth 16) ++ rest) = _
    rw [runBytes_word, hv]

theorem runBytes_disp16 (d : Disp16) (k : Disp16 → Fetch) (rest : List Byte) :
    (decodeDisp16 d.encode.1 k).runBytes (d.encode.2 ++ rest) = (k d).runBytes rest := by
  cases d with
  | d0 => rfl
  | d8 v => rfl
  | d16 v => exact runBytes_word _ v rest

theorem runBytes_disp32 (d : Disp32) (k : Disp32 → Fetch) (rest : List Byte) :
    (decodeDisp32 d.encode.1 k).runBytes (d.encode.2 ++ rest) = (k d).runBytes rest := by
  cases d with
  | d0 => rfl
  | d8 v => rfl
  | d32 v => exact runBytes_dword _ v rest

theorem Disp16.mod_ne_three (d : Disp16) : d.encode.1 ≠ 3#2 := by
  cases d <;> simp [Disp16.encode]

theorem Disp16.mod_zero {d : Disp16} (h : d.encode.1 = 0#2) : d = .d0 := by
  cases d <;> simp_all [Disp16.encode]

theorem Disp32.mod_ne_three (d : Disp32) : d.encode.1 ≠ 3#2 := by
  cases d <;> simp [Disp32.encode]

theorem Disp32.mod_zero {d : Disp32} (h : d.encode.1 = 0#2) : d = .d0 := by
  cases d <;> simp_all [Disp32.encode]

theorem Base16.toBits_six {b : Base16} (h : b.toBits = 6#3) : b = .bp := by
  cases b <;> first | rfl | exact absurd h (by decide)

theorem Reg.toBits_four {b : Reg} (h : b.toBits = 4#3) : b = .esp := by
  cases b <;> first | rfl | exact absurd h (by decide)

theorem Reg.toBits_five {b : Reg} (h : b.toBits = 5#3) : b = .ebp := by
  cases b <;> first | rfl | exact absurd h (by decide)

/-! ## Memory operands and `r/m` operands -/

/-- The encoding of a memory operand is a ModRM byte with `mod` not 3 and the given `reg`, and bytes
from which the resolver reads the operand back. -/
theorem Mem.decode_encode (sz : Sizes) (reg : BitVec 3) (m : Mem) (h : m.wellFormed sz.addr32 = true) :
    ∃ b tail, m.encode reg = b :: tail ∧ midField b = reg ∧ topField b ≠ 3#2 ∧
      ∀ k rest, (decodeMem sz (topField b) (lowField b) k).runBytes (tail ++ rest) =
        (k m).runBytes rest := by
  cases m with
  | abs16 v =>
    refine ⟨_, _, rfl, midField_fieldByte .., by rw [topField_fieldByte]; decide, fun k rest => ?_⟩
    have ha : sz.addr32 = false := by simpa [Mem.wellFormed] using h
    rw [topField_fieldByte, lowField_fieldByte]
    simp only [decodeMem, ha, decodeMem16]
    exact runBytes_word _ v rest
  | based16 b d =>
    have ha : sz.addr32 = false ∧ ¬(b = .bp ∧ d = .d0) := by
      simpa [Mem.wellFormed, imp_iff_not_or] using h
    refine ⟨_, _, rfl, midField_fieldByte .., ?_, fun k rest => ?_⟩
    · rw [topField_fieldByte]; exact d.mod_ne_three
    · rw [topField_fieldByte, lowField_fieldByte]
      have hn : ¬(d.encode.1 = 0#2 ∧ b.toBits = 6#3) := fun e =>
        ha.2 ⟨Base16.toBits_six e.2, Disp16.mod_zero e.1⟩
      simp only [decodeMem, ha.1, Bool.false_eq_true, if_false, decodeMem16, if_neg hn,
        Base16.ofBits_toBits]
      exact runBytes_disp16 d _ rest
  | abs32 v =>
    refine ⟨_, _, rfl, midField_fieldByte .., by rw [topField_fieldByte]; decide, fun k rest => ?_⟩
    have ha : sz.addr32 = true := by simpa [Mem.wellFormed] using h
    rw [topField_fieldByte, lowField_fieldByte]
    simp only [decodeMem, ha, decodeMem32]
    exact runBytes_dword _ v rest
  | based32 b d =>
    have ha : (sz.addr32 = true ∧ b ≠ .esp) ∧ ¬(b = .ebp ∧ d = .d0) := by
      simpa [Mem.wellFormed, imp_iff_not_or] using h
    refine ⟨_, _, rfl, midField_fieldByte .., ?_, fun k rest => ?_⟩
    · rw [topField_fieldByte]; exact d.mod_ne_three
    · rw [topField_fieldByte, lowField_fieldByte]
      have h4 : b.toBits ≠ 4#3 := fun e => ha.1.2 (Reg.toBits_four e)
      have hn : ¬(d.encode.1 = 0#2 ∧ b.toBits = 5#3) := fun e =>
        ha.2 ⟨Reg.toBits_five e.2, Disp32.mod_zero e.1⟩
      simp only [decodeMem, ha.1.1, if_true, decodeMem32, if_neg h4, if_neg hn, Reg.ofBits_toBits]
      exact runBytes_disp32 d _ rest
  | sibAbs s i v =>
    refine ⟨_, _, rfl, midField_fieldByte .., by rw [topField_fieldByte]; decide, fun k rest => ?_⟩
    have ha : sz.addr32 = true := by simpa [Mem.wellFormed] using h
    rw [topField_fieldByte, lowField_fieldByte]
    simp only [decodeMem, ha, if_true, decodeMem32, List.cons_append, Fetch.runBytes,
      topField_fieldByte, midField_fieldByte, lowField_fieldByte, Reg.ofBits_toBits, and_self]
    exact runBytes_dword _ v rest
  | sib s i b d =>
    have ha : sz.addr32 = true ∧ ¬(b = .ebp ∧ d = .d0) := by
      simpa [Mem.wellFormed, imp_iff_not_or] using h
    refine ⟨_, _, rfl, midField_fieldByte .., ?_, fun k rest => ?_⟩
    · rw [topField_fieldByte]; exact d.mod_ne_three
    · rw [topField_fieldByte, lowField_fieldByte]
      have hn : ¬(d.encode.1 = 0#2 ∧ b.toBits = 5#3) := fun e =>
        ha.2 ⟨Reg.toBits_five e.2, Disp32.mod_zero e.1⟩
      simp only [decodeMem, ha.1, if_true, decodeMem32, List.cons_append, Fetch.runBytes,
        topField_fieldByte, midField_fieldByte, lowField_fieldByte, Reg.ofBits_toBits, if_neg hn]
      exact runBytes_disp32 d _ rest

/-- The encoding of an `r/m` operand is a ModRM byte with the given `reg` and bytes from which the
resolver reads the operand back. -/
theorem Rm.decode_encode (sz : Sizes) (reg : BitVec 3) (x : Rm) (h : x.wellFormed sz.addr32 = true) :
    ∃ b tail, x.encode reg = b :: tail ∧ midField b = reg ∧
      ∀ k rest, (decodeRm sz (topField b) (lowField b) k).runBytes (tail ++ rest) =
        (k x).runBytes rest := by
  cases x with
  | reg r =>
    refine ⟨_, _, rfl, midField_fieldByte .., fun k rest => ?_⟩
    rw [topField_fieldByte, lowField_fieldByte]
    simp only [decodeRm, if_true, Reg.ofBits_toBits]
    rfl
  | mem m =>
    obtain ⟨b, tail, h1, h2, h3, h4⟩ := Mem.decode_encode sz reg m h
    refine ⟨b, tail, h1, h2, fun k rest => ?_⟩
    simp only [decodeRm, if_neg h3, h4]

/-- The `/r` forms. -/
theorem runBytes_modRM (sz : Sizes) (r : Reg) (x : Rm) (k : Reg → Rm → Fetch) (rest : List Byte)
    (h : x.wellFormed sz.addr32 = true) :
    (decodeModRM sz k).runBytes (x.encode r.toBits ++ rest) = (k r x).runBytes rest := by
  obtain ⟨b, tail, h1, h2, h3⟩ := Rm.decode_encode sz r.toBits x h
  rw [h1]
  show (decodeRm sz (topField b) (lowField b) fun x => k (Reg.ofBits (midField b)) x).runBytes
    (tail ++ rest) = _
  rw [h3, h2, Reg.ofBits_toBits]

/-- The far pointers. -/
theorem runBytes_ptr (sz : Sizes) (off : Word32) (sel : Word16) (k : Word32 → Word16 → Fetch)
    (rest : List Byte) (h : fitsSize sz.data32 off = true) :
    (decodePtr sz k).runBytes (sizedBytes sz.data32 off ++ bytes16 sel ++ rest) =
      (k off sel).runBytes rest := by
  rw [decodePtr, List.append_assoc, runBytes_sized _ _ _ _ h]
  exact runBytes_word _ sel rest

end Sys2Proof
end

