-- ==== Sys2Proof/Laws/Sparse.lean ====
section
/-! SUPPORT. What the sparse tables of Machine/Sparse.lean do: look-up after each update, and that every
update keeps the canonical form. -/

namespace Sys2Proof.Machine.Sparse

variable {α : Type}

theorem find?_put_self (l : List (Nat × α)) (a : Nat) (v : α) : find? (put l a v) a = some v := by
  induction l with
  | nil => simp [put, find?]
  | cons p t ih =>
    obtain ⟨k, w⟩ := p
    unfold put
    split
    · simp [find?]
    · split
      · simp [find?]
      · have h : k ≠ a := fun e => by omega
        simp [find?, h, ih]

theorem find?_put_other (l : List (Nat × α)) {a b : Nat} (v : α) (h : b ≠ a) :
    find? (put l a v) b = find? l b := by
  induction l with
  | nil => simp [put, find?, h.symm]
  | cons p t ih =>
    obtain ⟨k, w⟩ := p
    unfold put
    split
    · simp [find?, h.symm]
    · split
      · next e => subst e; simp [find?, h.symm]
      · simp only [find?, ih]

@[simp] theorem find?_put (l : List (Nat × α)) (a b : Nat) (v : α) :
    find? (put l a v) b = if b = a then some v else find? l b := by
  by_cases h : b = a
  · subst h; simp [find?_put_self]
  · simp [h, find?_put_other]

@[simp] theorem find?_drop (l : List (Nat × α)) (a b : Nat) :
    find? (drop l a) b = if b = a then none else find? l b := by
  induction l with
  | nil => simp [drop, find?]
  | cons p t ih =>
    obtain ⟨k, w⟩ := p
    simp only [drop] at ih ⊢
    by_cases hk : k = a
    · subst hk
      by_cases hb : b = k
      · subst hb; simpa using ih
      · have hb' : k ≠ b := fun e => hb e.symm
        simpa [find?, hb, hb'] using ih
    · by_cases hb : b = a
      · subst hb
        simpa [find?, hk] using ih
      · simp only [List.filter_cons, bne_iff_ne, ne_eq, hk, not_false_eq_true, if_true, find?, ih, hb,
          if_false]

/-- Look-up with the default after a store. -/
@[simp] theorem find?_store [DecidableEq α] (d : α) (l : List (Nat × α)) (a b : Nat) (v : α) :
    (find? (store d l a v) b).getD d = if b = a then v else (find? l b).getD d := by
  unfold store
  by_cases hv : v = d
  · by_cases hb : b = a <;> simp [hv, hb]
  · by_cases hb : b = a <;> simp [hv, hb]

theorem mem_put {l : List (Nat × α)} {a : Nat} {v : α} {p : Nat × α} (h : p ∈ put l a v) :
    p = (a, v) ∨ p ∈ l := by
  induction l with
  | nil => left; simpa [put] using h
  | cons q t ih =>
    obtain ⟨k, w⟩ := q
    unfold put at h
    split at h
    · simpa using h
    · split at h
      · rcases List.mem_cons.1 h with rfl | h
        · exact .inl rfl
        · exact .inr (List.mem_cons_of_mem _ h)
      · rcases List.mem_cons.1 h with rfl | h
        · exact .inr List.mem_cons_self
        · rcases ih h with rfl | h
          · exact .inl rfl
          · exact .inr (List.mem_cons_of_mem _ h)

theorem sorted_put {bound a : Nat} {l : List (Nat × α)} (v : α) (hl : Sorted bound l) (ha : a < bound) :
    Sorted bound (put l a v) := by
  obtain ⟨hp, hb⟩ := hl
  refine ⟨?_, fun p h => ?_⟩
  · induction l with
    | nil => simp [put]
    | cons q t ih =>
      obtain ⟨k, w⟩ := q
      have ht := List.pairwise_cons.1 hp
      unfold put
      split
      · next h =>
        refine List.pairwise_cons.2 ⟨fun p hpm => ?_, hp⟩
        rcases List.mem_cons.1 hpm with rfl | hpm
        · exact h
        · exact Nat.lt_trans h (ht.1 p hpm)
      · split
        · next h => subst h; exact List.pairwise_cons.2 ⟨ht.1, ht.2⟩
        · next h1 h2 =>
          refine List.pairwise_cons.2
            ⟨fun p hpm => ?_, ih ht.2 fun p h => hb p (List.mem_cons_of_mem _ h)⟩
          rcases mem_put hpm with rfl | hpm
          · show k < a; omega
          · exact ht.1 p hpm
  · rcases mem_put h with rfl | h
    · exact ha
    · exact hb p h

theorem sorted_drop {bound : Nat} {l : List (Nat × α)} (a : Nat) (hl : Sorted bound l) :
    Sorted bound (drop l a) :=
  ⟨hl.1.filter _, fun p h => hl.2 p (List.mem_filter.1 h).1⟩

theorem canonical_store [DecidableEq α] {bound a : Nat} {d : α} {l : List (Nat × α)} (v : α)
    (hl : Canonical bound d l) (ha : a < bound) : Canonical bound d (store d l a v) := by
  unfold store
  split
  · exact ⟨sorted_drop a hl.1, fun p h => hl.2 p (List.mem_filter.1 h).1⟩
  · next hv =>
    refine ⟨sorted_put v hl.1 ha, fun p h => ?_⟩
    rcases mem_put h with rfl | h
    · exact hv
    · exact hl.2 p h

end Sys2Proof.Machine.Sparse
end

