-- ==== Sys2Proof/Laws/State.lean ====
section
/-! SUPPORT. One lemma per field per named update of the state, true by `rfl`, so that no later proof
unfolds a record update; and what sequencing of outcomes does. -/

namespace Sys2Proof.Machine

/-! ### `andThen` -/

@[simp] theorem andThen_next (s : State) (f : State → Host.Outcome State Fault Refusal) :
    andThen (.next s) f = f s := rfl
@[simp] theorem andThen_refused (r : Refusal) (f : State → Host.Outcome State Fault Refusal) :
    andThen (.refused r) f = .refused r := rfl
@[simp] theorem andThen_fault (e : Fault) (f : State → Host.Outcome State Fault Refusal) :
    andThen (.fault e) f = .fault e := rfl

/-- A sequence answers a next state exactly where both its parts do. -/
theorem andThen_eq_next {o : Host.Outcome State Fault Refusal}
    {f : State → Host.Outcome State Fault Refusal} {t : State} :
    andThen o f = .next t ↔ ∃ s, o = .next s ∧ f s = .next t := by
  cases o <;> simp

/-- A sequence is refused where its first part is, or its second is. -/
theorem andThen_eq_refused {o : Host.Outcome State Fault Refusal}
    {f : State → Host.Outcome State Fault Refusal} {r : Refusal} :
    andThen o f = .refused r ↔ o = .refused r ∨ ∃ s, o = .next s ∧ f s = .refused r := by
  cases o <;> simp

namespace State

variable (s : State)

/-! ### `setReg` -/

@[simp] theorem setReg_regs (n : Width) (r : Reg) (v : Word32) : (s.setReg n r v).cpu.regs = s.cpu.regs.write n r v := rfl
@[simp] theorem setReg_eip (n : Width) (r : Reg) (v : Word32) : (s.setReg n r v).cpu.eip = s.cpu.eip := rfl
@[simp] theorem setReg_flags (n : Width) (r : Reg) (v : Word32) : (s.setReg n r v).cpu.flags = s.cpu.flags := rfl
@[simp] theorem setReg_segs (n : Width) (r : Reg) (v : Word32) : (s.setReg n r v).cpu.segs = s.cpu.segs := rfl
@[simp] theorem setReg_ldtr (n : Width) (r : Reg) (v : Word32) : (s.setReg n r v).cpu.ldtr = s.cpu.ldtr := rfl
@[simp] theorem setReg_cr (n : Width) (r : Reg) (v : Word32) : (s.setReg n r v).cpu.cr = s.cpu.cr := rfl
@[simp] theorem setReg_dr (n : Width) (r : Reg) (v : Word32) : (s.setReg n r v).cpu.dr = s.cpu.dr := rfl
@[simp] theorem setReg_gdt (n : Width) (r : Reg) (v : Word32) : (s.setReg n r v).cpu.gdt = s.cpu.gdt := rfl
@[simp] theorem setReg_idt (n : Width) (r : Reg) (v : Word32) : (s.setReg n r v).cpu.idt = s.cpu.idt := rfl
@[simp] theorem setReg_mode (n : Width) (r : Reg) (v : Word32) : (s.setReg n r v).cpu.mode = s.cpu.mode := rfl
@[simp] theorem setReg_segOvr (n : Width) (r : Reg) (v : Word32) : (s.setReg n r v).cpu.segOvr = s.cpu.segOvr := rfl
@[simp] theorem setReg_effSeg (n : Width) (r : Reg) (v : Word32) : (s.setReg n r v).cpu.effSeg = s.cpu.effSeg := rfl
@[simp] theorem setReg_intr (n : Width) (r : Reg) (v : Word32) : (s.setReg n r v).cpu.intr = s.cpu.intr := rfl
@[simp] theorem setReg_savedCs (n : Width) (r : Reg) (v : Word32) : (s.setReg n r v).cpu.savedCs = s.cpu.savedCs := rfl
@[simp] theorem setReg_savedEip (n : Width) (r : Reg) (v : Word32) : (s.setReg n r v).cpu.savedEip = s.cpu.savedEip := rfl
@[simp] theorem setReg_icount (n : Width) (r : Reg) (v : Word32) : (s.setReg n r v).cpu.icount = s.cpu.icount := rfl
@[simp] theorem setReg_mem (n : Width) (r : Reg) (v : Word32) : (s.setReg n r v).mem = s.mem := rfl
@[simp] theorem setReg_io (n : Width) (r : Reg) (v : Word32) : (s.setReg n r v).io = s.io := rfl
@[simp] theorem setReg_host (n : Width) (r : Reg) (v : Word32) : (s.setReg n r v).host = s.host := rfl
@[simp] theorem setReg_stop (n : Width) (r : Reg) (v : Word32) : (s.setReg n r v).stop = s.stop := rfl

/-! ### `setFlags` -/

@[simp] theorem setFlags_regs (f : Flags) : (s.setFlags f).cpu.regs = s.cpu.regs := rfl
@[simp] theorem setFlags_eip (f : Flags) : (s.setFlags f).cpu.eip = s.cpu.eip := rfl
@[simp] theorem setFlags_flags (f : Flags) : (s.setFlags f).cpu.flags = f := rfl
@[simp] theorem setFlags_segs (f : Flags) : (s.setFlags f).cpu.segs = s.cpu.segs := rfl
@[simp] theorem setFlags_ldtr (f : Flags) : (s.setFlags f).cpu.ldtr = s.cpu.ldtr := rfl
@[simp] theorem setFlags_cr (f : Flags) : (s.setFlags f).cpu.cr = s.cpu.cr := rfl
@[simp] theorem setFlags_dr (f : Flags) : (s.setFlags f).cpu.dr = s.cpu.dr := rfl
@[simp] theorem setFlags_gdt (f : Flags) : (s.setFlags f).cpu.gdt = s.cpu.gdt := rfl
@[simp] theorem setFlags_idt (f : Flags) : (s.setFlags f).cpu.idt = s.cpu.idt := rfl
@[simp] theorem setFlags_mode (f : Flags) : (s.setFlags f).cpu.mode = s.cpu.mode := rfl
@[simp] theorem setFlags_segOvr (f : Flags) : (s.setFlags f).cpu.segOvr = s.cpu.segOvr := rfl
@[simp] theorem setFlags_effSeg (f : Flags) : (s.setFlags f).cpu.effSeg = s.cpu.effSeg := rfl
@[simp] theorem setFlags_intr (f : Flags) : (s.setFlags f).cpu.intr = s.cpu.intr := rfl
@[simp] theorem setFlags_savedCs (f : Flags) : (s.setFlags f).cpu.savedCs = s.cpu.savedCs := rfl
@[simp] theorem setFlags_savedEip (f : Flags) : (s.setFlags f).cpu.savedEip = s.cpu.savedEip := rfl
@[simp] theorem setFlags_icount (f : Flags) : (s.setFlags f).cpu.icount = s.cpu.icount := rfl
@[simp] theorem setFlags_mem (f : Flags) : (s.setFlags f).mem = s.mem := rfl
@[simp] theorem setFlags_io (f : Flags) : (s.setFlags f).io = s.io := rfl
@[simp] theorem setFlags_host (f : Flags) : (s.setFlags f).host = s.host := rfl
@[simp] theorem setFlags_stop (f : Flags) : (s.setFlags f).stop = s.stop := rfl

/-! ### `haltIf` -/

@[simp] theorem haltIf_regs (b : Bool) : (s.haltIf b).cpu.regs = s.cpu.regs := rfl
@[simp] theorem haltIf_eip (b : Bool) : (s.haltIf b).cpu.eip = s.cpu.eip := rfl
@[simp] theorem haltIf_flags (b : Bool) : (s.haltIf b).cpu.flags = s.cpu.flags := rfl
@[simp] theorem haltIf_segs (b : Bool) : (s.haltIf b).cpu.segs = s.cpu.segs := rfl
@[simp] theorem haltIf_ldtr (b : Bool) : (s.haltIf b).cpu.ldtr = s.cpu.ldtr := rfl
@[simp] theorem haltIf_cr (b : Bool) : (s.haltIf b).cpu.cr = s.cpu.cr := rfl
@[simp] theorem haltIf_dr (b : Bool) : (s.haltIf b).cpu.dr = s.cpu.dr := rfl
@[simp] theorem haltIf_gdt (b : Bool) : (s.haltIf b).cpu.gdt = s.cpu.gdt := rfl
@[simp] theorem haltIf_idt (b : Bool) : (s.haltIf b).cpu.idt = s.cpu.idt := rfl
@[simp] theorem haltIf_mode (b : Bool) : (s.haltIf b).cpu.mode = { s.cpu.mode with halted := s.cpu.mode.halted || b } := rfl
@[simp] theorem haltIf_segOvr (b : Bool) : (s.haltIf b).cpu.segOvr = s.cpu.segOvr := rfl
@[simp] theorem haltIf_effSeg (b : Bool) : (s.haltIf b).cpu.effSeg = s.cpu.effSeg := rfl
@[simp] theorem haltIf_intr (b : Bool) : (s.haltIf b).cpu.intr = s.cpu.intr := rfl
@[simp] theorem haltIf_savedCs (b : Bool) : (s.haltIf b).cpu.savedCs = s.cpu.savedCs := rfl
@[simp] theorem haltIf_savedEip (b : Bool) : (s.haltIf b).cpu.savedEip = s.cpu.savedEip := rfl
@[simp] theorem haltIf_icount (b : Bool) : (s.haltIf b).cpu.icount = s.cpu.icount := rfl
@[simp] theorem haltIf_mem (b : Bool) : (s.haltIf b).mem = s.mem := rfl
@[simp] theorem haltIf_io (b : Bool) : (s.haltIf b).io = s.io := rfl
@[simp] theorem haltIf_host (b : Bool) : (s.haltIf b).host = s.host := rfl
@[simp] theorem haltIf_stop (b : Bool) : (s.haltIf b).stop = s.stop := rfl

/-! ### `setMem` -/

@[simp] theorem setMem_regs (m : Memory) : (s.setMem m).cpu.regs = s.cpu.regs := rfl
@[simp] theorem setMem_eip (m : Memory) : (s.setMem m).cpu.eip = s.cpu.eip := rfl
@[simp] theorem setMem_flags (m : Memory) : (s.setMem m).cpu.flags = s.cpu.flags := rfl
@[simp] theorem setMem_segs (m : Memory) : (s.setMem m).cpu.segs = s.cpu.segs := rfl
@[simp] theorem setMem_ldtr (m : Memory) : (s.setMem m).cpu.ldtr = s.cpu.ldtr := rfl
@[simp] theorem setMem_cr (m : Memory) : (s.setMem m).cpu.cr = s.cpu.cr := rfl
@[simp] theorem setMem_dr (m : Memory) : (s.setMem m).cpu.dr = s.cpu.dr := rfl
@[simp] theorem setMem_gdt (m : Memory) : (s.setMem m).cpu.gdt = s.cpu.gdt := rfl
@[simp] theorem setMem_idt (m : Memory) : (s.setMem m).cpu.idt = s.cpu.idt := rfl
@[simp] theorem setMem_mode (m : Memory) : (s.setMem m).cpu.mode = s.cpu.mode := rfl
@[simp] theorem setMem_segOvr (m : Memory) : (s.setMem m).cpu.segOvr = s.cpu.segOvr := rfl
@[simp] theorem setMem_effSeg (m : Memory) : (s.setMem m).cpu.effSeg = s.cpu.effSeg := rfl
@[simp] theorem setMem_intr (m : Memory) : (s.setMem m).cpu.intr = s.cpu.intr := rfl
@[simp] theorem setMem_savedCs (m : Memory) : (s.setMem m).cpu.savedCs = s.cpu.savedCs := rfl
@[simp] theorem setMem_savedEip (m : Memory) : (s.setMem m).cpu.savedEip = s.cpu.savedEip := rfl
@[simp] theorem setMem_icount (m : Memory) : (s.setMem m).cpu.icount = s.cpu.icount := rfl
@[simp] theorem setMem_mem (m : Memory) : (s.setMem m).mem = m := rfl
@[simp] theorem setMem_io (m : Memory) : (s.setMem m).io = s.io := rfl
@[simp] theorem setMem_host (m : Memory) : (s.setMem m).host = s.host := rfl
@[simp] theorem setMem_stop (m : Memory) : (s.setMem m).stop = s.stop := rfl
@[simp] theorem setMem_cpu (m : Memory) : (s.setMem m).cpu = s.cpu := rfl

/-! ### `setSegReg` -/

@[simp] theorem setSegReg_regs (r : SegReg) (g : Seg) : (s.setSegReg r g).cpu.regs = s.cpu.regs := rfl
@[simp] theorem setSegReg_eip (r : SegReg) (g : Seg) : (s.setSegReg r g).cpu.eip = s.cpu.eip := rfl
@[simp] theorem setSegReg_flags (r : SegReg) (g : Seg) : (s.setSegReg r g).cpu.flags = s.cpu.flags := rfl
@[simp] theorem setSegReg_segs (r : SegReg) (g : Seg) : (s.setSegReg r g).cpu.segs = s.cpu.segs.set r g := rfl
@[simp] theorem setSegReg_ldtr (r : SegReg) (g : Seg) : (s.setSegReg r g).cpu.ldtr = s.cpu.ldtr := rfl
@[simp] theorem setSegReg_cr (r : SegReg) (g : Seg) : (s.setSegReg r g).cpu.cr = s.cpu.cr := rfl
@[simp] theorem setSegReg_dr (r : SegReg) (g : Seg) : (s.setSegReg r g).cpu.dr = s.cpu.dr := rfl
@[simp] theorem setSegReg_gdt (r : SegReg) (g : Seg) : (s.setSegReg r g).cpu.gdt = s.cpu.gdt := rfl
@[simp] theorem setSegReg_idt (r : SegReg) (g : Seg) : (s.setSegReg r g).cpu.idt = s.cpu.idt := rfl
@[simp] theorem setSegReg_mode (r : SegReg) (g : Seg) : (s.setSegReg r g).cpu.mode = s.cpu.mode := rfl
@[simp] theorem setSegReg_segOvr (r : SegReg) (g : Seg) : (s.setSegReg r g).cpu.segOvr = s.cpu.segOvr := rfl
@[simp] theorem setSegReg_effSeg (r : SegReg) (g : Seg) : (s.setSegReg r g).cpu.effSeg = s.cpu.effSeg := rfl
@[simp] theorem setSegReg_intr (r : SegReg) (g : Seg) : (s.setSegReg r g).cpu.intr = s.cpu.intr := rfl
@[simp] theorem setSegReg_savedCs (r : SegReg) (g : Seg) : (s.setSegReg r g).cpu.savedCs = s.cpu.savedCs := rfl
@[simp] theorem setSegReg_savedEip (r : SegReg) (g : Seg) : (s.setSegReg r g).cpu.savedEip = s.cpu.savedEip := rfl
@[simp] theorem setSegReg_icount (r : SegReg) (g : Seg) : (s.setSegReg r g).cpu.icount = s.cpu.icount := rfl
@[simp] theorem setSegReg_mem (r : SegReg) (g : Seg) : (s.setSegReg r g).mem = s.mem := rfl
@[simp] theorem setSegReg_io (r : SegReg) (g : Seg) : (s.setSegReg r g).io = s.io := rfl
@[simp] theorem setSegReg_host (r : SegReg) (g : Seg) : (s.setSegReg r g).host = s.host := rfl
@[simp] theorem setSegReg_stop (r : SegReg) (g : Seg) : (s.setSegReg r g).stop = s.stop := rfl

/-! ### `recordSeg` -/

@[simp] theorem recordSeg_regs (r : SegReg) : (s.recordSeg r).cpu.regs = s.cpu.regs := rfl
@[simp] theorem recordSeg_eip (r : SegReg) : (s.recordSeg r).cpu.eip = s.cpu.eip := rfl
@[simp] theorem recordSeg_flags (r : SegReg) : (s.recordSeg r).cpu.flags = s.cpu.flags := rfl
@[simp] theorem recordSeg_segs (r : SegReg) : (s.recordSeg r).cpu.segs = s.cpu.segs := rfl
@[simp] theorem recordSeg_ldtr (r : SegReg) : (s.recordSeg r).cpu.ldtr = s.cpu.ldtr := rfl
@[simp] theorem recordSeg_cr (r : SegReg) : (s.recordSeg r).cpu.cr = s.cpu.cr := rfl
@[simp] theorem recordSeg_dr (r : SegReg) : (s.recordSeg r).cpu.dr = s.cpu.dr := rfl
@[simp] theorem recordSeg_gdt (r : SegReg) : (s.recordSeg r).cpu.gdt = s.cpu.gdt := rfl
@[simp] theorem recordSeg_idt (r : SegReg) : (s.recordSeg r).cpu.idt = s.cpu.idt := rfl
@[simp] theorem recordSeg_mode (r : SegReg) : (s.recordSeg r).cpu.mode = s.cpu.mode := rfl
@[simp] theorem recordSeg_segOvr (r : SegReg) : (s.recordSeg r).cpu.segOvr = s.cpu.segOvr := rfl
@[simp] theorem recordSeg_effSeg (r : SegReg) : (s.recordSeg r).cpu.effSeg = some r := rfl
@[simp] theorem recordSeg_intr (r : SegReg) : (s.recordSeg r).cpu.intr = s.cpu.intr := rfl
@[simp] theorem recordSeg_savedCs (r : SegReg) : (s.recordSeg r).cpu.savedCs = s.cpu.savedCs := rfl
@[simp] theorem recordSeg_savedEip (r : SegReg) : (s.recordSeg r).cpu.savedEip = s.cpu.savedEip := rfl
@[simp] theorem recordSeg_icount (r : SegReg) : (s.recordSeg r).cpu.icount = s.cpu.icount := rfl
@[simp] theorem recordSeg_mem (r : SegReg) : (s.recordSeg r).mem = s.mem := rfl
@[simp] theorem recordSeg_io (r : SegReg) : (s.recordSeg r).io = s.io := rfl
@[simp] theorem recordSeg_host (r : SegReg) : (s.recordSeg r).host = s.host := rfl
@[simp] theorem recordSeg_stop (r : SegReg) : (s.recordSeg r).stop = s.stop := rfl

/-! ### `idleSlot` -/

@[simp] theorem idleSlot_regs : (s.idleSlot).cpu.regs = s.cpu.regs := rfl
@[simp] theorem idleSlot_eip : (s.idleSlot).cpu.eip = s.cpu.eip := rfl
@[simp] theorem idleSlot_flags : (s.idleSlot).cpu.flags = s.cpu.flags := rfl
@[simp] theorem idleSlot_segs : (s.idleSlot).cpu.segs = s.cpu.segs := rfl
@[simp] theorem idleSlot_ldtr : (s.idleSlot).cpu.ldtr = s.cpu.ldtr := rfl
@[simp] theorem idleSlot_cr : (s.idleSlot).cpu.cr = s.cpu.cr := rfl
@[simp] theorem idleSlot_dr : (s.idleSlot).cpu.dr = s.cpu.dr := rfl
@[simp] theorem idleSlot_gdt : (s.idleSlot).cpu.gdt = s.cpu.gdt := rfl
@[simp] theorem idleSlot_idt : (s.idleSlot).cpu.idt = s.cpu.idt := rfl
@[simp] theorem idleSlot_mode : (s.idleSlot).cpu.mode = s.cpu.mode := rfl
@[simp] theorem idleSlot_segOvr : (s.idleSlot).cpu.segOvr = s.cpu.segOvr := rfl
@[simp] theorem idleSlot_effSeg : (s.idleSlot).cpu.effSeg = s.cpu.effSeg := rfl
@[simp] theorem idleSlot_intr : (s.idleSlot).cpu.intr = none := rfl
@[simp] theorem idleSlot_savedCs : (s.idleSlot).cpu.savedCs = s.cpu.savedCs := rfl
@[simp] theorem idleSlot_savedEip : (s.idleSlot).cpu.savedEip = s.cpu.savedEip := rfl
@[simp] theorem idleSlot_icount : (s.idleSlot).cpu.icount = s.cpu.icount := rfl
@[simp] theorem idleSlot_mem : (s.idleSlot).mem = s.mem := rfl
@[simp] theorem idleSlot_io : (s.idleSlot).io = s.io := rfl
@[simp] theorem idleSlot_host : (s.idleSlot).host = s.host := rfl
@[simp] theorem idleSlot_stop : (s.idleSlot).stop = s.stop := rfl

/-! ### `jumpTo` -/

@[simp] theorem jumpTo_regs (n : Width) (t : Word32) : (s.jumpTo n t).cpu.regs = s.cpu.regs := rfl
@[simp] theorem jumpTo_eip (n : Width) (t : Word32) : (s.jumpTo n t).cpu.eip = truncW n t := rfl
@[simp] theorem jumpTo_flags (n : Width) (t : Word32) : (s.jumpTo n t).cpu.flags = s.cpu.flags := rfl
@[simp] theorem jumpTo_segs (n : Width) (t : Word32) : (s.jumpTo n t).cpu.segs = s.cpu.segs := rfl
@[simp] theorem jumpTo_ldtr (n : Width) (t : Word32) : (s.jumpTo n t).cpu.ldtr = s.cpu.ldtr := rfl
@[simp] theorem jumpTo_cr (n : Width) (t : Word32) : (s.jumpTo n t).cpu.cr = s.cpu.cr := rfl
@[simp] theorem jumpTo_dr (n : Width) (t : Word32) : (s.jumpTo n t).cpu.dr = s.cpu.dr := rfl
@[simp] theorem jumpTo_gdt (n : Width) (t : Word32) : (s.jumpTo n t).cpu.gdt = s.cpu.gdt := rfl
@[simp] theorem jumpTo_idt (n : Width) (t : Word32) : (s.jumpTo n t).cpu.idt = s.cpu.idt := rfl
@[simp] theorem jumpTo_mode (n : Width) (t : Word32) : (s.jumpTo n t).cpu.mode = s.cpu.mode := rfl
@[simp] theorem jumpTo_segOvr (n : Width) (t : Word32) : (s.jumpTo n t).cpu.segOvr = s.cpu.segOvr := rfl
@[simp] theorem jumpTo_effSeg (n : Width) (t : Word32) : (s.jumpTo n t).cpu.effSeg = s.cpu.effSeg := rfl
@[simp] theorem jumpTo_intr (n : Width) (t : Word32) : (s.jumpTo n t).cpu.intr = s.cpu.intr := rfl
@[simp] theorem jumpTo_savedCs (n : Width) (t : Word32) : (s.jumpTo n t).cpu.savedCs = s.cpu.savedCs := rfl
@[simp] theorem jumpTo_savedEip (n : Width) (t : Word32) : (s.jumpTo n t).cpu.savedEip = s.cpu.savedEip := rfl
@[simp] theorem jumpTo_icount (n : Width) (t : Word32) : (s.jumpTo n t).cpu.icount = s.cpu.icount := rfl
@[simp] theorem jumpTo_mem (n : Width) (t : Word32) : (s.jumpTo n t).mem = s.mem := rfl
@[simp] theorem jumpTo_io (n : Width) (t : Word32) : (s.jumpTo n t).io = s.io := rfl
@[simp] theorem jumpTo_host (n : Width) (t : Word32) : (s.jumpTo n t).host = s.host := rfl
@[simp] theorem jumpTo_stop (n : Width) (t : Word32) : (s.jumpTo n t).stop = s.stop := rfl

/-! ### `jumpRel` -/

@[simp] theorem jumpRel_regs (d : Word32) : (s.jumpRel d).cpu.regs = s.cpu.regs := rfl
@[simp] theorem jumpRel_eip (d : Word32) : (s.jumpRel d).cpu.eip = truncW s.cpu.opWidth (s.cpu.eip + d) := rfl
@[simp] theorem jumpRel_flags (d : Word32) : (s.jumpRel d).cpu.flags = s.cpu.flags := rfl
@[simp] theorem jumpRel_segs (d : Word32) : (s.jumpRel d).cpu.segs = s.cpu.segs := rfl
@[simp] theorem jumpRel_ldtr (d : Word32) : (s.jumpRel d).cpu.ldtr = s.cpu.ldtr := rfl
@[simp] theorem jumpRel_cr (d : Word32) : (s.jumpRel d).cpu.cr = s.cpu.cr := rfl
@[simp] theorem jumpRel_dr (d : Word32) : (s.jumpRel d).cpu.dr = s.cpu.dr := rfl
@[simp] theorem jumpRel_gdt (d : Word32) : (s.jumpRel d).cpu.gdt = s.cpu.gdt := rfl
@[simp] theorem jumpRel_idt (d : Word32) : (s.jumpRel d).cpu.idt = s.cpu.idt := rfl
@[simp] theorem jumpRel_mode (d : Word32) : (s.jumpRel d).cpu.mode = s.cpu.mode := rfl
@[simp] theorem jumpRel_segOvr (d : Word32) : (s.jumpRel d).cpu.segOvr = s.cpu.segOvr := rfl
@[simp] theorem jumpRel_effSeg (d : Word32) : (s.jumpRel d).cpu.effSeg = s.cpu.effSeg := rfl
@[simp] theorem jumpRel_intr (d : Word32) : (s.jumpRel d).cpu.intr = s.cpu.intr := rfl
@[simp] theorem jumpRel_savedCs (d : Word32) : (s.jumpRel d).cpu.savedCs = s.cpu.savedCs := rfl
@[simp] theorem jumpRel_savedEip (d : Word32) : (s.jumpRel d).cpu.savedEip = s.cpu.savedEip := rfl
@[simp] theorem jumpRel_icount (d : Word32) : (s.jumpRel d).cpu.icount = s.cpu.icount := rfl
@[simp] theorem jumpRel_mem (d : Word32) : (s.jumpRel d).mem = s.mem := rfl
@[simp] theorem jumpRel_io (d : Word32) : (s.jumpRel d).io = s.io := rfl
@[simp] theorem jumpRel_host (d : Word32) : (s.jumpRel d).host = s.host := rfl
@[simp] theorem jumpRel_stop (d : Word32) : (s.jumpRel d).stop = s.stop := rfl

/-! ### `countInstr` -/

@[simp] theorem countInstr_regs : (s.countInstr).cpu.regs = s.cpu.regs := rfl
@[simp] theorem countInstr_eip : (s.countInstr).cpu.eip = s.cpu.eip := rfl
@[simp] theorem countInstr_flags : (s.countInstr).cpu.flags = s.cpu.flags := rfl
@[simp] theorem countInstr_segs : (s.countInstr).cpu.segs = s.cpu.segs := rfl
@[simp] theorem countInstr_ldtr : (s.countInstr).cpu.ldtr = s.cpu.ldtr := rfl
@[simp] theorem countInstr_cr : (s.countInstr).cpu.cr = s.cpu.cr := rfl
@[simp] theorem countInstr_dr : (s.countInstr).cpu.dr = s.cpu.dr := rfl
@[simp] theorem countInstr_gdt : (s.countInstr).cpu.gdt = s.cpu.gdt := rfl
@[simp] theorem countInstr_idt : (s.countInstr).cpu.idt = s.cpu.idt := rfl
@[simp] theorem countInstr_mode : (s.countInstr).cpu.mode = s.cpu.mode := rfl
@[simp] theorem countInstr_segOvr : (s.countInstr).cpu.segOvr = s.cpu.segOvr := rfl
@[simp] theorem countInstr_effSeg : (s.countInstr).cpu.effSeg = s.cpu.effSeg := rfl
@[simp] theorem countInstr_intr : (s.countInstr).cpu.intr = s.cpu.intr := rfl
@[simp] theorem countInstr_savedCs : (s.countInstr).cpu.savedCs = s.cpu.savedCs := rfl
@[simp] theorem countInstr_savedEip : (s.countInstr).cpu.savedEip = s.cpu.savedEip := rfl
@[simp] theorem countInstr_icount : (s.countInstr).cpu.icount = s.cpu.icount + 1#64 := rfl
@[simp] theorem countInstr_mem : (s.countInstr).mem = s.mem := rfl
@[simp] theorem countInstr_io : (s.countInstr).io = s.io := rfl
@[simp] theorem countInstr_host : (s.countInstr).host = s.host := rfl
@[simp] theorem countInstr_stop : (s.countInstr).stop = s.stop := rfl

/-! ### `setCpu` -/

@[simp] theorem setCpu_cpu (c : Cpu) : (s.setCpu c).cpu = c := rfl
@[simp] theorem setCpu_mem (c : Cpu) : (s.setCpu c).mem = s.mem := rfl
@[simp] theorem setCpu_io (c : Cpu) : (s.setCpu c).io = s.io := rfl
@[simp] theorem setCpu_host (c : Cpu) : (s.setCpu c).host = s.host := rfl
@[simp] theorem setCpu_stop (c : Cpu) : (s.setCpu c).stop = s.stop := rfl

/-! ### `raise` -/

theorem raise_idle {s : State} (h : s.cpu.intr = none) (i : Intr) :
    s.raise i = { s with cpu := { s.cpu with intr := some i } } := by
  simp [raise, h]

theorem raise_pending {s : State} {j : Intr} (h : s.cpu.intr = some j) (i : Intr) : s.raise i = s := by
  simp [raise, h]

/-- All a raise can do: the slot of an idle machine. -/
theorem raise_eq (i : Intr) :
    s.raise i = { s with cpu := { s.cpu with intr := some (s.cpu.intr.getD i) } } := by
  rcases s with ⟨c, m, io, h, st⟩
  rcases c with ⟨⟩
  rename_i intr _ _ _
  cases intr <;> rfl

@[simp] theorem raise_regs (i : Intr) : (s.raise i).cpu.regs = s.cpu.regs := by rw [raise_eq]
@[simp] theorem raise_eip (i : Intr) : (s.raise i).cpu.eip = s.cpu.eip := by rw [raise_eq]
@[simp] theorem raise_flags (i : Intr) : (s.raise i).cpu.flags = s.cpu.flags := by rw [raise_eq]
@[simp] theorem raise_segs (i : Intr) : (s.raise i).cpu.segs = s.cpu.segs := by rw [raise_eq]
@[simp] theorem raise_ldtr (i : Intr) : (s.raise i).cpu.ldtr = s.cpu.ldtr := by rw [raise_eq]
@[simp] theorem raise_cr (i : Intr) : (s.raise i).cpu.cr = s.cpu.cr := by rw [raise_eq]
@[simp] theorem raise_dr (i : Intr) : (s.raise i).cpu.dr = s.cpu.dr := by rw [raise_eq]
@[simp] theorem raise_gdt (i : Intr) : (s.raise i).cpu.gdt = s.cpu.gdt := by rw [raise_eq]
@[simp] theorem raise_idt (i : Intr) : (s.raise i).cpu.idt = s.cpu.idt := by rw [raise_eq]
@[simp] theorem raise_mode (i : Intr) : (s.raise i).cpu.mode = s.cpu.mode := by rw [raise_eq]
@[simp] theorem raise_segOvr (i : Intr) : (s.raise i).cpu.segOvr = s.cpu.segOvr := by rw [raise_eq]
@[simp] theorem raise_effSeg (i : Intr) : (s.raise i).cpu.effSeg = s.cpu.effSeg := by rw [raise_eq]
@[simp] theorem raise_intr (i : Intr) : (s.raise i).cpu.intr = some (s.cpu.intr.getD i) := by rw [raise_eq]
@[simp] theorem raise_savedCs (i : Intr) : (s.raise i).cpu.savedCs = s.cpu.savedCs := by rw [raise_eq]
@[simp] theorem raise_savedEip (i : Intr) : (s.raise i).cpu.savedEip = s.cpu.savedEip := by rw [raise_eq]
@[simp] theorem raise_icount (i : Intr) : (s.raise i).cpu.icount = s.cpu.icount := by rw [raise_eq]
@[simp] theorem raise_mem (i : Intr) : (s.raise i).mem = s.mem := by rw [raise_eq]
@[simp] theorem raise_io (i : Intr) : (s.raise i).io = s.io := by rw [raise_eq]
@[simp] theorem raise_host (i : Intr) : (s.raise i).host = s.host := by rw [raise_eq]
@[simp] theorem raise_stop (i : Intr) : (s.raise i).stop = s.stop := by rw [raise_eq]

/-! ### Steps 1 and 2 -/

@[simp] theorem beginIteration_mem : s.beginIteration.mem = s.mem := rfl
@[simp] theorem beginIteration_io : s.beginIteration.io = s.io := rfl
@[simp] theorem beginIteration_host : s.beginIteration.host = s.host := rfl
@[simp] theorem beginIteration_stop : s.beginIteration.stop = s.stop := rfl
@[simp] theorem beginIteration_halted : s.beginIteration.cpu.mode.halted = s.cpu.mode.halted := rfl

end State

end Sys2Proof.Machine
end

