-- ==== Sys2Proof/Laws/Memory.lean ====
section
/-! SUPPORT. What the memory operations do: one lemma per access for its value, its effect and the
canonical form. -/

namespace Sys2Proof.Machine

/-! ## The seven bits -/

namespace ByteAttr

theorem GuardedBy.refl (t : ByteAttr) : t.GuardedBy t := ⟨rfl, rfl, rfl, id, id, id, id⟩

theorem GuardedBy.trans {a b c : ByteAttr} (h : a.GuardedBy b) (g : b.GuardedBy c) : a.GuardedBy c := by
  obtain ⟨h1, h2, h3, h4, h5, h6, h7⟩ := h
  obtain ⟨g1, g2, g3, g4, g5, g6, g7⟩ := g
  exact ⟨g1.trans h1, g2.trans h2, g3.trans h3, g4 ∘ h4, g5 ∘ h5, g6 ∘ h6, g7 ∘ h7⟩

end ByteAttr

theorem Access.guarded_after (k : Access) (t : ByteAttr) : t.GuardedBy (k.after t) := by
  rcases t with ⟨r, w, x, wr, ww, wx, i⟩
  cases k <;> cases r <;> cases x <;> cases i <;> simp [Access.after, Access.permits, Access.mark,
    ByteAttr.GuardedBy]

/-! ## Single bytes -/

namespace Memory

variable (m : Memory)

theorem toNat_eq_iff (a b : Word32) : a.toNat = b.toNat ↔ a = b :=
  ⟨BitVec.eq_of_toNat_eq, fun h => h ▸ rfl⟩

@[simp] theorem setAttr_defaultPerm (a : Word32) (t : ByteAttr) :
    (m.setAttr a t).defaultPerm = m.defaultPerm := rfl
@[simp] theorem setAttr_invalid (a : Word32) (t : ByteAttr) : (m.setAttr a t).invalid = m.invalid := rfl
@[simp] theorem setByte_defaultPerm (a : Word32) (v : Byte) :
    (m.setByte a v).defaultPerm = m.defaultPerm := rfl
@[simp] theorem setByte_invalid (a : Word32) (v : Byte) : (m.setByte a v).invalid = m.invalid := rfl
@[simp] theorem flagInvalid_defaultPerm (a : Word32) (t : ByteAttr) :
    (m.flagInvalid a t).defaultPerm = m.defaultPerm := rfl
@[simp] theorem flagInvalid_invalid (a : Word32) (t : ByteAttr) :
    (m.flagInvalid a t).invalid = true := rfl

@[simp] theorem attrAt_setAttr (a b : Word32) (t : ByteAttr) :
    (m.setAttr a t).attrAt b = if b = a then t else m.attrAt b := by
  simp only [attrAt, setAttr, Sparse.find?_put, toNat_eq_iff]
  split <;> rfl

/-- A byte is touched once its bits are written, and no other byte is. -/
@[simp] theorem touched_setAttr (a b : Word32) (t : ByteAttr) :
    (m.setAttr a t).touched b = (decide (b = a) || m.touched b) := by
  simp only [touched, setAttr, Sparse.find?_put, toNat_eq_iff]
  by_cases h : b = a <;> simp [h]

@[simp] theorem touched_setByte (a b : Word32) (v : Byte) :
    (m.setByte a v).touched b = m.touched b := rfl

/-- The host's write of a byte's data keeps every bit (R43). -/
@[simp] theorem attrAt_hostSetByte (a b : Word32) (v : Byte) :
    (m.hostSetByte a v).attrAt b = m.attrAt b := by
  rw [hostSetByte, attrAt_setAttr]
  by_cases h : b = a
  · rw [if_pos h, h]
  · rw [if_neg h]; rfl

/-- A touched byte keeps its bits under a new default permission, an untouched one follows it (R61). -/
@[simp] theorem attrAt_setDefaultPerm (p : Perm) (b : Word32) :
    (m.setDefaultPerm p).attrAt b = if m.touched b then m.attrAt b else ByteAttr.untouched p := by
  unfold attrAt touched setDefaultPerm
  cases Sparse.find? m.attrs b.toNat <;> rfl

@[simp] theorem byteAt_setDefaultPerm (p : Perm) (b : Word32) :
    (m.setDefaultPerm p).byteAt b = m.byteAt b := rfl

@[simp] theorem byteAt_setAttr (a b : Word32) (t : ByteAttr) :
    (m.setAttr a t).byteAt b = m.byteAt b := rfl

@[simp] theorem attrAt_setByte (a b : Word32) (v : Byte) :
    (m.setByte a v).attrAt b = m.attrAt b := rfl

@[simp] theorem byteAt_setByte (a b : Word32) (v : Byte) :
    (m.setByte a v).byteAt b = if b = a then v else m.byteAt b := by
  simp only [byteAt, setByte, Sparse.find?_put, toNat_eq_iff]
  split <;> rfl

@[simp] theorem attrAt_flagInvalid (a b : Word32) (t : ByteAttr) :
    (m.flagInvalid a t).attrAt b = if b = a then { t with invalid := true } else m.attrAt b :=
  attrAt_setAttr m a b _

@[simp] theorem byteAt_flagInvalid (a b : Word32) (t : ByteAttr) :
    (m.flagInvalid a t).byteAt b = m.byteAt b := rfl

variable {m}

theorem wf_setAttr (h : m.wf) (a : Word32) (t : ByteAttr) : (m.setAttr a t).wf :=
  ⟨h.1, Sparse.sorted_put t h.2 a.isLt⟩

theorem wf_setByte (h : m.wf) (a : Word32) (v : Byte) : (m.setByte a v).wf :=
  ⟨Sparse.sorted_put v h.1 a.isLt, h.2⟩

theorem wf_flagInvalid (h : m.wf) (a : Word32) (t : ByteAttr) : (m.flagInvalid a t).wf :=
  wf_setAttr h a _

variable (m)

/-! ## One access of read shape -/

@[simp] theorem byteAt_touch (k : Access) (a b : Word32) : (m.touch k a).byteAt b = m.byteAt b := by
  unfold touch
  split
  · split <;> simp
  · simp

@[simp] theorem defaultPerm_touch (k : Access) (a : Word32) :
    (m.touch k a).defaultPerm = m.defaultPerm := by
  unfold touch
  split
  · split <;> simp
  · simp

theorem attrAt_touch (k : Access) (a b : Word32) :
    (m.touch k a).attrAt b = if b = a then k.after (m.attrAt a) else m.attrAt b := by
  unfold touch Access.after
  by_cases hb : b = a
  · subst hb
    cases hp : k.permits (m.attrAt b)
    · simp
    · cases hw : (m.attrAt b).wasW
      · simp
      · cases k <;> simp [Access.mark]
  · split
    · split <;> simp [hb]
    · simp [hb]

theorem invalid_touch (k : Access) (a : Word32) :
    (m.touch k a).invalid = true ↔
      m.invalid = true ∨ k.permits (m.attrAt a) = false ∨ (m.attrAt a).wasW = false := by
  unfold touch
  cases hp : k.permits (m.attrAt a)
  · simp
  · cases hw : (m.attrAt a).wasW <;> simp

variable {m} in
theorem wf_touch (h : m.wf) (k : Access) (a : Word32) : (m.touch k a).wf := by
  unfold touch
  split
  · split
    · exact wf_setAttr h _ _
    · exact wf_flagInvalid h _ _
  · exact wf_flagInvalid h _ _

theorem invalid_touch_of (k : Access) (a : Word32) (h : m.invalid = true) :
    (m.touch k a).invalid = true := (invalid_touch m k a).2 (.inl h)

/-- An access changes no permission. -/
theorem permits_after (j k : Access) (t : ByteAttr) : j.permits (k.after t) = j.permits t := by
  rcases t with ⟨r, w, x, wr, ww, wx, i⟩
  cases j <;> cases k <;> cases r <;> cases x <;> rfl

theorem wasW_after (k : Access) (t : ByteAttr) : (k.after t).wasW = t.wasW := by
  rcases t with ⟨r, w, x, wr, ww, wx, i⟩
  cases k <;> cases r <;> cases x <;> rfl

/-- An access changes no value that an access returns. -/
@[simp] theorem valueAt_touch (j k : Access) (a b : Word32) :
    (m.touch k a).valueAt j b = m.valueAt j b := by
  simp only [valueAt, byteAt_touch, attrAt_touch]
  by_cases h : b = a
  · subst h; simp [permits_after]
  · simp [h]

@[simp] theorem valueLE_touch (j k : Access) (a b : Word32) (n : Nat) :
    (m.touch k a).valueLE j b n = m.valueLE j b n := by
  induction n generalizing b with
  | zero => rfl
  | succ n ih => simp [valueLE, ih]

/-! ## Spans -/

theorem inSpan_zero (a b : Word32) : ¬inSpan a 0 b := Nat.not_lt_zero _

theorem inSpan_succ (a b : Word32) {n : Nat} (hn : n < 4294967296) :
    inSpan a (n + 1) b ↔ b = a ∨ inSpan (a + 1#32) n b := by
  unfold inSpan
  constructor
  · intro h
    by_cases hb : b = a
    · exact .inl hb
    · right
      have : b - a ≠ 0#32 := fun e => hb (by bv_omega)
      bv_omega
  · rintro (rfl | h)
    · simp
    · bv_omega

theorem not_inSpan_self_succ (a : Word32) {n : Nat} (hn : n < 4294967296) : ¬inSpan (a + 1#32) n a := by
  unfold inSpan
  bv_omega

/-- Byte `b` of a span is its `i`-th byte. -/
theorem inSpan_iff (a b : Word32) (n : Nat) :
    inSpan a n b ↔ ∃ i, i < n ∧ b = a + BitVec.ofNat 32 i := by
  constructor
  · intro h
    refine ⟨(b - a).toNat, h, ?_⟩
    simp only [BitVec.ofNat_toNat, BitVec.setWidth_eq]
    bv_omega
  · rintro ⟨i, hi, rfl⟩
    have : a + BitVec.ofNat 32 i - a = BitVec.ofNat 32 i := by bv_omega
    simp only [inSpan, this, BitVec.toNat_ofNat]
    exact Nat.lt_of_le_of_lt (Nat.mod_le _ _) hi

/-! ## Accesses of several bytes -/

/-- The value of an access is that of its bytes before it (R66). -/
theorem readLE_fst (k : Access) (m : Memory) (a : Word32) (n : Nat) :
    (m.readLE k a n).1 = m.valueLE k a n := by
  induction n generalizing m a with
  | zero => rfl
  | succ n ih => simp [readLE, valueLE, ih]

theorem AccessedBy.refl (k : Access) (a : Word32) (m : Memory) : m.AccessedBy k a 0 m :=
  ⟨fun _ => rfl, fun b => by rw [if_neg (inSpan_zero a b)],
    by simp, rfl⟩

/-- All an access can do (R63, R64, R66). -/
theorem readLE_accessedBy (k : Access) (m : Memory) (a : Word32) {n : Nat} (hn : n < 4294967296) :
    m.AccessedBy k a n (m.readLE k a n).2 := by
  induction n generalizing m a with
  | zero => exact AccessedBy.refl k a m
  | succ n ih =>
    have hn' : n < 4294967296 := by omega
    obtain ⟨h1, h2, h3, h4⟩ := ih (m.touch k a) (a + 1#32) hn'
    have hself := not_inSpan_self_succ a hn'
    refine ⟨fun b => by simp [readLE, h1], fun b => ?_, ?_, by simp [readLE, h4]⟩
    · simp only [readLE, h2, attrAt_touch, inSpan_succ a b hn']
      by_cases hb : b = a
      · subst hb; rw [if_neg hself, if_pos rfl, if_pos (Or.inl rfl)]
      · simp [hb]
    · simp only [readLE, h3, invalid_touch, inSpan_succ a _ hn']
      constructor
      · rintro ((h | h | h) | ⟨b, hs, hb⟩)
        · exact .inl h
        · exact .inr ⟨a, .inl rfl, .inl h⟩
        · exact .inr ⟨a, .inl rfl, .inr h⟩
        · have hne : b ≠ a := fun e => hself (e ▸ hs)
          rw [attrAt_touch, if_neg hne] at hb
          exact .inr ⟨b, .inr hs, hb⟩
      · rintro (h | ⟨b, hs, hb⟩)
        · exact .inl (.inl h)
        · by_cases hne : b = a
          · subst hne; exact .inl (.inr hb)
          · refine .inr ⟨b, hs.resolve_left hne, ?_⟩
            rw [attrAt_touch, if_neg hne]; exact hb

variable {m} in
theorem wf_readLE (h : m.wf) (k : Access) (a : Word32) (n : Nat) : (m.readLE k a n).2.wf := by
  induction n generalizing m a with
  | zero => exact h
  | succ n ih => exact ih (wf_touch h k a) (a + 1#32)

theorem valueLE_lt (k : Access) (a : Word32) (n : Nat) : m.valueLE k a n < 256 ^ n := by
  induction n generalizing a with
  | zero => simp [valueLE]
  | succ n ih =>
    have h1 := ih (a + 1#32)
    have h2 := (m.valueAt k a).isLt
    simp only [valueLE, Nat.pow_succ]
    omega

/-! ## Writes -/

@[simp] theorem writeByte_defaultPerm (a : Word32) (v : Byte) :
    (m.writeByte a v).2.defaultPerm = m.defaultPerm := by
  unfold writeByte; split <;> rfl

theorem writeByte_fst (a : Word32) (v : Byte) : (m.writeByte a v).1 = !(m.attrAt a).w := by
  unfold writeByte; split <;> simp_all

theorem byteAt_writeByte (a b : Word32) (v : Byte) :
    (m.writeByte a v).2.byteAt b = if b = a ∧ (m.attrAt a).w then v else m.byteAt b := by
  unfold writeByte
  split
  · simp_all
  · simp_all

theorem attrAt_writeByte (a b : Word32) (v : Byte) :
    (m.writeByte a v).2.attrAt b =
      if b = a then
        if (m.attrAt a).w then { m.attrAt a with wasW := true }
        else { m.attrAt a with invalid := true }
      else m.attrAt b := by
  unfold writeByte
  split <;> simp

theorem invalid_writeByte (a : Word32) (v : Byte) :
    (m.writeByte a v).2.invalid = true ↔ m.invalid = true ∨ (m.attrAt a).w = false := by
  unfold writeByte
  split <;> simp_all

variable {m} in
theorem wf_writeByte (h : m.wf) (a : Word32) (v : Byte) : (m.writeByte a v).2.wf := by
  unfold writeByte
  split
  · exact wf_setAttr (wf_setByte h a v) _ _
  · exact wf_flagInvalid h _ _

variable {m} in
theorem wf_writeLE (h : m.wf) (a : Word32) (n v : Nat) : (m.writeLE a n v).2.wf := by
  induction n generalizing m a v with
  | zero => exact h
  | succ n ih => exact ih (wf_writeByte h a _) (a + 1#32) _

variable {m} in
theorem wf_seed (h : m.wf) (a : Word32) (v : Byte) : (m.seed a v).wf :=
  wf_setAttr (wf_setByte h a v) _ _

variable {m} in
theorem wf_hostSetByte (h : m.wf) (a : Word32) (v : Byte) : (m.hostSetByte a v).wf :=
  wf_setAttr (wf_setByte h a v) _ _

variable {m} in
theorem wf_setDefaultPerm (h : m.wf) (p : Perm) : (m.setDefaultPerm p).wf := h

variable {m} in
theorem wf_setPermRange (h : m.wf) (p : Perm) (a : Word32) (n : Nat) : (m.setPermRange p a n).wf := by
  induction n generalizing m a with
  | zero => exact h
  | succ n ih => exact ih (wf_setAttr h a _) (a + 1#32)

variable {m} in
theorem wf_seedBytes (h : m.wf) (a : Word32) (bs : List Byte) : (m.seedBytes a bs).wf := by
  induction bs generalizing m a with
  | nil => exact h
  | cons b bs ih => exact ih (wf_seed h a b) (a + 1#32)

theorem w_writeByte (a b : Word32) (v : Byte) :
    ((m.writeByte a v).2.attrAt b).w = (m.attrAt b).w := by
  rw [attrAt_writeByte]
  by_cases h : b = a
  · subst h; simp only [if_true]; split <;> rfl
  · simp [h]

theorem deniesWrite_succ (m : Memory) (a : Word32) (n : Nat) :
    m.deniesWrite a (n + 1) = (!(m.attrAt a).w || m.deniesWrite (a + 1#32) n) := by
  simp only [deniesWrite, List.range_succ_eq_map, List.any_cons, List.any_map]
  congr 1
  · simp
  · congr 1
    funext i
    simp only [Function.comp]
    congr 3
    bv_omega

theorem deniesWrite_writeByte (a b : Word32) (v : Byte) (n : Nat) :
    (m.writeByte a v).2.deniesWrite b n = m.deniesWrite b n := by
  simp [deniesWrite, w_writeByte]

/-- A write is denied when one of its bytes is (R65, R66). -/
theorem writeLE_fst (m : Memory) (a : Word32) (n v : Nat) :
    (m.writeLE a n v).1 = m.deniesWrite a n := by
  induction n generalizing m a v with
  | zero => rfl
  | succ n ih =>
    rw [deniesWrite_succ]
    simp [writeLE, ih, writeByte_fst, deniesWrite_writeByte]

/-- All a write can do (R65, R66). -/
theorem writeLE_writtenBy (m : Memory) (a : Word32) {n : Nat} (v : Nat) (hn : n < 4294967296) :
    m.WrittenBy a n v (m.writeLE a n v).2 := by
  induction n generalizing m a v with
  | zero => exact ⟨fun i hi => absurd hi (Nat.not_lt_zero i), fun _ _ => ⟨rfl, rfl⟩, by simp [writeLE, deniesWrite], rfl⟩
  | succ n ih =>
    have hn' : n < 4294967296 := by omega
    obtain ⟨h1, h2, h3, h4⟩ := ih (m.writeByte a (BitVec.ofNat 8 v)).2 (a + 1#32) (v / 256) hn'
    have hself := not_inSpan_self_succ a hn'
    refine ⟨fun i hi => ?_, fun b hb => ?_, ?_, by simp [writeLE, h4]⟩
    · cases i with
      | zero =>
        have ha := h2 a hself
        simp only [writeLE, BitVec.add_zero, Nat.pow_zero, Nat.div_one, ha]
        rw [byteAt_writeByte, attrAt_writeByte]
        simp
      | succ i =>
        have hi' : i < n := by omega
        have e : a + BitVec.ofNat 32 (i + 1) = a + 1#32 + BitVec.ofNat 32 i := by bv_omega
        have hne : a + 1#32 + BitVec.ofNat 32 i ≠ a := by bv_omega
        have := h1 i hi'
        simp only [writeLE, e]
        rw [byteAt_writeByte, attrAt_writeByte] at this
        simp only [hne, false_and, if_false] at this
        rw [Nat.div_div_eq_div_mul, ← Nat.pow_succ'] at this
        exact this
    · rw [inSpan_succ a b hn'] at hb
      obtain ⟨hne, hs⟩ := not_or.1 hb
      have := h2 b hs
      rw [byteAt_writeByte, attrAt_writeByte] at this
      simpa [writeLE, hne] using this
    · simp only [writeLE, h3, invalid_writeByte, deniesWrite_writeByte, deniesWrite_succ]
      simp [or_assoc]

/-! ## What accesses and writes keep of the protection -/

theorem GuardedBy.refl : m.GuardedBy m := ⟨fun _ => .refl _, fun _ _ => rfl, id, rfl⟩

theorem GuardedBy.trans {a b c : Memory} (h : a.GuardedBy b) (g : b.GuardedBy c) : a.GuardedBy c :=
  ⟨fun x => (h.1 x).trans (g.1 x),
    fun x hx => (g.2.1 x ((h.1 x).2.1.trans hx)).trans (h.2.1 x hx), g.2.2.1 ∘ h.2.2.1,
    g.2.2.2.trans h.2.2.2⟩

theorem guarded_touch (k : Access) (a : Word32) : m.GuardedBy (m.touch k a) := by
  refine ⟨fun x => ?_, fun x _ => byteAt_touch m k a x, invalid_touch_of m k a, defaultPerm_touch m k a⟩
  rw [attrAt_touch]
  by_cases h : x = a
  · subst h; rw [if_pos rfl]; exact Access.guarded_after k _
  · rw [if_neg h]; exact .refl _

/-- An access takes back no permission and no mark (R63, R64, R66). -/
theorem guarded_readLE (k : Access) (a : Word32) (n : Nat) : m.GuardedBy (m.readLE k a n).2 := by
  induction n generalizing m a with
  | zero => exact .refl m
  | succ n ih => exact (guarded_touch m k a).trans (ih _ _)

theorem guarded_writeByte (a : Word32) (v : Byte) : m.GuardedBy (m.writeByte a v).2 := by
  refine ⟨fun x => ?_, fun x hx => ?_, fun h => (invalid_writeByte m a v).2 (.inl h),
    writeByte_defaultPerm m a v⟩
  · rw [attrAt_writeByte]
    by_cases h : x = a
    · subst h
      rw [if_pos rfl]
      split
      · exact ⟨rfl, rfl, rfl, id, fun _ => rfl, id, id⟩
      · exact ⟨rfl, rfl, rfl, id, id, id, fun _ => rfl⟩
    · rw [if_neg h]; exact .refl _
  · rw [byteAt_writeByte]
    by_cases h : x = a
    · subst h; simp [hx]
    · simp [h]

/-- A write takes back no permission and no mark and stores to no byte without `W` (R65, R66). -/
theorem guarded_writeLE (a : Word32) (n v : Nat) : m.GuardedBy (m.writeLE a n v).2 := by
  induction n generalizing m a v with
  | zero => exact .refl m
  | succ n ih => exact (guarded_writeByte m a _).trans (ih _ _ _)

end Memory

end Sys2Proof.Machine
end

