-- ==== Sys2Proof/Laws/Registers.lean ====
section
/-! SUPPORT. Register files and views: read after write, and what a write leaves. -/

namespace Sys2Proof.Machine

@[simp] theorem Regs.get_set_self (g : Regs) (r : Reg) (v : Word32) : (g.set r v).get r = v := by
  cases r <;> rfl

theorem Regs.get_set_other (g : Regs) {r q : Reg} (v : Word32) (h : q ≠ r) :
    (g.set r v).get q = g.get q := by
  cases r <;> cases q <;> first | rfl | exact absurd rfl h

theorem Regs.get_set (g : Regs) (r q : Reg) (v : Word32) :
    (g.set r v).get q = if q = r then v else g.get q := by
  by_cases h : q = r
  · subst h; simp
  · simp [h, Regs.get_set_other]

@[simp] theorem Segs.get_set_self (g : Segs) (r : SegReg) (v : Seg) : (g.set r v).get r = v := by
  cases r <;> rfl

theorem Segs.get_set_other (g : Segs) {r q : SegReg} (v : Seg) (h : q ≠ r) :
    (g.set r v).get q = g.get q := by
  cases r <;> cases q <;> first | rfl | exact absurd rfl h

@[simp] theorem truncW_dword (v : Word32) : truncW .dword v = v := by
  simp only [truncW, mask]
  exact BitVec.and_allOnes

@[simp] theorem truncW_truncW (n : Width) (v : Word32) : truncW n (truncW n v) = truncW n v := by
  simp [truncW, BitVec.and_assoc]

theorem truncW_toNat (n : Width) (v : Word32) : (truncW n v).toNat = v.toNat % 2 ^ (8 * n.bytes) := by
  cases n with
  | byte => simpa [truncW, mask, Width.bytes] using Nat.and_two_pow_sub_one_eq_mod v.toNat 8
  | word => simpa [truncW, mask, Width.bytes] using Nat.and_two_pow_sub_one_eq_mod v.toNat 16
  | dword =>
    have := v.isLt
    simp only [truncW_dword, Width.bytes]
    omega

/-- A write of a view changes no register but the view's own. -/
theorem Regs.write_get_other (g : Regs) (n : Width) {r q : Reg} (v : Word32) (h : q ≠ viewHome n r) :
    (g.write n r v).get q = g.get q := by
  cases n with
  | byte =>
    simp only [Regs.write]
    split <;> exact Regs.get_set_other _ _ h
  | word => exact Regs.get_set_other _ _ h
  | dword => exact Regs.get_set_other _ _ h

/-- A write of a view leaves the other bits of its register (R22). -/
theorem Regs.write_outside (g : Regs) (n : Width) (r : Reg) (v : Word32) :
    (g.write n r v).get (viewHome n r) &&& ~~~viewMask n r =
      g.get (viewHome n r) &&& ~~~viewMask n r := by
  cases n with
  | byte =>
    simp only [Regs.write, viewHome, viewMask]
    split <;>
    · rw [Regs.get_set_self]
      ext i hi
      simp only [merge, BitVec.getElem_and, BitVec.getElem_or, BitVec.getElem_not]
      cases h1 : (g.get (slot8 r).1)[i] <;> simp_all
  | word =>
    simp only [Regs.write, viewHome, viewMask, Regs.get_set_self]
    ext i hi
    simp only [merge, BitVec.getElem_and, BitVec.getElem_or, BitVec.getElem_not]
    cases h1 : (g.get r)[i] <;> simp_all
  | dword => simp [viewMask]

/-- Read after write of the same view: the low bits of the value (R22). -/
theorem Regs.read_write_self (g : Regs) (n : Width) (r : Reg) (v : Word32) :
    (g.write n r v).read n r = truncW n v := by
  cases n with
  | byte =>
    simp only [Regs.write, Regs.read]
    split
    · next h =>
      simp only [Regs.get_set_self]
      apply BitVec.eq_of_getLsbD_eq
      intro i hi
      simp only [truncW, mask, merge, BitVec.getLsbD_and, BitVec.getLsbD_ushiftRight,
        BitVec.getLsbD_or, BitVec.getLsbD_not, BitVec.getLsbD_shiftLeft]
      have key : ∀ i, i < 32 → BitVec.getLsbD (0x000000FF#32) i = true →
          BitVec.getLsbD (0x0000FF00#32) (8 + i) = true ∧ 8 + i < 32 := by decide
      rcases hm : BitVec.getLsbD (0x000000FF#32) i with _ | _
      · simp
      · obtain ⟨h1, h2⟩ := key i hi hm
        rw [h1]
        simp [h2]
    · next h =>
      simp only [Regs.get_set_self]
      apply BitVec.eq_of_getLsbD_eq
      intro i hi
      simp only [truncW, mask, merge, BitVec.getLsbD_and, BitVec.getLsbD_or, BitVec.getLsbD_not]
      cases BitVec.getLsbD (0x000000FF#32) i <;> simp
  | word =>
    simp only [Regs.write, Regs.read, Regs.get_set_self]
    apply BitVec.eq_of_getLsbD_eq
    intro i hi
    simp only [truncW, mask, merge, BitVec.getLsbD_and, BitVec.getLsbD_or, BitVec.getLsbD_not]
    cases BitVec.getLsbD (0x0000FFFF#32) i <;> simp
  | dword => simp [Regs.write, Regs.read]

/-- A write of a whole-number view leaves every other register's views of that kind. -/
theorem Regs.read_write_other (g : Regs) {n m : Width} {r q : Reg} (v : Word32)
    (h : viewHome m q ≠ viewHome n r) : (g.write n r v).read m q = g.read m q := by
  cases m with
  | byte =>
    simp only [Regs.read]
    rw [Regs.write_get_other g n v (by simpa [viewHome] using h)]
  | word =>
    simp only [Regs.read]
    rw [Regs.write_get_other g n v (by simpa [viewHome] using h)]
  | dword =>
    simp only [Regs.read]
    rw [Regs.write_get_other g n v (by simpa [viewHome] using h)]

end Sys2Proof.Machine
end

