-- ==== Sys2Proof/Laws/Ops.lean ====
section
/-! SUPPORT. All that the operations over memory, the stack, operands and the fetch can do, as the
relations of Safety.lean: what a caller cites in place of unfolding them. -/

theorem Sys2Proof.Width.bytes_lt (n : Sys2Proof.Width) : n.bytes < 4294967296 := by cases n <;> decide

namespace Sys2Proof.Machine

namespace State

/-! ## Data accesses -/

/-- The value of a data read. -/
theorem memRead_fst (n : Width) (a : Word32) (s : State) : (s.memRead n a).1 = s.valueAt n a := by
  simp only [memRead, valueAt, Memory.readLE_fst]

/-- All a data read does. -/
theorem memRead_readsAt (n : Width) (a : Word32) (s : State) : ReadsAt n a s (s.memRead n a).2 :=
  ⟨_, Memory.readLE_accessedBy .read s.mem a n.bytes_lt, rfl⟩

/-- All a data write does. -/
theorem memWrite_writesAt (n : Width) (a v : Word32) (s : State) : WritesAt n a v s (s.memWrite n a v) :=
  ⟨_, Memory.writeLE_writtenBy s.mem a v.toNat n.bytes_lt, by simp only [memWrite, Memory.writeLE_fst]⟩

/-- A read changes no value. -/
theorem valueAt_memRead (n m : Width) (a b : Word32) (s : State) :
    (s.memRead n a).2.valueAt m b = s.valueAt m b := by
  have h : ∀ (l k : Nat) (m : Memory) (a b : Word32),
      (m.readLE .read a l).2.valueLE .read b k = m.valueLE .read b k := by
    intro l
    induction l with
    | zero => intros; rfl
    | succ l ih => intro k m a b; simp [Memory.readLE, ih]
  simp only [valueAt, memRead, setMem, h]

/-- `t` is a read of `s`: only the memory object differs. -/
theorem ReadsAt.eq_setMem {n : Width} {a : Word32} {s t : State} (h : ReadsAt n a s t) :
    t = s.setMem t.mem := by
  obtain ⟨m', _, rfl⟩ := h; rfl

/-! ## The stack -/

/-- All a push does. -/
theorem push_pushes (n : Width) (v : Word32) (s : State) : Pushes n v s (s.push n v) :=
  ⟨_, rfl, memWrite_writesAt n _ v _⟩

/-- The value of a pop. -/
theorem pop_fst (n : Width) (s : State) : (s.pop n).1 = s.topValue n := memRead_fst n _ s

/-- All a pop does. -/
theorem pop_pops (n : Width) (s : State) : Pops n s (s.pop n).2 :=
  ⟨_, memRead_readsAt n _ s, rfl⟩

/-! ## Operands -/

theorem recordSeg_eq (s : State) (m : Mem) : s.recordSeg (m.seg s.cpu.segOvr) = s.segRecorded m := rfl

/-- All a store to an operand does. -/
theorem storeRm_storesRm (n : Width) (x : Rm) (v : Word32) (s : State) :
    StoresRm n x v s (s.storeRm n x v) := by
  cases x with
  | reg r => rfl
  | mem m => exact memWrite_writesAt n _ v _

/-- The value of a load from an operand. -/
theorem loadRm_fst (n : Width) (x : Rm) (s : State) : (s.loadRm n x).1 = s.rmValue n x := by
  cases x with
  | reg r => rfl
  | mem m => exact memRead_fst n _ _

/-- All a load from an operand does. -/
theorem loadRm_loadsRm (n : Width) (x : Rm) (s : State) : LoadsRm n x s (s.loadRm n x).2 := by
  cases x with
  | reg r => rfl
  | mem m => exact memRead_readsAt n _ _

/-! ## Fetch -/

/-- The value of a fetch. -/
theorem fetch_fst (n : Nat) (s : State) :
    (s.fetch n).1 = s.mem.valueLE s.fetchAccess (s.cpu.segs.cs.base + s.cpu.pc) n := by
  simp only [fetch, Memory.readLE_fst]

/-- All a fetch does. -/
theorem fetch_fetches {n : Nat} (hn : n < 4294967296) (s : State) : Fetches n s (s.fetch n).2 :=
  ⟨_, Memory.readLE_accessedBy s.fetchAccess s.mem _ hn, rfl⟩

end State

end Sys2Proof.Machine
end

