-- ==== Sys2Proof/Laws/Control.lean ====
section
/-! SUPPORT. Widths, transfers, counts and strings: the operations of the control and string families in
the terms of Safety.lean. -/

namespace Sys2Proof.Machine

/-! ## Widths -/

/-- A write of the low 16 bits takes only the low 16 bits of the value. -/
theorem merge_word (old v : Word32) :
    merge 0x0000FFFF#32 old ((v.setWidth 16).setWidth 32) = merge 0x0000FFFF#32 old v := by
  ext i hi
  simp only [merge, BitVec.getElem_or, BitVec.getElem_and, BitVec.getElem_not]
  have h16 : (0x0000FFFF#32)[i] = decide (i < 16) := by
    revert i; decide
  rw [h16]
  by_cases h : i < 16 <;> simp [h, BitVec.getLsbD_eq_getElem hi]

theorem truncW_word (v : Word32) : truncW .word v = (v.setWidth 16).setWidth 32 := by
  apply BitVec.eq_of_toNat_eq
  rw [truncW_toNat]
  simp only [BitVec.toNat_setWidth, Width.bytes]
  omega

namespace State

/-- Truncation to the operand size. -/
theorem truncW_opWidth (s : State) (v : Word32) : truncW s.cpu.opWidth v = s.atOpSize v := by
  unfold Cpu.opWidth atOpSize
  split
  · exact truncW_dword v
  · exact truncW_word v

/-- A value read from memory has only the bits of its width. -/
theorem truncW_valueAt (s : State) (n : Width) (a : Word32) : truncW n (s.valueAt n a) = s.valueAt n a := by
  apply BitVec.eq_of_toNat_eq
  rw [truncW_toNat]
  unfold valueAt
  have h := s.mem.valueLE_lt .read a n.bytes
  have e : (256 : ℕ) ^ n.bytes = 2 ^ (8 * n.bytes) := by rw [pow_mul]; norm_num
  rw [e] at h
  have h2 : 2 ^ (8 * n.bytes) ≤ 2 ^ 32 := by cases n <;> decide
  rw [BitVec.toNat_ofNat, Nat.mod_eq_of_lt (lt_of_lt_of_le h h2), Nat.mod_eq_of_lt h]

/-- A view of a word or dword register has only the bits of its width. -/
theorem truncW_reg (s : State) (n : Width) (r : Reg) : truncW n (s.reg n r) = s.reg n r := by
  cases n with
  | byte => simp only [reg, Regs.read]; split <;> exact truncW_truncW ..
  | word => exact truncW_truncW ..
  | dword => exact truncW_dword _

/-! ## Transfers -/

/-- All a relative jump does. -/
theorem jumpRel_eq (s : State) (d : Word32) : s.jumpRel d = s.withEip (s.nearTarget d) := by
  simp only [jumpRel, setCpu, Cpu.jumpRel, withEip, nearTarget, Cpu.opWidth]
  congr 2
  split
  · exact truncW_dword _
  · exact truncW_word _

/-- All the end of a far transfer does. -/
theorem farTo_eq (s : State) (w : Width) (sel : Word16) (off : Word32) (h : w = s.cpu.opWidth) :
    farTo w sel off s = s.farTarget sel off := by
  subst h
  unfold farTo farTarget State.jumpTo Cpu.jumpTo withEip
  rw [truncW_opWidth]; rfl

/-! ## Counts -/

/-- The count after a count down is zero exactly where it was one. -/
theorem countZero_countDown (s : State) :
    countZero (countDown s) = true ↔ s.reg s.cpu.adWidth .ecx = 1#32 := by
  show (((countDown s).reg s.cpu.adWidth .ecx == 0#32) = true) ↔ _
  have e : (countDown s).reg s.cpu.adWidth .ecx =
      truncW s.cpu.adWidth (s.reg s.cpu.adWidth .ecx - 1#32) := Regs.read_write_self ..
  rw [beq_iff_eq, e]
  have hlt : (s.reg s.cpu.adWidth .ecx).toNat < 2 ^ (8 * s.cpu.adWidth.bytes) := by
    rw [← truncW_reg s s.cpu.adWidth .ecx, truncW_toNat]
    exact Nat.mod_lt _ (by positivity)
  generalize s.reg s.cpu.adWidth .ecx = c at *
  rw [← BitVec.toNat_inj, ← BitVec.toNat_inj, truncW_toNat]
  revert hlt
  cases s.cpu.adWidth <;> simp only [Width.bytes] <;> bv_omega

/-! ## Strings -/

theorem stringDelta_eq (n : Width) (s : State) : stringDelta n s = s.elementDelta n := by
  unfold stringDelta elementDelta
  split <;> simp

theorem stringAdvance_eq (n : Width) (r : Reg) (s : State) : stringAdvance n r s = s.stepIndex n r := by
  unfold stringAdvance stepIndex
  rw [stringDelta_eq]

theorem movsBody_element (n : Width) (s : State) : MovsElement n s (movsBody n s) := by
  refine ⟨_, _, memRead_readsAt n _ s, memWrite_writesAt n _ _ _, ?_⟩
  rw [← stringAdvance_eq, ← stringAdvance_eq, ← memRead_fst]
  rfl

theorem stosBody_element (n : Width) (s : State) : StosElement n s (stosBody n s) := by
  refine ⟨_, memWrite_writesAt n _ _ s, ?_⟩
  rw [← stringAdvance_eq]
  rfl

theorem lodsBody_element (n : Width) (s : State) : LodsElement n s (lodsBody n s) := by
  refine ⟨_, memRead_readsAt n _ s, ?_⟩
  rw [← stringAdvance_eq, ← memRead_fst]
  rfl

/-- A repeated body is its element, counted down, that many times. -/
theorem repeatBody_repeats {body : State → State} {R : State → State → Prop} (h : ∀ s, R s (body s))
    (k : Nat) (s : State) : Repeats R k s (repeatBody body k s) := by
  induction k generalizing s with
  | zero => rfl
  | succ k ih => exact ⟨body s, h s, ih (countDown (body s))⟩

theorem stringOp_run {body : State → State} {R : State → State → Prop} (h : ∀ s, R s (body s))
    (s : State) : StringRun R s (stringOp body s) := by
  unfold StringRun stringOp
  by_cases hr : s.cpu.mode.repe = true ∨ s.cpu.mode.repne = true
  · rw [if_pos hr, if_pos (by simpa using hr)]
    exact repeatBody_repeats h _ s
  · rw [if_neg hr, if_neg (by simpa using hr)]
    exact h s

end State

end Sys2Proof.Machine
end

