-- ==== Sys2Proof/Laws/Guest.lean ====
section
/-! SUPPORT. What guest code can do, said once: every instruction of the reference set, every prefix and
the built-in delivery is a sequence of the updates of `Micro`. A rule of the whole machine is then one
check per update. -/

namespace Sys2Proof.Machine

namespace State

/-- One primitive update the guest can make. -/
inductive Micro (s : State) : State → Prop
  | reg (n : Width) (r : Reg) (v : Word32) : Micro s (s.setReg n r v)
  | flags (f : Flags) : Micro s (s.setFlags f)
  | eip (v : Word32) : Micro s (s.withEip v)
  | effSeg (r : SegReg) : Micro s (s.recordSeg r)
  | sizes (o : Option SegReg) (m : Mode) (hc : m.code32 = s.cpu.mode.code32)
      (hs : m.stack32 = s.cpu.mode.stack32) (hh : m.halted = s.cpu.mode.halted) :
      Micro s { s with cpu := { s.cpu with segOvr := o, mode := m } }
  | access (k : Access) (a : Word32) (n : Nat) : Micro s (s.setMem (s.mem.readLE k a n).2)
  | write (a : Word32) (n v : Nat) :
      Micro s ((s.setMem (s.mem.writeLE a n v).2).haltIf (s.mem.writeLE a n v).1)
  | halt (b : Bool) : Micro s (s.haltIf b)
  | raise (i : Intr) : Micro s (s.raise i)
  | segReal (r : SegReg) (v : Word16) (h : s.cpu.pe = false) :
      Micro s (s.setSegReg r { s.cpu.segs.get r with sel := v, base := v.setWidth 32 <<< 4 })
  | segProtected (r : SegReg) (g : Seg) (h : s.cpu.pe = true) : Micro s (s.setSegReg r g)
  | io (io' : IoMap) (hp : s.io.GuardedBy io') (hw : s.io.wf → io'.wf) : Micro s { s with io := io' }
  | idle : Micro s s.idleSlot

/-- A sequence of primitive updates. -/
abbrev Guest : State → State → Prop := Relation.ReflTransGen Micro

theorem Micro.guest {s t : State} (h : Micro s t) : Guest s t := .single h

/-- A relation that holds over each primitive update and composes holds over guest code. -/
theorem Guest.induct {s t : State} (h : Guest s t) {R : State → State → Prop} (refl : ∀ s, R s s)
    (trans : ∀ s t u, R s t → R t u → R s u) (step : ∀ s t, Micro s t → R s t) : R s t := by
  induction h with
  | refl => exact refl s
  | tail _ h ih => exact trans _ _ _ ih (step _ _ h)

/-! ## The shared operations -/

theorem guest_memRead (n : Width) (a : Word32) (s : State) : Guest s (s.memRead n a).2 :=
  (Micro.access .read a n.bytes).guest

theorem guest_memWrite (n : Width) (a v : Word32) (s : State) : Guest s (s.memWrite n a v) :=
  (Micro.write a n.bytes v.toNat).guest

theorem guest_push (n : Width) (v : Word32) (s : State) : Guest s (s.push n v) :=
  (Micro.reg _ _ _).guest.trans (guest_memWrite n _ v _)

theorem guest_pop (n : Width) (s : State) : Guest s (s.pop n).2 :=
  (guest_memRead n _ s).trans (Micro.reg _ _ _).guest

theorem guest_resolved (x : Rm) (s : State) : Guest s (s.resolved x) := by
  cases x with
  | reg r => exact .refl
  | mem m => exact (Micro.effSeg _).guest

theorem guest_loadRm (n : Width) (x : Rm) (s : State) : Guest s (s.loadRm n x).2 := by
  cases x with
  | reg r => exact .refl
  | mem m => exact (guest_resolved (.mem m) s).trans (guest_memRead n _ _)

theorem guest_storeRm (n : Width) (x : Rm) (v : Word32) (s : State) : Guest s (s.storeRm n x v) := by
  cases x with
  | reg r => exact (Micro.reg _ _ _).guest
  | mem m => exact (guest_resolved (.mem m) s).trans (guest_memWrite n _ v _)

theorem pe_memRead (n : Width) (a : Word32) (s : State) : (s.memRead n a).2.cpu = s.cpu := rfl

theorem guest_setSegProtected (r : SegReg) (v : Word16) (s : State) (h : s.cpu.pe = true) :
    Guest s (s.setSegProtected r v).2 := by
  unfold setSegProtected segFail
  generalize (if v.getLsbD 2 = true then (s.cpu.ldtr.base, s.cpu.ldtr.limit)
    else (s.cpu.gdt.base, s.cpu.gdt.limit.setWidth 32)) = table
  simp only []
  split
  · exact (Micro.raise _).guest
  · split
    · exact ((guest_memRead _ _ s).trans (guest_memRead _ _ _)).trans (Micro.raise _).guest
    · have g := (guest_memRead .dword (table.1 + (v &&& 0xFFF8#16).setWidth 32) s).trans
        (guest_memRead .dword (table.1 + (v &&& 0xFFF8#16).setWidth 32 + 4#32) _)
      exact g.tail (Micro.segProtected r _ h)

theorem guest_setSeg (r : SegReg) (v : Word16) (s : State) : Guest s (s.setSeg r v).2 := by
  unfold setSeg
  split
  · next h =>
    split
    · exact (Micro.segProtected _ _ h).guest
    · exact guest_setSegProtected r v s h
  · next h => exact (Micro.segReal r v (by simpa using h)).guest

end State

/-! ## Ports -/

namespace PortAttr

theorem GuardedBy.refl (t : PortAttr) : t.GuardedBy t := ⟨rfl, rfl, id, id, id, Nat.le_refl _, Nat.le_refl _⟩

theorem GuardedBy.trans {a b c : PortAttr} (h : a.GuardedBy b) (g : b.GuardedBy c) : a.GuardedBy c := by
  obtain ⟨h1, h2, h3, h4, h5, h6, h7⟩ := h
  obtain ⟨g1, g2, g3, g4, g5, g6, g7⟩ := g
  exact ⟨g1.trans h1, g2.trans h2, g3 ∘ h3, g4 ∘ h4, g5 ∘ h5, h6.trans g6, h7.trans g7⟩

theorem guarded_mark (d : IoDir) (t : PortAttr) : t.GuardedBy (d.mark t) := by
  cases d
  · exact ⟨rfl, rfl, fun _ => rfl, id, id, Nat.le_refl _, Nat.le_refl _⟩
  · exact ⟨rfl, rfl, id, fun _ => rfl, id, Nat.le_refl _, Nat.le_refl _⟩

theorem guarded_count (d : IoDir) (t : PortAttr) : t.GuardedBy (d.count t) := by
  cases d
  · exact ⟨rfl, rfl, id, id, id, Nat.le_succ _, Nat.le_refl _⟩
  · exact ⟨rfl, rfl, id, id, id, Nat.le_refl _, Nat.le_succ _⟩

theorem guarded_invalid (t : PortAttr) : t.GuardedBy { t with invalid := true } :=
  ⟨rfl, rfl, id, id, fun _ => rfl, Nat.le_refl _, Nat.le_refl _⟩

end PortAttr

namespace IoMap

variable (io : IoMap)

@[simp] theorem portAt_setPort (p q : Word16) (t : PortAttr) :
    (io.setPort p t).portAt q = if q = p then t else io.portAt q := by
  simp only [portAt, setPort, Sparse.find?_store]
  by_cases h : q = p
  · simp [h]
  · have : q.toNat ≠ p.toNat := fun e => h (BitVec.eq_of_toNat_eq e)
    simp [h, this]

@[simp] theorem setPort_writes (p : Word16) (t : PortAttr) : (io.setPort p t).writes = io.writes := rfl
@[simp] theorem setPort_seq (p : Word16) (t : PortAttr) : (io.setPort p t).seq = io.seq := rfl

variable {io} in
theorem wf_setPort (h : io.wf) (p : Word16) (t : PortAttr) : (io.setPort p t).wf :=
  Sparse.canonical_store t h p.isLt

theorem GuardedBy.refl : io.GuardedBy io := ⟨fun _ => PortAttr.GuardedBy.refl _, List.suffix_refl _⟩

theorem GuardedBy.trans {a b c : IoMap} (h : a.GuardedBy b) (g : b.GuardedBy c) : a.GuardedBy c :=
  ⟨fun p => (h.1 p).trans (g.1 p), h.2.trans g.2⟩

theorem guarded_setPort {p : Word16} {t : PortAttr} (ht : (io.portAt p).GuardedBy t) :
    io.GuardedBy (io.setPort p t) := by
  refine ⟨fun q => ?_, List.suffix_refl _⟩
  rw [portAt_setPort]
  by_cases h : q = p
  · subst h; rw [if_pos rfl]; exact ht
  · rw [if_neg h]; exact PortAttr.GuardedBy.refl _

/-- An update that keeps what `GuardedBy` says of the ports and the canonical form. -/
def Keeps (io io' : IoMap) : Prop := io.GuardedBy io' ∧ (io.wf → io'.wf)

theorem Keeps.refl : io.Keeps io := ⟨GuardedBy.refl io, id⟩

theorem Keeps.trans {a b c : IoMap} (h : a.Keeps b) (g : b.Keeps c) : a.Keeps c :=
  ⟨h.1.trans g.1, fun w => g.2 (h.2 w)⟩

theorem keeps_setPort {p : Word16} {t : PortAttr} (ht : (io.portAt p).GuardedBy t) :
    io.Keeps (io.setPort p t) :=
  ⟨guarded_setPort io ht, fun h => wf_setPort h p t⟩

theorem keeps_markSpan (d : IoDir) (p : Word16) (n : Nat) : io.Keeps (io.markSpan d p n) := by
  induction n generalizing io p with
  | zero => exact Keeps.refl io
  | succ n ih =>
    exact Keeps.trans (keeps_setPort io (PortAttr.guarded_mark d _)) (ih _ (p + 1#16))

theorem keeps_granted (d : IoDir) (p : Word16) (n : Nat) : io.Keeps (io.granted d p n) :=
  Keeps.trans (keeps_markSpan io d p n)
    (keeps_setPort _ (PortAttr.guarded_count d _))

theorem keeps_flagInvalid (p : Word16) : io.Keeps (io.flagInvalid p) := keeps_setPort io (PortAttr.guarded_invalid _)

theorem keeps_event (p : Word16) (n : Width) (v : Word32) : io.Keeps (io.event p n v) :=
  ⟨⟨fun _ => PortAttr.GuardedBy.refl _, List.suffix_cons _ _⟩, id⟩

theorem keeps_readByte (p : Word16) : io.Keeps (io.readByte p).2 := by
  unfold readByte
  split
  · exact keeps_granted io _ p 1
  · exact keeps_flagInvalid io p

theorem keeps_writeByte (p : Word16) (v : Byte) : io.Keeps (io.writeByte p v).2 := by
  unfold writeByte
  split
  · exact Keeps.trans (keeps_event io p .byte _) (keeps_granted _ _ p 1)
  · exact keeps_flagInvalid io p

theorem keeps_readLE (p : Word16) (n : Nat) : io.Keeps (io.readLE p n).2 := by
  induction n generalizing io p with
  | zero => exact Keeps.refl io
  | succ n ih => exact Keeps.trans (keeps_readByte io p) (ih _ (p + 1#16))

theorem keeps_writeLE (p : Word16) (n v : Nat) : io.Keeps (io.writeLE p n v).2 := by
  induction n generalizing io p v with
  | zero => exact Keeps.refl io
  | succ n ih => exact Keeps.trans (keeps_writeByte io p _) (ih _ (p + 1#16) _)

theorem keeps_read (p : Word16) (n : Width) : io.Keeps (io.read p n).2 := by
  unfold read
  split
  · exact keeps_granted io _ p _
  · exact keeps_readLE io p _

theorem keeps_write (p : Word16) (n : Width) (v : Word32) : io.Keeps (io.write p n v).2 := by
  unfold write
  split
  · exact Keeps.trans (keeps_event io p n v) (keeps_granted _ _ p _)
  · exact keeps_writeLE io p _ _

end IoMap

namespace State

theorem guest_deviceRaises (k n : Nat) (s : State) : Guest s (s.deviceRaises k n) := by
  induction n generalizing k s with
  | zero => exact .refl
  | succ n ih =>
    refine Relation.ReflTransGen.trans ?_ (ih (k + 1) _)
    split
    · split
      · exact (Micro.raise _).guest
      · exact .refl
    · exact .refl

theorem guest_withIo {io' : IoMap} (s : State) (h : s.io.Keeps io') : Guest s (s.withIo io') :=
  (Micro.io io' h.1 h.2).guest.trans (guest_deviceRaises _ _ _)

theorem guest_ioRead (n : Width) (p : Word16) (s : State) : Guest s (s.ioRead n p).2 := by
  unfold ioRead
  split
  · exact guest_withIo s (IoMap.keeps_read _ p n)
  · exact .refl

theorem guest_ioWrite (n : Width) (p : Word16) (v : Word32) (s : State) : Guest s (s.ioWrite n p v) := by
  unfold ioWrite
  split
  · exact (guest_withIo s (IoMap.keeps_write _ p n v)).trans (Micro.halt _).guest
  · exact .refl

/-! ## Transfers, strings, prefixes -/

theorem guest_jumpTo (n : Width) (v : Word32) (s : State) : Guest s (s.jumpTo n v) :=
  (Micro.eip (truncW n v)).guest

theorem guest_jumpRel (d : Word32) (s : State) : Guest s (s.jumpRel d) := by
  rw [jumpRel_eq]; exact (Micro.eip _).guest

theorem guest_jumpIf (c : Bool) (d : Byte) (s : State) : Guest s (jumpIf c d s) := by
  unfold jumpIf
  split
  · exact guest_jumpRel _ s
  · exact .refl

theorem guest_farTo (n : Width) (sel : Word16) (off : Word32) (s : State) :
    Guest s (farTo n sel off s) := by
  unfold farTo
  simp only []
  split
  · exact (guest_setSeg .cs sel s).trans (guest_jumpTo _ _ _)
  · exact guest_setSeg .cs sel s

theorem guest_stringAdvance (n : Width) (r : Reg) (s : State) : Guest s (stringAdvance n r s) :=
  (Micro.reg _ _ _).guest

theorem guest_movsBody (n : Width) (s : State) : Guest s (movsBody n s) :=
  (((guest_memRead n _ s).trans (guest_memWrite n _ _ _)).trans (guest_stringAdvance _ _ _)).trans
    (guest_stringAdvance _ _ _)

theorem guest_stosBody (n : Width) (s : State) : Guest s (stosBody n s) :=
  (guest_memWrite n _ _ s).trans (guest_stringAdvance _ _ _)

theorem guest_lodsBody (n : Width) (s : State) : Guest s (lodsBody n s) :=
  ((guest_memRead n _ s).trans (Micro.reg _ _ _).guest).trans (guest_stringAdvance _ _ _)

theorem guest_stringOp {body : State → State} (h : ∀ s, Guest s (body s)) (s : State) :
    Guest s (stringOp body s) := by
  have key : ∀ k s, Guest s (repeatBody body k s) := by
    intro k
    induction k with
    | zero => exact fun _ => .refl
    | succ k ih =>
      exact fun s => ((h s).trans (Micro.reg _ _ _).guest).trans (ih (countDown (body s)))
  unfold stringOp
  split
  · exact key _ s
  · exact h s

theorem guest_pushFrame (i : Intr) (ret : Word16 × Word32) (s : State) :
    Guest s (s.pushFrame i ret) := by
  unfold pushFrame
  simp only []
  have h := ((guest_push s.frameWidth (truncW s.frameWidth s.cpu.flags.image) s).trans
    (guest_push s.frameWidth (ret.1.setWidth 32) _)).trans
    (guest_push s.frameWidth (truncW s.frameWidth ret.2) _)
  split
  · exact h.trans (guest_push _ _ _)
  · exact h

/-- A fetch is guest code: an access and an advance of the instruction pointer. -/
theorem guest_fetch (n : Nat) (s : State) : Guest s (s.fetch n).2 :=
  (Micro.access s.fetchAccess _ n).guest.trans (Micro.eip _).guest

theorem guest_fetchRun (f : Fetch) (s : State) : Guest s (fetchRun f s).2 := by
  induction f generalizing s with
  | done i => exact .refl
  | byte k ih => exact (guest_fetch 1 s).trans (ih _ _)
  | word k ih => exact (guest_fetch 2 s).trans (ih _ _)
  | dword k ih => exact (guest_fetch 4 s).trans (ih _ _)

theorem guest_fetchInstr (s : State) : Guest s s.fetchInstr.2 := guest_fetchRun _ s

theorem guest_override (r : SegReg) (s : State) : Guest s (override r s) :=
  (Micro.sizes (some r) s.cpu.mode rfl rfl rfl).guest

/-! ## The instructions -/

/-- Every instruction but an external one answers a next state, reached by guest code. -/
theorem exec_guest (i : Instr) (s : State) (h : ∀ op, i ≠ .ext op) :
    ∃ t, exec i s = .next t ∧ Guest s t := by
  cases i with
  | ext op => exact absurd rfl (h op)
  | segEs => exact ⟨_, rfl, guest_override .es s⟩
  | segCs => exact ⟨_, rfl, guest_override .cs s⟩
  | segSs => exact ⟨_, rfl, guest_override .ss s⟩
  | segDs => exact ⟨_, rfl, guest_override .ds s⟩
  | segFs => exact ⟨_, rfl, guest_override .fs s⟩
  | segGs => exact ⟨_, rfl, guest_override .gs s⟩
  | opSize => exact ⟨_, rfl, (Micro.sizes s.cpu.segOvr { s.cpu.mode with data32 := !s.cpu.mode.data32 } rfl rfl rfl).guest⟩
  | adSize => exact ⟨_, rfl, (Micro.sizes s.cpu.segOvr { s.cpu.mode with addr32 := !s.cpu.mode.addr32 } rfl rfl rfl).guest⟩
  | lock => exact ⟨_, rfl, .refl⟩
  | repne => exact ⟨_, rfl, (Micro.sizes s.cpu.segOvr { s.cpu.mode with repne := true } rfl rfl rfl).guest⟩
  | rep => exact ⟨_, rfl, (Micro.sizes s.cpu.segOvr { s.cpu.mode with repe := true } rfl rfl rfl).guest⟩
  | udMovRm16Sreg6 | udMovRm16Sreg7 | udLeaMod3 | udMovSreg6Rm16 | udMovSreg7Rm16 | udC6r1 | udC6r2
  | udC6r3 | udC6r4 | udC6r5 | udC6r6 | udC6r7 | udC7r1 | udC7r2 | udC7r3 | udC7r4 | udC7r5 | udC7r6
  | udC7r7 => exact ⟨_, rfl, (Micro.raise Intr.ud).guest⟩
  | pushEs | pushCs | pushSs | pushDs | pushReg | pushf => exact ⟨_, rfl, guest_push _ _ s⟩
  | popEs | popSs | popDs => exact ⟨_, rfl, (guest_pop _ s).trans (guest_setSeg _ _ _)⟩
  | popReg r => exact ⟨_, rfl, (guest_pop _ s).trans (Micro.reg _ _ _).guest⟩
  | popf => exact ⟨_, rfl, (guest_pop _ s).trans (Micro.flags _).guest⟩
  | jo | jno | jb | jae | je | jne | jbe | ja | js | jns | jp | jnp | jl | jge | jle | jg | jcxz =>
    exact ⟨_, rfl, guest_jumpIf _ _ s⟩
  | loopne | loope | loop => exact ⟨_, rfl, (Micro.reg _ _ _).guest.trans (guest_jumpIf _ _ _)⟩
  | movRm8R8 | movRmR | movRm16Sreg | movRm8Imm | movRmImm => exact ⟨_, rfl, guest_storeRm _ _ _ s⟩
  | movR8Rm8 | movRRm => exact ⟨_, rfl, (guest_loadRm _ _ s).trans (Micro.reg _ _ _).guest⟩
  | lea r m => exact ⟨_, rfl, (guest_resolved (.mem m) s).trans (Micro.reg _ _ _).guest⟩
  | movSregRm16 => exact ⟨_, rfl, (guest_loadRm _ _ s).trans (guest_setSeg _ _ _)⟩
  | nop => exact ⟨_, rfl, .refl⟩
  | movAlMoffs | movEaxMoffs => exact ⟨_, rfl, (guest_memRead _ _ s).trans (Micro.reg _ _ _).guest⟩
  | movMoffsAl | movMoffsEax => exact ⟨_, rfl, guest_memWrite _ _ _ s⟩
  | movsb | movsw => exact ⟨_, rfl, guest_stringOp (guest_movsBody _) s⟩
  | stosb | stosw => exact ⟨_, rfl, guest_stringOp (guest_stosBody _) s⟩
  | lodsb | lodsw => exact ⟨_, rfl, guest_stringOp (guest_lodsBody _) s⟩
  | movR8Imm | movRImm => exact ⟨_, rfl, (Micro.reg _ _ _).guest⟩
  | ret => exact ⟨_, rfl, (guest_pop _ s).trans (guest_jumpTo _ _ _)⟩
  | callRel => exact ⟨_, rfl, (guest_push _ _ s).trans (guest_jumpRel _ _)⟩
  | jmpRel | jmpRel8 => exact ⟨_, rfl, guest_jumpRel _ s⟩
  | jmpFar => exact ⟨_, rfl, guest_farTo _ _ _ s⟩
  | callFar =>
    exact ⟨_, rfl, ((guest_push _ _ s).trans (guest_push _ _ _)).trans (guest_farTo _ _ _ _)⟩
  | retf => exact ⟨_, rfl, ((guest_pop _ s).trans (guest_pop _ _)).trans (guest_farTo _ _ _ _)⟩
  | int3 | int => exact ⟨_, rfl, (Micro.raise _).guest⟩
  | into =>
    refine ⟨_, rfl, ?_⟩
    split
    · exact (Micro.raise _).guest
    · exact .refl
  | iret =>
    refine ⟨_, rfl, ?_⟩
    unfold returnFromInterrupt
    simp only []
    have h := (((guest_pop s.cpu.opWidth s).trans (guest_pop s.cpu.opWidth _)).trans
      (guest_pop s.cpu.opWidth _)).trans (guest_setSeg .cs
        (((s.pop s.cpu.opWidth).2.pop s.cpu.opWidth).1.setWidth 16) _)
    split
    · exact (h.trans (guest_jumpTo _ _ _)).trans (Micro.flags _).guest
    · exact h
  | inAlImm | inEaxImm | inAlDx | inEaxDx =>
    exact ⟨_, rfl, (guest_ioRead _ _ s).trans (Micro.reg _ _ _).guest⟩
  | outImmAl | outImmEax | outDxAl | outDxEax => exact ⟨_, rfl, guest_ioWrite _ _ _ s⟩
  | hlt => exact ⟨_, rfl, (Micro.halt true).guest⟩
  | cmc | clc | stc | cli | sti | cld | std => exact ⟨_, rfl, (Micro.flags _).guest⟩

end State

end Sys2Proof.Machine
end

