-- ==== Sys2Proof/Laws/Fetch.lean ====
section
/-! SUPPORT. Accesses and advances one after the other: two adjoining accesses are one, two advances of
`pc` are one. -/

namespace Sys2Proof.Machine

/-! ## The program counter -/

theorem getLsbD_mask_word {i : Nat} (hi : i < 32) :
    BitVec.getLsbD 0x0000FFFF#32 i = decide (i < 16) := by
  revert i; decide

theorem getLsbD_mask_dword {i : Nat} (hi : i < 32) : BitVec.getLsbD 0xFFFFFFFF#32 i = true := by
  revert i; decide

theorem merge_dword (a b : Word32) : merge 0xFFFFFFFF#32 a b = b := by
  apply BitVec.eq_of_getLsbD_eq
  intro i hi
  simp [merge, getLsbD_mask_dword hi]

theorem setWidth_merge_word (a b : Word32) : (merge 0x0000FFFF#32 a b).setWidth 16 = b.setWidth 16 := by
  apply BitVec.eq_of_getLsbD_eq
  intro i hi
  simp only [merge, BitVec.getLsbD_setWidth, BitVec.getLsbD_or, BitVec.getLsbD_and, BitVec.getLsbD_not,
    getLsbD_mask_word (show i < 32 by omega)]
  simp [hi]

theorem merge_merge_word (old v w : Word32) (h : v.setWidth 16 = w.setWidth 16) (x : Word32) :
    merge 0x0000FFFF#32 (merge 0x0000FFFF#32 old x) v = merge 0x0000FFFF#32 old w := by
  apply BitVec.eq_of_getLsbD_eq
  intro i hi
  have e := congrArg (fun b => BitVec.getLsbD b i) h
  simp only [BitVec.getLsbD_setWidth] at e
  simp only [merge, BitVec.getLsbD_or, BitVec.getLsbD_and, BitVec.getLsbD_not, getLsbD_mask_word hi]
  by_cases h16 : i < 16
  · simpa [h16] using e
  · simp [h16]

/-- Two advances are one. -/
theorem Cpu.advance_advance (c : Cpu) (m n : Nat) :
    (c.advance m).advance n = c.advance (m + n) := by
  have e : BitVec.ofNat 32 (m + n) = BitVec.ofNat 32 m + BitVec.ofNat 32 n := by
    simp [BitVec.ofNat_add]
  unfold Cpu.advance
  have cw : ∀ v, ({ c with eip := v } : Cpu).codeWidth = c.codeWidth := fun _ => rfl
  simp only [cw, e]
  congr 1
  cases h : c.mode.code32
  · simp only [Cpu.codeWidth, h, Bool.false_eq_true, if_false, mask]
    apply merge_merge_word
    rw [BitVec.setWidth_add _ _ (by decide), setWidth_merge_word, ← BitVec.setWidth_add _ _ (by decide),
      BitVec.add_assoc]
  · simp only [Cpu.codeWidth, h, if_true, mask, merge_dword, BitVec.add_assoc]

theorem Cpu.advance_zero (c : Cpu) : c.advance 0 = c := by
  have : ∀ m v : Word32, merge m v v = v := by
    intro m v
    apply BitVec.eq_of_getLsbD_eq
    intro i hi
    simp only [merge, BitVec.getLsbD_or, BitVec.getLsbD_and, BitVec.getLsbD_not]
    cases v.getLsbD i <;> cases m.getLsbD i <;> simp [hi]
  unfold Cpu.advance
  simp [this]

/-- The program counter after an advance that does not pass the end of the code offset space. -/
theorem Cpu.pc_advance (c : Cpu) (n : Nat) (h : c.pc.toNat + n < 2 ^ (8 * c.codeWidth.bytes)) :
    (c.advance n).pc = c.pc + BitVec.ofNat 32 n := by
  have cw : (c.advance n).codeWidth = c.codeWidth := rfl
  unfold Cpu.pc at *
  rw [cw]
  show truncW c.codeWidth (merge (mask c.codeWidth) c.eip (c.eip + BitVec.ofNat 32 n)) = _
  cases hc : c.codeWidth with
  | byte => unfold Cpu.codeWidth at hc; split at hc <;> contradiction
  | word =>
    rw [hc] at h
    rw [truncW_word] at h
    rw [truncW_word, truncW_word]
    simp only [mask]
    rw [setWidth_merge_word]
    apply BitVec.eq_of_toNat_eq
    simp only [BitVec.toNat_setWidth, BitVec.toNat_add, BitVec.toNat_ofNat, Width.bytes] at h ⊢
    omega
  | dword => simp only [truncW_dword, mask, merge_dword]

/-! ## Adjoining accesses -/

namespace Memory

theorem valueLE_append (k : Access) (m : Memory) (a : Word32) (i j : Nat) :
    m.valueLE k a (i + j) = m.valueLE k a i + 256 ^ i * m.valueLE k (a + BitVec.ofNat 32 i) j := by
  induction i generalizing a with
  | zero => simp [valueLE]
  | succ i ih =>
    have e : a + BitVec.ofNat 32 (i + 1) = a + 1#32 + BitVec.ofNat 32 i := by bv_omega
    rw [show i + 1 + j = (i + j) + 1 by omega, valueLE, valueLE, ih, e, Nat.pow_succ]
    ring

theorem inSpan_append (a b : Word32) {i j : Nat} (h : i + j < 4294967296) :
    inSpan a (i + j) b ↔ inSpan a i b ∨ inSpan (a + BitVec.ofNat 32 i) j b := by
  unfold inSpan
  constructor
  · intro h1
    by_cases h2 : (b - a).toNat < i
    · exact .inl h2
    · right; bv_omega
  · rintro (h1 | h1) <;> bv_omega

theorem inSpan_disjoint (a b : Word32) {i j : Nat} (h : i + j < 4294967296) (h1 : inSpan a i b) :
    ¬inSpan (a + BitVec.ofNat 32 i) j b := by
  unfold inSpan at *
  bv_omega

/-- An access returns the same before and after an access elsewhere in the same stream. -/
theorem AccessedBy.valueAt {k j : Access} {a : Word32} {n : Nat} {x y : Memory}
    (h : x.AccessedBy k a n y) (b : Word32) : y.valueAt j b = x.valueAt j b := by
  obtain ⟨h1, h2, -, -⟩ := h
  simp only [Memory.valueAt, h1, h2]
  by_cases hs : inSpan a n b
  · simp only [if_pos hs, permits_after]
  · simp only [if_neg hs]

/-- Two adjoining accesses are one. -/
theorem AccessedBy.append {k : Access} {a : Word32} {i j : Nat} {x y z : Memory}
    (hij : i + j < 4294967296) (h : x.AccessedBy k a i y)
    (g : y.AccessedBy k (a + BitVec.ofNat 32 i) j z) : x.AccessedBy k a (i + j) z := by
  obtain ⟨h1, h2, h3, h4⟩ := h
  obtain ⟨g1, g2, g3, g4⟩ := g
  refine ⟨fun b => (g1 b).trans (h1 b), fun b => ?_, ?_, g4.trans h4⟩
  · rw [g2]
    by_cases hs : inSpan a i b
    · rw [if_neg (inSpan_disjoint a b hij hs), h2, if_pos hs,
        if_pos ((inSpan_append a b hij).2 (.inl hs))]
    · by_cases ht : inSpan (a + BitVec.ofNat 32 i) j b
      · rw [if_pos ht, h2, if_neg hs, if_pos ((inSpan_append a b hij).2 (.inr ht))]
      · rw [if_neg ht, h2, if_neg hs, if_neg (fun e => ((inSpan_append a b hij).1 e).elim hs ht)]
  · rw [g3, h3]
    constructor
    · rintro ((h | ⟨b, hs, hb⟩) | ⟨b, hs, hb⟩)
      · exact .inl h
      · exact .inr ⟨b, (inSpan_append a b hij).2 (.inl hs), hb⟩
      · have hn : ¬inSpan a i b := fun e => inSpan_disjoint a b hij e hs
        rw [h2, if_neg hn] at hb
        exact .inr ⟨b, (inSpan_append a b hij).2 (.inr hs), hb⟩
    · rintro (h | ⟨b, hs, hb⟩)
      · exact .inl (.inl h)
      · rcases (inSpan_append a b hij).1 hs with ht | ht
        · exact .inl (.inr ⟨b, ht, hb⟩)
        · have hn : ¬inSpan a i b := fun e => inSpan_disjoint a b hij e ht
          exact .inr ⟨b, ht, by rw [h2, if_neg hn]; exact hb⟩

end Memory

end Sys2Proof.Machine
end

