-- ==== Sys2Proof/Laws/Step.lean ====
section
/-! SUPPORT. What a step is made of: steps 1 and 2, guest code, the count and the stop test; and what a
primitive update keeps. -/

namespace Sys2Proof.Machine.State

/-! ## What guest code keeps -/

theorem Micro.host_eq {s t : State} (h : Micro s t) : t.host = s.host := by
  cases h <;> first | rfl | exact raise_host s _

theorem Guest.host_eq {s t : State} (h : Guest s t) : t.host = s.host :=
  h.induct (R := fun s t => t.host = s.host) (fun _ => rfl) (fun _ _ _ a b => b.trans a)
    (fun _ _ => Micro.host_eq)

theorem Micro.stop_eq {s t : State} (h : Micro s t) : t.stop = s.stop := by
  cases h <;> first | rfl | exact raise_stop s _

/-- The fields of the CPU context that guest code never writes (R33, R34, R35, R38, R39). -/
structure SameSystem (s t : State) : Prop where
  cr : t.cpu.cr = s.cpu.cr
  dr : t.cpu.dr = s.cpu.dr
  gdt : t.cpu.gdt = s.cpu.gdt
  idt : t.cpu.idt = s.cpu.idt
  ldtr : t.cpu.ldtr = s.cpu.ldtr
  code32 : t.cpu.mode.code32 = s.cpu.mode.code32
  stack32 : t.cpu.mode.stack32 = s.cpu.mode.stack32
  savedCs : t.cpu.savedCs = s.cpu.savedCs
  savedEip : t.cpu.savedEip = s.cpu.savedEip
  icount : t.cpu.icount = s.cpu.icount

theorem SameSystem.refl (s : State) : SameSystem s s := ⟨rfl, rfl, rfl, rfl, rfl, rfl, rfl, rfl, rfl, rfl⟩

theorem SameSystem.trans {s t u : State} (h : SameSystem s t) (g : SameSystem t u) : SameSystem s u :=
  ⟨g.cr.trans h.cr, g.dr.trans h.dr, g.gdt.trans h.gdt, g.idt.trans h.idt, g.ldtr.trans h.ldtr,
    g.code32.trans h.code32, g.stack32.trans h.stack32, g.savedCs.trans h.savedCs,
    g.savedEip.trans h.savedEip, g.icount.trans h.icount⟩

theorem Micro.sameSystem {s t : State} (h : Micro s t) : SameSystem s t := by
  cases h with
  | raise i => constructor <;> simp
  | sizes o m hc hs hh => exact ⟨rfl, rfl, rfl, rfl, rfl, hc, hs, rfl, rfl, rfl⟩
  | _ => exact ⟨rfl, rfl, rfl, rfl, rfl, rfl, rfl, rfl, rfl, rfl⟩

theorem Guest.sameSystem {s t : State} (h : Guest s t) : SameSystem s t :=
  h.induct SameSystem.refl (fun _ _ _ => SameSystem.trans) (fun _ _ => Micro.sameSystem)

/-! ## Canonical forms and permissions -/

theorem Micro.wf {s t : State} (h : Micro s t) (hm : s.mem.wf) (hi : s.io.wf) : t.mem.wf ∧ t.io.wf := by
  cases h with
  | access k a n => exact ⟨Memory.wf_readLE hm k a n, hi⟩
  | write a n v => exact ⟨Memory.wf_writeLE hm a n v, hi⟩
  | raise i => rw [raise_mem, raise_io]; exact ⟨hm, hi⟩
  | io io' hp hw => exact ⟨hm, hw hi⟩
  | _ => exact ⟨hm, hi⟩

theorem Guest.wf {s t : State} (h : Guest s t) (hm : s.mem.wf) (hi : s.io.wf) : t.mem.wf ∧ t.io.wf :=
  h.induct (R := fun s t => s.mem.wf ∧ s.io.wf → t.mem.wf ∧ t.io.wf) (fun _ => id)
    (fun _ _ _ a b w => b (a w)) (fun _ _ h w => Micro.wf h w.1 w.2) ⟨hm, hi⟩

/-! ## The loop -/

/-- The built-in delivery answers a state reached by guest code, slot idle, or refuses. -/
theorem deliverBuiltIn_cases (i : Intr) (s : State) :
    (∃ u, s.deliverBuiltIn i = .next u.idleSlot ∧ Guest s u) ∨
      (s.deliverBuiltIn i = .refused .pmDeliveryUnsupported ∧ s.cpu.pe = true) := by
  have hv : s.vectorTarget i.nr = none ∧ s.cpu.pe = true ∨
      ∃ t, s.vectorTarget i.nr = some t ∧ Guest s t.2 := by
    unfold vectorTarget
    split
    · next h =>
      split
      · exact .inr ⟨_, rfl, .refl⟩
      · exact .inl ⟨rfl, h⟩
    · exact .inr ⟨_, rfl, (guest_memRead _ _ s).trans (guest_memRead _ _ _)⟩
  rcases hv with ⟨h, hp⟩ | ⟨t, h, hg⟩
  · right; unfold deliverBuiltIn; rw [h]; exact ⟨rfl, hp⟩
  · unfold deliverBuiltIn
    rw [h]
    simp only []
    have g1 := (hg.trans (guest_pushFrame i (s.returnAddress i) t.2)).trans (Micro.flags
      (t.2.pushFrame i (s.returnAddress i)).cpu.flags.clearIfTf).guest
    have g2 := g1.trans (guest_setSeg .cs t.1.1 _)
    split
    · exact .inl ⟨_, rfl, g2.trans (guest_jumpTo _ _ _)⟩
    · next hb =>
      refine .inr ⟨rfl, ?_⟩
      have hpe : ∀ {a b : State}, Guest a b → b.cpu.pe = a.cpu.pe := fun g => by
        unfold Cpu.pe; rw [g.sameSystem.cr]
      by_contra hn
      apply hb
      have : ((t.2.pushFrame i (s.returnAddress i)).setFlags
        (t.2.pushFrame i (s.returnAddress i)).cpu.flags.clearIfTf).cpu.pe = false := by
        rw [hpe g1]; simpa using hn
      simp only [setSeg, this]
      rfl

/-- Fetching a byte leaves the sizes in force. -/
theorem fetch_sizes (n : Nat) (s : State) : (s.fetch n).2.sizes = s.sizes := rfl

/-- An instruction fetched is its first byte fetched and then, for a prefix, nothing more, and for an
opcode what its reference handler fetches. -/
theorem fetchInstr_eq (s : State) :
    s.fetchInstr = match prefixOf s.fetchOpcode.1 with
      | some p => (p, s.fetchOpcode.2)
      | none => fetchRun (decodeOperands s.sizes s.fetchOpcode.1) s.fetchOpcode.2 := by
  show fetchRun (decodeOpcode s.sizes s.fetchOpcode.1) s.fetchOpcode.2 = _
  unfold decodeOpcode
  cases prefixOf s.fetchOpcode.1 <;> rfl

/-- The reference handler called on the opcode fetched runs the instruction fetched (R147). -/
theorem referenceHandler_fetchOpcode (s : State) (h : prefixOf s.fetchOpcode.1 = none) :
    referenceHandler s.fetchOpcode.1 s.fetchOpcode.2 = exec s.fetchInstr.1 s.fetchInstr.2 := by
  rw [fetchInstr_eq, h]
  rfl

/-- An entry the host left alone is the reference set's (R149). -/
theorem handler_standard {op : Byte} {s : State} (h : s.host.standard op) :
    handler op s = referenceHandler op s := by
  unfold handler
  rw [h]

/-- What the prefix loop finds is a prefix instruction, and its meaning is guest code. -/
theorem isPrefixByte_of_prefixOf {op : Byte} {p : Instr} (h : prefixOf op = some p) :
    p.isPrefixByte = true := by
  revert h
  unfold prefixOf
  split <;> intro h <;> cases h <;> rfl

theorem exec_prefix {p : Instr} (s : State) (hp : p.isPrefixByte = true) :
    ∃ t, exec p s = .next t ∧ Guest s t :=
  exec_guest p s (fun op e => by subst e; cases hp)

/-- The prefix loop without a handler of the host's: guest code, or a refusal that names an external
byte or the endless run. -/
theorem prefixLoop_cases (n : Nat) (s : State) (hx : s.host.extHandler = false)
    (hh : s.host.handlers = []) :
    (∃ t, prefixLoop handler n s = .next t ∧ Guest s t) ∨
      (∃ op, prefixLoop handler n s = .refused (.noHandler op)) ∨
      prefixLoop handler n s = .refused .prefixFuel := by
  induction n generalizing s with
  | zero => exact .inr (.inr rfl)
  | succ n ih =>
    have hg : Guest s s.fetchOpcode.2 := guest_fetch 1 s
    unfold prefixLoop
    cases hp : prefixOf s.fetchOpcode.1 with
    | some p =>
      obtain ⟨t, ht, gt⟩ := exec_prefix s.fetchOpcode.2 (isPrefixByte_of_prefixOf hp)
      have he := Guest.host_eq (hg.trans gt)
      simp only [ht, andThen_next]
      rcases ih t (by rw [he]; exact hx) (by rw [he]; exact hh) with ⟨u, hu, gu⟩ | h | h
      · exact .inl ⟨u, hu, (hg.trans gt).trans gu⟩
      · exact .inr (.inl h)
      · exact .inr (.inr h)
    | none =>
      simp only []
      have hs : s.fetchOpcode.2.host.standard s.fetchOpcode.1 := by
        unfold HostCfg.standard
        rw [hg.host_eq, hh]
        rfl
      rw [handler_standard hs, referenceHandler_fetchOpcode s hp]
      have gi := guest_fetchInstr s
      by_cases he : ∃ op, s.fetchInstr.1 = .ext op
      · obtain ⟨op, he⟩ := he
        right; left
        refine ⟨op, ?_⟩
        have : s.fetchInstr.2.host.extHandler = false := by rw [gi.host_eq]; exact hx
        simp [he, exec, execExt, this]
      · obtain ⟨t, ht, gt⟩ := exec_guest s.fetchInstr.1 s.fetchInstr.2 (fun op e => he ⟨op, e⟩)
        exact .inl ⟨t, ht, gi.trans gt⟩

/-- Delivery without callbacks. -/
theorem deliver_noCallbacks (s : State) (h : s.host.callbacks = []) :
    s.deliver = match s.cpu.intr with
      | none => .next s
      | some i => s.deliverBuiltIn i := by
  unfold deliver
  cases s.cpu.intr with
  | none => rfl
  | some i => simp [h]

/-- A step of a run in progress, with no hook: steps 1 and 2, guest code that leaves the slot idle, and
steps 7 and 8; or a refusal that says why. -/
theorem step_cases (s : State) (hr : s.running) (hh : s.host.noHooks) :
    (∃ u, step s = .next u.endIteration ∧ Guest s.beginIteration u ∧ u.cpu.intr = none) ∨
      (∃ op, step s = .refused (.noHandler op)) ∨ step s = .refused .prefixFuel ∨
      (step s = .refused .pmDeliveryUnsupported ∧ s.cpu.pe = true) := by
  obtain ⟨h1, h2⟩ := hr
  obtain ⟨c1, c2, c3, c4, c5⟩ := hh
  have hs : step s = s.beginIteration.runInstr handler := by
    simp [step, iteration, h1, h2, codeCheckStep, c1]
  rw [hs]
  unfold runInstr completeStep
  rcases prefixLoop_cases s.beginIteration.prefixFuel s.beginIteration c3 c5 with
    ⟨t, ht, gt⟩ | ⟨op, h⟩ | h
  · rw [ht, andThen_next]
    have hc : t.host.callbacks = [] := by rw [gt.host_eq]; exact c2
    rw [deliver_noCallbacks t hc]
    cases hi : t.cpu.intr with
    | none => exact .inl ⟨t, rfl, gt, hi⟩
    | some i =>
      simp only []
      rcases deliverBuiltIn_cases i t with ⟨u, hu, gu⟩ | ⟨hu, hp⟩
      · rw [hu]; exact .inl ⟨_, rfl, (gt.trans gu).trans Micro.idle.guest, rfl⟩
      · rw [hu]
        refine .inr (.inr (.inr ⟨rfl, ?_⟩))
        have := gt.sameSystem.cr
        unfold Cpu.pe at hp ⊢
        rw [this] at hp
        exact hp
  · rw [h]; exact .inr (.inl ⟨op, rfl⟩)
  · rw [h]; exact .inr (.inr (.inl rfl))

end Sys2Proof.Machine.State
end

