-- ==== Sys2Proof/Laws/Hooks.lean ====
section
/-! SUPPORT. What the host's operations can do, said once each: between runs or in a hook, in a handler,
in the handler table. -/

namespace Sys2Proof.Machine.State

/-- What every operation of a hook or a handler keeps: the canonical forms of memory and ports, the
host configuration (R42) and the result of the run. -/
structure Kept (s t : State) : Prop where
  mem : s.mem.wf → t.mem.wf
  io : s.io.wf → t.io.wf
  host : t.host = s.host
  stop : t.stop = s.stop

theorem Kept.refl (s : State) : Kept s s := ⟨id, id, rfl, rfl⟩

theorem Kept.trans {s t u : State} (h : Kept s t) (g : Kept t u) : Kept s u :=
  ⟨g.mem ∘ h.mem, g.io ∘ h.io, g.host.trans h.host, g.stop.trans h.stop⟩

theorem Micro.kept {s t : State} (h : Micro s t) : Kept s t := by
  refine ⟨fun w => ?_, fun w => ?_, h.host_eq, h.stop_eq⟩
  · cases h with
    | access k a n => exact Memory.wf_readLE w k a n
    | write a n v => exact Memory.wf_writeLE w a n v
    | raise i => rw [raise_mem]; exact w
    | _ => exact w
  · cases h with
    | raise i => rw [raise_io]; exact w
    | io io' hp hw => exact hw w
    | _ => exact w

theorem Guest.kept {s t : State} (h : Guest s t) : Kept s t :=
  Guest.induct h Kept.refl (fun _ _ _ => Kept.trans) (fun _ _ => Micro.kept)

/-- One operation of the host that is not refused (R43, R71, R72, R348). -/
theorem hostOp_kept {s t : State} {o : HostOp} (h : s.hostOp o = .next t) : Kept s t := by
  cases o with
  | setCpu c => cases h; exact ⟨id, id, rfl, rfl⟩
  | setAttr a t => cases h; exact ⟨fun w => Memory.wf_setAttr w a t, id, rfl, rfl⟩
  | setByte a v => cases h; exact ⟨fun w => Memory.wf_hostSetByte w a v, id, rfl, rfl⟩
  | setInvalid b => cases h; exact ⟨id, id, rfl, rfl⟩
  | setPerm a len p =>
    simp only [hostOp] at h
    split at h
    · cases h; exact ⟨fun w => Memory.wf_setPermRange w p a len, id, rfl, rfl⟩
    · cases h
  | seed a v => cases h; exact ⟨fun w => Memory.wf_seed w a v, id, rfl, rfl⟩
  | mapPage page bytes =>
    simp only [hostOp] at h
    split at h
    · cases h; exact ⟨fun w => Memory.wf_seedBytes w _ bytes, id, rfl, rfl⟩
    · cases h
  | setPort p t => cases h; exact ⟨id, fun w => IoMap.wf_setPort w p t, rfl, rfl⟩
  | loadSelector r v => cases h; exact (guest_setSeg r v s).kept
  | raiseInterrupt i => cases h; exact (Micro.raise i).kept

/-- The operations of a hook, none refused. -/
theorem hostOps_kept {l : List HostOp} {s t : State} (h : s.hostOps l = .next t) : Kept s t := by
  induction l generalizing s with
  | nil => cases h; exact .refl _
  | cons o l ih =>
    obtain ⟨u, hu, ht⟩ := andThen_eq_next.1 h
    exact (hostOp_kept hu).trans (ih ht)

/-- One operation of a handler of the host's (R148). -/
theorem handlerOp_kept (s : State) (o : HandlerOp) : Kept s (s.handlerOp o) := by
  cases o with
  | fetchByte => exact (guest_fetch 1 s).kept
  | fetchWord => exact (guest_fetch 2 s).kept
  | fetchDword => exact (guest_fetch 4 s).kept
  | resolveRm mod rm =>
    have g := guest_fetchRun (decodeRm s.sizes mod rm fun x => .done (.movRm8R8 x .eax)) s
    unfold handlerOp
    simp only []
    split
    · exact Guest.kept (g.trans (guest_resolved _ _))
    · exact g.kept
  | memRead n a => exact (guest_memRead n a s).kept
  | memReadQ a => exact (Micro.access .read a 8).kept
  | memWrite n a v => exact (guest_memWrite n a v s).kept
  | memWriteQ a v => exact (Micro.write a 8 v.toNat).kept
  | ioRead n p => exact (guest_ioRead n p s).kept
  | ioWrite n p v => exact (guest_ioWrite n p v s).kept
  | raise i => exact (Micro.raise i).kept
  | setSeg r v => exact (guest_setSeg r v s).kept
  | setCpu c => exact ⟨id, id, rfl, rfl⟩

theorem handlerOps_kept (l : List HandlerOp) (s : State) : Kept s (s.handlerOps l) := by
  induction l generalizing s with
  | nil => exact .refl s
  | cons o l ih => exact (handlerOp_kept s o).trans (ih _)

/-- Every meaning, an external byte's among them. -/
theorem exec_kept {i : Instr} {s t : State} (h : exec i s = .next t) : Kept s t := by
  by_cases he : ∃ op, i = .ext op
  · obtain ⟨op, rfl⟩ := he
    simp only [exec, execExt] at h
    split at h
    · cases h; exact handlerOps_kept _ s
    · cases h
  · obtain ⟨u, hu, gu⟩ := exec_guest i s fun op e => he ⟨op, e⟩
    rw [hu] at h
    cases h
    exact gu.kept

/-- Every entry of the handler table in force (R42, R149). -/
theorem handler_kept {op : Byte} {s t : State} (h : handler op s = .next t) : Kept s t := by
  unfold handler at h
  split at h
  · exact (guest_fetchRun _ s).kept.trans (exec_kept h)
  · cases h; exact handlerOps_kept _ s
  · exact exec_kept (i := .ext op) h

/-- Steps 4 and 5 with the handler table in force. -/
theorem prefixLoop_kept {n : Nat} {s t : State} (h : prefixLoop handler n s = .next t) : Kept s t := by
  induction n generalizing s with
  | zero => cases h
  | succ n ih =>
    have hf : Kept s s.fetchOpcode.2 := (guest_fetch 1 s).kept
    unfold prefixLoop at h
    split at h
    · obtain ⟨u, hu, ht⟩ := andThen_eq_next.1 h
      exact (hf.trans (exec_kept hu)).trans (ih ht)
    · exact hf.trans (handler_kept h)

end Sys2Proof.Machine.State
end

