-- ==== Sys2Proof/Laws/PerInstr.lean ====
section
/-! SUPPORT. Family RoundTrip of LAWS.json: decoding the bytes of a well-formed instruction gives it
back, one lemma per constructor of `Instr`. -/

namespace Sys2Proof.Laws.RoundTrip

/-- Decoding the encoding of a well-formed instruction, under any sizes and before any bytes. -/
def Statement (i : Instr) : Prop :=
  ∀ (sz : Sizes) (rest : List Byte), i.wellFormed sz = true →
    decode sz (encode sz i ++ rest) = .ok (i, rest)

theorem segEs : Statement .segEs := fun _ _ _ => rfl

theorem segCs : Statement .segCs := fun _ _ _ => rfl

theorem segSs : Statement .segSs := fun _ _ _ => rfl

theorem segDs : Statement .segDs := fun _ _ _ => rfl

theorem segFs : Statement .segFs := fun _ _ _ => rfl

theorem segGs : Statement .segGs := fun _ _ _ => rfl

theorem opSize : Statement .opSize := fun _ _ _ => rfl

theorem adSize : Statement .adSize := fun _ _ _ => rfl

theorem lock : Statement .lock := fun _ _ _ => rfl

theorem repne : Statement .repne := fun _ _ _ => rfl

theorem rep : Statement .rep := fun _ _ _ => rfl

theorem udMovRm16Sreg6 (mod : BitVec 2) (rm : BitVec 3) : Statement (.udMovRm16Sreg6 mod rm) := by
  intro sz rest _
  show (decode8C sz).runBytes (fieldByte mod 6#3 rm :: rest) = _
  simp [decode8C, Fetch.runBytes, topField_fieldByte, midField_fieldByte, lowField_fieldByte, SegReg.ofBits]

theorem udMovRm16Sreg7 (mod : BitVec 2) (rm : BitVec 3) : Statement (.udMovRm16Sreg7 mod rm) := by
  intro sz rest _
  show (decode8C sz).runBytes (fieldByte mod 7#3 rm :: rest) = _
  simp [decode8C, Fetch.runBytes, topField_fieldByte, midField_fieldByte, lowField_fieldByte, SegReg.ofBits]

theorem udLeaMod3 (reg rm : BitVec 3) : Statement (.udLeaMod3 reg rm) := by
  intro sz rest _
  show (decode8D sz).runBytes (fieldByte 3#2 reg rm :: rest) = _
  simp [decode8D, Fetch.runBytes, topField_fieldByte, midField_fieldByte, lowField_fieldByte]

theorem udMovSreg6Rm16 (mod : BitVec 2) (rm : BitVec 3) : Statement (.udMovSreg6Rm16 mod rm) := by
  intro sz rest _
  show (decode8E sz).runBytes (fieldByte mod 6#3 rm :: rest) = _
  simp [decode8E, Fetch.runBytes, topField_fieldByte, midField_fieldByte, lowField_fieldByte, SegReg.ofBits]

theorem udMovSreg7Rm16 (mod : BitVec 2) (rm : BitVec 3) : Statement (.udMovSreg7Rm16 mod rm) := by
  intro sz rest _
  show (decode8E sz).runBytes (fieldByte mod 7#3 rm :: rest) = _
  simp [decode8E, Fetch.runBytes, topField_fieldByte, midField_fieldByte, lowField_fieldByte, SegReg.ofBits]

theorem udC6r1 (mod : BitVec 2) (rm : BitVec 3) : Statement (.udC6r1 mod rm) := by
  intro sz rest _
  show (decodeC6 sz).runBytes (fieldByte mod 1#3 rm :: rest) = _
  simp [decodeC6, Fetch.runBytes, topField_fieldByte, midField_fieldByte, lowField_fieldByte]

theorem udC6r2 (mod : BitVec 2) (rm : BitVec 3) : Statement (.udC6r2 mod rm) := by
  intro sz rest _
  show (decodeC6 sz).runBytes (fieldByte mod 2#3 rm :: rest) = _
  simp [decodeC6, Fetch.runBytes, topField_fieldByte, midField_fieldByte, lowField_fieldByte]

theorem udC6r3 (mod : BitVec 2) (rm : BitVec 3) : Statement (.udC6r3 mod rm) := by
  intro sz rest _
  show (decodeC6 sz).runBytes (fieldByte mod 3#3 rm :: rest) = _
  simp [decodeC6, Fetch.runBytes, topField_fieldByte, midField_fieldByte, lowField_fieldByte]

theorem udC6r4 (mod : BitVec 2) (rm : BitVec 3) : Statement (.udC6r4 mod rm) := by
  intro sz rest _
  show (decodeC6 sz).runBytes (fieldByte mod 4#3 rm :: rest) = _
  simp [decodeC6, Fetch.runBytes, topField_fieldByte, midField_fieldByte, lowField_fieldByte]

theorem udC6r5 (mod : BitVec 2) (rm : BitVec 3) : Statement (.udC6r5 mod rm) := by
  intro sz rest _
  show (decodeC6 sz).runBytes (fieldByte mod 5#3 rm :: rest) = _
  simp [decodeC6, Fetch.runBytes, topField_fieldByte, midField_fieldByte, lowField_fieldByte]

theorem udC6r6 (mod : BitVec 2) (rm : BitVec 3) : Statement (.udC6r6 mod rm) := by
  intro sz rest _
  show (decodeC6 sz).runBytes (fieldByte mod 6#3 rm :: rest) = _
  simp [decodeC6, Fetch.runBytes, topField_fieldByte, midField_fieldByte, lowField_fieldByte]

theorem udC6r7 (mod : BitVec 2) (rm : BitVec 3) : Statement (.udC6r7 mod rm) := by
  intro sz rest _
  show (decodeC6 sz).runBytes (fieldByte mod 7#3 rm :: rest) = _
  simp [decodeC6, Fetch.runBytes, topField_fieldByte, midField_fieldByte, lowField_fieldByte]

theorem udC7r1 (mod : BitVec 2) (rm : BitVec 3) : Statement (.udC7r1 mod rm) := by
  intro sz rest _
  show (decodeC7 sz).runBytes (fieldByte mod 1#3 rm :: rest) = _
  simp [decodeC7, Fetch.runBytes, topField_fieldByte, midField_fieldByte, lowField_fieldByte]

theorem udC7r2 (mod : BitVec 2) (rm : BitVec 3) : Statement (.udC7r2 mod rm) := by
  intro sz rest _
  show (decodeC7 sz).runBytes (fieldByte mod 2#3 rm :: rest) = _
  simp [decodeC7, Fetch.runBytes, topField_fieldByte, midField_fieldByte, lowField_fieldByte]

theorem udC7r3 (mod : BitVec 2) (rm : BitVec 3) : Statement (.udC7r3 mod rm) := by
  intro sz rest _
  show (decodeC7 sz).runBytes (fieldByte mod 3#3 rm :: rest) = _
  simp [decodeC7, Fetch.runBytes, topField_fieldByte, midField_fieldByte, lowField_fieldByte]

theorem udC7r4 (mod : BitVec 2) (rm : BitVec 3) : Statement (.udC7r4 mod rm) := by
  intro sz rest _
  show (decodeC7 sz).runBytes (fieldByte mod 4#3 rm :: rest) = _
  simp [decodeC7, Fetch.runBytes, topField_fieldByte, midField_fieldByte, lowField_fieldByte]

theorem udC7r5 (mod : BitVec 2) (rm : BitVec 3) : Statement (.udC7r5 mod rm) := by
  intro sz rest _
  show (decodeC7 sz).runBytes (fieldByte mod 5#3 rm :: rest) = _
  simp [decodeC7, Fetch.runBytes, topField_fieldByte, midField_fieldByte, lowField_fieldByte]

theorem udC7r6 (mod : BitVec 2) (rm : BitVec 3) : Statement (.udC7r6 mod rm) := by
  intro sz rest _
  show (decodeC7 sz).runBytes (fieldByte mod 6#3 rm :: rest) = _
  simp [decodeC7, Fetch.runBytes, topField_fieldByte, midField_fieldByte, lowField_fieldByte]

theorem udC7r7 (mod : BitVec 2) (rm : BitVec 3) : Statement (.udC7r7 mod rm) := by
  intro sz rest _
  show (decodeC7 sz).runBytes (fieldByte mod 7#3 rm :: rest) = _
  simp [decodeC7, Fetch.runBytes, topField_fieldByte, midField_fieldByte, lowField_fieldByte]

theorem pushEs : Statement .pushEs := fun _ _ _ => rfl

theorem popEs : Statement .popEs := fun _ _ _ => rfl

theorem pushCs : Statement .pushCs := fun _ _ _ => rfl

theorem pushSs : Statement .pushSs := fun _ _ _ => rfl

theorem popSs : Statement .popSs := fun _ _ _ => rfl

theorem pushDs : Statement .pushDs := fun _ _ _ => rfl

theorem popDs : Statement .popDs := fun _ _ _ => rfl

theorem pushReg (r : Reg) : Statement (.pushReg r) := by
  intro sz rest _
  cases r <;> rfl

theorem popReg (r : Reg) : Statement (.popReg r) := by
  intro sz rest _
  cases r <;> rfl

theorem jo (d : Byte) : Statement (.jo d) := fun _ _ _ => rfl

theorem jno (d : Byte) : Statement (.jno d) := fun _ _ _ => rfl

theorem jb (d : Byte) : Statement (.jb d) := fun _ _ _ => rfl

theorem jae (d : Byte) : Statement (.jae d) := fun _ _ _ => rfl

theorem je (d : Byte) : Statement (.je d) := fun _ _ _ => rfl

theorem jne (d : Byte) : Statement (.jne d) := fun _ _ _ => rfl

theorem jbe (d : Byte) : Statement (.jbe d) := fun _ _ _ => rfl

theorem ja (d : Byte) : Statement (.ja d) := fun _ _ _ => rfl

theorem js (d : Byte) : Statement (.js d) := fun _ _ _ => rfl

theorem jns (d : Byte) : Statement (.jns d) := fun _ _ _ => rfl

theorem jp (d : Byte) : Statement (.jp d) := fun _ _ _ => rfl

theorem jnp (d : Byte) : Statement (.jnp d) := fun _ _ _ => rfl

theorem jl (d : Byte) : Statement (.jl d) := fun _ _ _ => rfl

theorem jge (d : Byte) : Statement (.jge d) := fun _ _ _ => rfl

theorem jle (d : Byte) : Statement (.jle d) := fun _ _ _ => rfl

theorem jg (d : Byte) : Statement (.jg d) := fun _ _ _ => rfl

theorem movRm8R8 (x : Rm) (r : Reg) : Statement (.movRm8R8 x r) := fun sz rest h =>
  runBytes_modRM sz r x (fun r x => .done (.movRm8R8 x r)) rest h

theorem movRmR (x : Rm) (r : Reg) : Statement (.movRmR x r) := fun sz rest h =>
  runBytes_modRM sz r x (fun r x => .done (.movRmR x r)) rest h

theorem movR8Rm8 (r : Reg) (x : Rm) : Statement (.movR8Rm8 r x) := fun sz rest h =>
  runBytes_modRM sz r x (fun r x => .done (.movR8Rm8 r x)) rest h

theorem movRRm (r : Reg) (x : Rm) : Statement (.movRRm r x) := fun sz rest h =>
  runBytes_modRM sz r x (fun r x => .done (.movRRm r x)) rest h

theorem movRm16Sreg (x : Rm) (sr : SegReg) : Statement (.movRm16Sreg x sr) := by
  intro sz rest h
  obtain ⟨b, tail, h1, h2, h3⟩ := Rm.decode_encode sz sr.toBits x h
  have hs : SegReg.ofBits (midField b) = some sr := by rw [h2, SegReg.ofBits_toBits]
  show (decode8C sz).runBytes (x.encode sr.toBits ++ rest) = _
  rw [h1]
  simp only [decode8C, List.cons_append, Fetch.runBytes, hs, h3]

theorem lea (r : Reg) (m : Mem) : Statement (.lea r m) := by
  intro sz rest h
  obtain ⟨b, tail, h1, h2, h3, h4⟩ := Mem.decode_encode sz r.toBits m h
  show (decode8D sz).runBytes (m.encode r.toBits ++ rest) = _
  rw [h1]
  simp only [decode8D, List.cons_append, Fetch.runBytes, if_neg h3, h4, h2, Reg.ofBits_toBits]

theorem movSregRm16 (sr : SegReg) (x : Rm) : Statement (.movSregRm16 sr x) := by
  intro sz rest h
  obtain ⟨b, tail, h1, h2, h3⟩ := Rm.decode_encode sz sr.toBits x h
  have hs : SegReg.ofBits (midField b) = some sr := by rw [h2, SegReg.ofBits_toBits]
  show (decode8E sz).runBytes (x.encode sr.toBits ++ rest) = _
  rw [h1]
  simp only [decode8E, List.cons_append, Fetch.runBytes, hs, h3]

theorem nop : Statement .nop := fun _ _ _ => rfl

theorem callFar (off : Word32) (sel : Word16) : Statement (.callFar off sel) := fun sz rest h =>
  runBytes_ptr sz off sel (fun off sel => .done (.callFar off sel)) rest h

theorem pushf : Statement .pushf := fun _ _ _ => rfl

theorem popf : Statement .popf := fun _ _ _ => rfl

theorem movAlMoffs (off : Word32) : Statement (.movAlMoffs off) := fun sz rest h =>
  runBytes_sized sz.addr32 (fun off => .done (.movAlMoffs off)) off rest h

theorem movEaxMoffs (off : Word32) : Statement (.movEaxMoffs off) := fun sz rest h =>
  runBytes_sized sz.addr32 (fun off => .done (.movEaxMoffs off)) off rest h

theorem movMoffsAl (off : Word32) : Statement (.movMoffsAl off) := fun sz rest h =>
  runBytes_sized sz.addr32 (fun off => .done (.movMoffsAl off)) off rest h

theorem movMoffsEax (off : Word32) : Statement (.movMoffsEax off) := fun sz rest h =>
  runBytes_sized sz.addr32 (fun off => .done (.movMoffsEax off)) off rest h

theorem movsb : Statement .movsb := fun _ _ _ => rfl

theorem movsw : Statement .movsw := fun _ _ _ => rfl

theorem stosb : Statement .stosb := fun _ _ _ => rfl

theorem stosw : Statement .stosw := fun _ _ _ => rfl

theorem lodsb : Statement .lodsb := fun _ _ _ => rfl

theorem lodsw : Statement .lodsw := fun _ _ _ => rfl

theorem movR8Imm (r : Reg) (v : Byte) : Statement (.movR8Imm r v) := by
  intro sz rest _
  cases r <;> rfl

theorem movRImm (r : Reg) (v : Word32) : Statement (.movRImm r v) := by
  intro sz rest h
  cases r <;> exact runBytes_sized sz.data32 (fun v => .done (.movRImm _ v)) v rest h

theorem ret : Statement .ret := fun _ _ _ => rfl

theorem movRm8Imm (x : Rm) (v : Byte) : Statement (.movRm8Imm x v) := by
  intro sz rest h
  obtain ⟨b, tail, h1, h2, h3⟩ := Rm.decode_encode sz 0#3 x h
  have h0 : (midField b).toNat = 0 := by rw [h2]; rfl
  show (decodeC6 sz).runBytes ((x.encode 0#3 ++ [v]) ++ rest) = _
  rw [h1]
  simp only [decodeC6, List.cons_append, List.append_assoc, Fetch.runBytes, h0, h3, List.nil_append]

theorem movRmImm (x : Rm) (v : Word32) : Statement (.movRmImm x v) := by
  intro sz rest h
  have hw : x.wellFormed sz.addr32 = true ∧ fitsSize sz.data32 v = true := by
    simpa [Instr.wellFormed] using h
  obtain ⟨b, tail, h1, h2, h3⟩ := Rm.decode_encode sz 0#3 x hw.1
  have h0 : (midField b).toNat = 0 := by rw [h2]; rfl
  show (decodeC7 sz).runBytes ((x.encode 0#3 ++ sizedBytes sz.data32 v) ++ rest) = _
  rw [h1]
  simp only [decodeC7, List.cons_append, List.append_assoc, Fetch.runBytes, h0, h3]
  exact runBytes_sized _ _ v rest hw.2

theorem retf : Statement .retf := fun _ _ _ => rfl

theorem int3 : Statement .int3 := fun _ _ _ => rfl

theorem int (n : Byte) : Statement (.int n) := fun _ _ _ => rfl

theorem into : Statement .into := fun _ _ _ => rfl

theorem iret : Statement .iret := fun _ _ _ => rfl

theorem loopne (d : Byte) : Statement (.loopne d) := fun _ _ _ => rfl

theorem loope (d : Byte) : Statement (.loope d) := fun _ _ _ => rfl

theorem loop (d : Byte) : Statement (.loop d) := fun _ _ _ => rfl

theorem jcxz (d : Byte) : Statement (.jcxz d) := fun _ _ _ => rfl

theorem inAlImm (p : Byte) : Statement (.inAlImm p) := fun _ _ _ => rfl

theorem inEaxImm (p : Byte) : Statement (.inEaxImm p) := fun _ _ _ => rfl

theorem outImmAl (p : Byte) : Statement (.outImmAl p) := fun _ _ _ => rfl

theorem outImmEax (p : Byte) : Statement (.outImmEax p) := fun _ _ _ => rfl

theorem callRel (d : Word32) : Statement (.callRel d) := fun sz rest h =>
  runBytes_sized sz.data32 (fun d => .done (.callRel d)) d rest h

theorem jmpRel (d : Word32) : Statement (.jmpRel d) := fun sz rest h =>
  runBytes_sized sz.data32 (fun d => .done (.jmpRel d)) d rest h

theorem jmpFar (off : Word32) (sel : Word16) : Statement (.jmpFar off sel) := fun sz rest h =>
  runBytes_ptr sz off sel (fun off sel => .done (.jmpFar off sel)) rest h

theorem jmpRel8 (d : Byte) : Statement (.jmpRel8 d) := fun _ _ _ => rfl

theorem inAlDx : Statement .inAlDx := fun _ _ _ => rfl

theorem inEaxDx : Statement .inEaxDx := fun _ _ _ => rfl

theorem outDxAl : Statement .outDxAl := fun _ _ _ => rfl

theorem outDxEax : Statement .outDxEax := fun _ _ _ => rfl

theorem hlt : Statement .hlt := fun _ _ _ => rfl

theorem cmc : Statement .cmc := fun _ _ _ => rfl

theorem clc : Statement .clc := fun _ _ _ => rfl

theorem stc : Statement .stc := fun _ _ _ => rfl

theorem cli : Statement .cli := fun _ _ _ => rfl

theorem sti : Statement .sti := fun _ _ _ => rfl

theorem cld : Statement .cld := fun _ _ _ => rfl

theorem std : Statement .std := fun _ _ _ => rfl

theorem ext (op : Byte) : Statement (.ext op) := by
  intro sz rest h
  have key : ∀ op : Byte, isExternal op = true →
      ∀ sz, decodeOpcode sz op = .done (.ext op) := by
    intro op h sz
    unfold decodeOpcode prefixOf decodeOperands
    split <;> rename_i e0
    · exfalso
      revert e0
      split <;> first
        | (rename_i e; intro; unfold isExternal at h; rw [e] at h; exact absurd h (by decide))
        | exact nofun
    · split <;> first
        | rfl
        | (rename_i e; unfold isExternal at h; rw [e] at h; exact absurd h (by decide))
  show (decodeOpcode sz op).runBytes rest = _
  rw [key op h sz]
  rfl

end Sys2Proof.Laws.RoundTrip
end

