-- ==== Sys2Proof/Tests/Slice0.lean ====
section
/-! SUPPORT. Tests: well-formedness, decoding, one step each on small states, and for every statement
of Certificates/Slice0/Obligations.lean with hypotheses a state and operands that meet them. Expected
results are the spec's own (spec/95_test_vectors.md, whose ids are given, and the tables of R192, R210). -/

set_option Elab.async false

namespace Sys2Proof.Tests

open Sys2Proof Sys2Proof.Machine

/-! ## Well-formedness: one refused term per check -/

theorem test_wf_refuses_16bit_forms_in_32 :
    (Mem.abs16 0).wellFormed true = false ∧ (Mem.based16 .bx .d0).wellFormed true = false := by decide

theorem test_wf_refuses_32bit_forms_in_16 :
    (Mem.abs32 0).wellFormed false = false ∧ (Mem.based32 .eax .d0).wellFormed false = false ∧
    (Mem.sibAbs 0 .eax 0).wellFormed false = false ∧ (Mem.sib 0 .eax .eax .d0).wellFormed false = false := by
  decide

theorem test_wf_refuses_reserved_bases :
    (Mem.based16 .bp .d0).wellFormed false = false ∧ (Mem.based32 .esp .d0).wellFormed true = false ∧
    (Mem.based32 .ebp .d0).wellFormed true = false ∧ (Mem.sib 0 .eax .ebp .d0).wellFormed true = false := by
  decide

theorem test_wf_refuses_operands :
    (Instr.movRmR (.mem (.based16 .bp .d0)) .eax).wellFormed ⟨false, false⟩ = false ∧
    (Instr.movSregRm16 .ds (.mem (.abs32 0))).wellFormed ⟨false, false⟩ = false ∧
    (Instr.movRm8Imm (.mem (.abs32 0)) 0).wellFormed ⟨false, false⟩ = false ∧
    (Instr.lea .eax (.abs32 0)).wellFormed ⟨false, false⟩ = false ∧
    (Instr.movRmImm (.mem (.abs32 0)) 0).wellFormed ⟨false, false⟩ = false := by decide

theorem test_wf_refuses_wide_values :
    (Instr.movRmImm (.reg .eax) 0x10000).wellFormed ⟨false, true⟩ = false ∧
    (Instr.movAlMoffs 0x10000).wellFormed ⟨true, false⟩ = false ∧
    (Instr.movRImm .eax 0x10000).wellFormed ⟨false, true⟩ = false ∧
    (Instr.jmpFar 0x10000 0).wellFormed ⟨false, true⟩ = false := by decide

theorem test_wf_refuses_ext_of_known_bytes :
    (Instr.ext 0x90).wellFormed ⟨false, false⟩ = false ∧ (Instr.ext 0x66).wellFormed ⟨false, false⟩ = false := by
  decide

/-! ## Decoding: the words of R109, R111 and R142 to R307, every constructor -/

/-- The instruction of a whole byte sequence. -/
def dec (sz : Sizes) (bs : List Byte) : Option Instr :=
  match decode sz bs with
  | .ok (i, []) => some i
  | _ => none

/-- 16-bit operands and addresses. -/
def s16 : Sizes := ⟨false, false⟩
/-- 32-bit operands and addresses. -/
def s32 : Sizes := ⟨true, true⟩

theorem test_decode_prefixes :
    [[0b00100110], [0x2E], [0x36], [0x3E], [0x64], [0x65], [0x66], [0x67], [0xF0], [0xF2], [0xF3]].map
      (dec s16) =
    [Instr.segEs, .segCs, .segSs, .segDs, .segFs, .segGs, .opSize, .adSize, .lock, .repne, .rep].map
      some := by decide

theorem test_decode_illegal_mov_lea :
    [[0x8C, 0b01110101], [0x8C, 0b00111010], [0x8D, 0b11101110], [0x8E, 0b10110001], [0x8E, 0b11111111]].map
      (dec s16) =
    [Instr.udMovRm16Sreg6 1 5, .udMovRm16Sreg7 0 2, .udLeaMod3 5 6, .udMovSreg6Rm16 2 1,
      .udMovSreg7Rm16 3 7].map some := by decide

theorem test_decode_illegal_C6 :
    [[0xC6, 0b01001110], [0xC6, 0x10], [0xC6, 0x18], [0xC6, 0x20], [0xC6, 0x28], [0xC6, 0x30],
      [0xC6, 0x38]].map (dec s32) =
    [Instr.udC6r1 1 6, .udC6r2 0 0, .udC6r3 0 0, .udC6r4 0 0, .udC6r5 0 0, .udC6r6 0 0,
      .udC6r7 0 0].map some := by decide

theorem test_decode_illegal_C7 :
    [[0xC7, 0x08], [0xC7, 0x10], [0xC7, 0x18], [0xC7, 0x20], [0xC7, 0x28], [0xC7, 0x30],
      [0xC7, 0b11111011]].map (dec s16) =
    [Instr.udC7r1 0 0, .udC7r2 0 0, .udC7r3 0 0, .udC7r4 0 0, .udC7r5 0 0, .udC7r6 0 0,
      .udC7r7 3 3].map some := by decide

theorem test_decode_stack :
    [[0x06], [0x07], [0x0E], [0x16], [0x17], [0x1E], [0x1F], [0b01010100], [0b01011111], [0x9C],
      [0x9D]].map (dec s16) =
    [Instr.pushEs, .popEs, .pushCs, .pushSs, .popSs, .pushDs, .popDs, .pushReg .esp, .popReg .edi, .pushf,
      .popf].map some := by decide

theorem test_decode_jcc :
    [[0x70, 1], [0x71, 2], [0x72, 3], [0x73, 4], [0b01110100, 0b00000101], [0x75, 6], [0x76, 7], [0x77, 8],
      [0x78, 9], [0x79, 10], [0x7A, 11], [0x7B, 12], [0x7C, 13], [0x7D, 14], [0x7E, 15],
      [0x7F, 0xFE]].map (dec s16) =
    [Instr.jo 1, .jno 2, .jb 3, .jae 4, .je 5, .jne 6, .jbe 7, .ja 8, .js 9, .jns 10, .jp 11, .jnp 12,
      .jl 13, .jge 14, .jle 15, .jg 0xFE].map some := by decide

theorem test_decode_mov_modrm :
    [[0x88, 0b00001000], [0x89, 0b11011000], [0x8A, 0x46, 0x00], [0b10001011, 0b00011111], [0x8C, 0xD8],
      [0x8D, 0x74, 0x01], [0x8E, 0b11100011]].map (dec s16) =
    [Instr.movRm8R8 (.mem (.based16 .bxSi .d0)) .ecx, .movRmR (.reg .eax) .ebx,
      .movR8Rm8 .eax (.mem (.based16 .bp (.d8 0))), .movRRm .ebx (.mem (.based16 .bx .d0)),
      .movRm16Sreg (.reg .eax) .ds, .lea .esi (.based16 .si (.d8 1)), .movSregRm16 .fs (.reg .ebx)].map
      some := by decide

theorem test_decode_mov_immediate :
    [[0xB4, 0x12], [0b10111111, 0x00, 0x05], [0xC6, 0x06, 0x00, 0x10, 0x55], [0xC7, 0x47, 0x02, 0xEF, 0xBE],
      [0xA0, 0x00, 0x02], [0xA1, 0x34, 0x12], [0xA2, 0x34, 0x12], [0xA3, 0x00, 0x10]].map (dec s16) =
    [Instr.movR8Imm .esp 0x12, .movRImm .edi 0x500, .movRm8Imm (.mem (.abs16 0x1000)) 0x55,
      .movRmImm (.mem (.based16 .bx (.d8 2))) 0xBEEF, .movAlMoffs 0x200, .movEaxMoffs 0x1234,
      .movMoffsAl 0x1234, .movMoffsEax 0x1000].map some := by decide

theorem test_decode_strings_ports :
    [[0xA4], [0xA5], [0xAA], [0xAB], [0b10101100], [0xAD], [0b11100100, 0x60], [0xE5, 0x10], [0xE6, 0x80],
      [0xE7, 0x81], [0xEC], [0xED], [0xEE], [0xEF]].map (dec s16) =
    [Instr.movsb, .movsw, .stosb, .stosw, .lodsb, .lodsw, .inAlImm 0x60, .inEaxImm 0x10, .outImmAl 0x80,
      .outImmEax 0x81, .inAlDx, .inEaxDx, .outDxAl, .outDxEax].map some := by decide

theorem test_decode_transfers :
    [[0x9A, 0x00, 0x01, 0x00, 0x20], [0xC3], [0xCB], [0xCC], [0xCD, 0x21], [0xCE], [0xCF], [0xE0, 0x10],
      [0xE1, 0x10], [0b11100010, 0b11111110], [0xE3, 0x02], [0xE8, 0x03, 0x00], [0xE9, 0xFD, 0xFF],
      [0xEA, 0x00, 0x7C, 0x34, 0x12], [0xEB, 0xFE]].map (dec s16) =
    [Instr.callFar 0x100 0x2000, .ret, .retf, .int3, .int 0x21, .into, .iret, .loopne 0x10, .loope 0x10,
      .loop 0xFE, .jcxz 2, .callRel 3, .jmpRel 0xFFFD, .jmpFar 0x7C00 0x1234, .jmpRel8 0xFE].map some := by
  decide

theorem test_decode_system :
    [[0x90], [0xF4], [0b11110101], [0xF8], [0xF9], [0xFA], [0xFB], [0xFC], [0xFD], [0x0F], [0xFF]].map
      (dec s16) =
    [Instr.nop, .hlt, .cmc, .clc, .stc, .cli, .sti, .cld, .std, .ext 0x0F, .ext 0xFF].map some := by decide

theorem test_decode_32bit_forms :
    [[0x8B, 0x05, 0x00, 0x00, 0x01, 0x00], [0x8B, 0b01000101, 0x08], [0x8B, 0x44, 0b10101101, 0x10],
      [0x8B, 0x04, 0x1D, 0x00, 0x01, 0x00, 0x00], [0x8B, 0x84, 0xF4, 0x00, 0x00, 0x01, 0x00],
      [0xC7, 0xC3, 0x78, 0x56, 0x34, 0x12], [0xE9, 0xFB, 0xFF, 0xFF, 0xFF],
      [0xEA, 0x78, 0x56, 0x34, 0x12, 0x08, 0x00], [0xA1, 0x00, 0x02, 0x00, 0x00]].map (dec s32) =
    [Instr.movRRm .eax (.mem (.abs32 0x10000)), .movRRm .eax (.mem (.based32 .ebp (.d8 8))),
      .movRRm .eax (.mem (.sib 2 .ebp .ebp (.d8 0x10))), .movRRm .eax (.mem (.sibAbs 0 .ebx 0x100)),
      .movRRm .eax (.mem (.sib 3 .esi .esp (.d32 0x10000))), .movRmImm (.reg .ebx) 0x12345678,
      .jmpRel 0xFFFFFFFB, .jmpFar 0x12345678 8, .movEaxMoffs 0x200].map some := by decide

/-- R109's counts of the three classes: 11, 108 and 137. -/
theorem test_decode_class_counts :
    ((List.range 256).countP fun n => isExternal (BitVec.ofNat 8 n)) = 137 ∧
    ((List.range 256).countP fun n => match decode s16 [BitVec.ofNat 8 n] with
      | .ok (i, _) => i.isPrefixByte
      | .error _ => false) = 11 := by decide +kernel

theorem test_decode_truncated : decode s16 [0xB8, 0x34] = .error .truncated ∧
    decode s16 [] = .error .truncated := by decide

theorem test_decodeTableWord : decodeTableWord 16 0x8C30 = some (.udMovRm16Sreg6 0 0) ∧
    decodeTableWord 16 0xC600 = some (.movRm8Imm (.mem (.based16 .bxSi .d0)) 0) ∧
    decodeTableWord 8 0xF4 = some .hlt := by decide

/-! ## Small states -/

/-- 16-bit code at `0000:0100`, everything else as after reset (the conventions of the vectors). -/
def start : State :=
  { State.reset with cpu := { Cpu.reset with
      segs := { Cpu.reset.segs with cs := ⟨0, 0, 0x0000FFFF, 0x009B⟩ }
      eip := 0x100 } }

/-- Seed bytes. -/
def poke (a : Word32) (bs : List Byte) (s : State) : State := s.setMem (s.mem.seedBytes a bs)
/-- Set a 32-bit register. -/
def put (r : Reg) (v : Word32) (s : State) : State := s.setReg .dword r v
/-- Set the permissions of one byte. -/
def perm (a : Word32) (p : Perm) (s : State) : State := s.setMem (s.mem.setPermRange p a 1)
/-- Grant a port. -/
def grant (p : Word16) (r w : Bool) (s : State) : State :=
  { s with io := s.io.setPort p { s.io.portAt p with r := r, w := w } }
/-- Change the CPU context. -/
def onCpu (f : Cpu → Cpu) (s : State) : State := s.setCpu (f s.cpu)
/-- EFLAGS whole. -/
def eflags (v : Word32) : State → State := onCpu fun c => { c with flags := Flags.ofImage v }
/-- Protected mode with a GDT. -/
def prot (base : Word32) (limit : Word16) : State → State :=
  onCpu fun c => { c with cr := c.cr.set 0 1, gdt := ⟨base, limit⟩ }
/-- 32-bit code. -/
def code32 : State → State :=
  onCpu fun c => { c with segs := { c.segs with cs := { c.segs.cs with acc := 0x049B } } }
/-- Code at `0000:0100`. -/
def coded (bs : List Byte) : State := poke 0x100 bs start

/-- The outcome is a next state with the property. -/
def after (o : Host.Outcome State Fault Refusal) (p : State → Bool) : Bool :=
  match o with
  | .next t => p t
  | _ => false

/-- The outcome is this refusal. -/
def refusedWith (o : Host.Outcome State Fault Refusal) (r : Refusal) : Bool :=
  match o with
  | .refused q => q == r
  | _ => false

theorem eq_of_refusedWith {o : Host.Outcome State Fault Refusal} {r : Refusal} (h : refusedWith o r = true) :
    o = .refused r := by
  cases o with
  | refused q => rw [beq_iff_eq.mp h]
  | fault f => cases h
  | next t => cases h

/-- The bytes at an address. -/
def bytesAre (t : State) (a : Word32) : List Byte → Bool
  | [] => true
  | b :: bs => t.mem.byteAt a == b && bytesAre t (a + 1) bs

/-! ## Steps: data movement -/

/-- D1. -/
theorem test_movRm8R8 : after (step (coded [0x88, 0x08] |> put .ebx 0xFFFF |> put .esi 2 |> put .ecx 0x5A))
    (fun t => bytesAre t 1 [0x5A] && t.cpu.eip == 0x102) = true := by decide +kernel

/-- D2. -/
theorem test_movRmR : after (step (coded [0x89, 0xD8] |> put .eax 0xAAAA0000 |> put .ebx 0x12345678))
    (fun t => t.cpu.regs.eax == 0xAAAA5678) = true := by decide +kernel

/-- D3. -/
theorem test_movRmR_opsize :
    after (step (coded [0x66, 0x89, 0xD8] |> put .eax 0xAAAA0000 |> put .ebx 0x12345678))
    (fun t => t.cpu.regs.eax == 0x12345678 && t.cpu.eip == 0x103) = true := by decide +kernel

/-- D4. -/
theorem test_movRRm : after (step (coded [0x8B, 0x1F] |> put .ebx 0x200 |> poke 0x200 [0x34, 0x12]))
    (fun t => t.cpu.regs.ebx == 0x1234) = true := by decide +kernel

/-- D5. -/
theorem test_movR8Rm8_denied :
    after (step (coded [0x8A, 0x07] |> put .ebx 0x300 |> put .eax 0x1200 |> perm 0x300 ⟨false, true, true⟩))
    (fun t => t.cpu.regs.eax == 0x12FF && t.mem.invalid && t.stop == none) = true := by decide +kernel

/-- D7. -/
theorem test_movRm16Sreg :
    after (step (((coded [0x66, 0x8C, 0xD8]).setSeg .ds 0x1234).2 |> put .eax 0xFFFFFFFF))
    (fun t => t.cpu.regs.eax == 0xFFFF1234) = true := by decide +kernel

/-- D13. -/
theorem test_lea : after (step (coded [0x66, 0x8D, 0x38] |> put .ebx 0xFFFF |> put .esi 2 |> put .edi 0xAAAAAAAA))
    (fun t => t.cpu.regs.edi == 1 && t.cpu.effSeg == some .ds) = true := by decide +kernel

/-- The resolver table's `67 66 8D 84 F4 00 00 01 00`: `[ESP+ESI*8+0x10000]`. -/
theorem test_lea_sib :
    after (step (coded [0x67, 0x66, 0x8D, 0x84, 0xF4, 0x00, 0x00, 0x01, 0x00] |> put .esp 0x2000 |> put .esi 0x40))
    (fun t => t.cpu.regs.eax == 0x12200 && t.cpu.effSeg == some .ss && t.cpu.eip == 0x109) = true := by
  decide +kernel

/-- D16. -/
theorem test_movSregRm16 : after (step (coded [0x8E, 0xC8] |> put .eax 0x10))
    (fun t => t.cpu.segs.cs == ⟨0x10, 0x100, 0xFFFF, 0x9B⟩ && t.cpu.eip == 0x102) = true := by decide +kernel

/-- D18. -/
theorem test_movAlMoffs : after (step (coded [0xA0, 0x00, 0x02] |> poke 0x200 [0x5A]))
    (fun t => t.cpu.regs.eax == 0x5A) = true := by decide +kernel

/-- D19. -/
theorem test_movEaxMoffs : after (step (coded [0x67, 0xA1, 0x00, 0x02, 0x00, 0x00] |> poke 0x200 [0x34, 0x12]))
    (fun t => t.cpu.regs.eax == 0x1234 && t.cpu.eip == 0x106) = true := by decide +kernel

/-- R230: the byte form of D17. -/
theorem test_movMoffsAl : after (step (coded [0xA2, 0x00, 0x10] |> put .eax 0xBEEF))
    (fun t => bytesAre t 0x1000 [0xEF] && (t.mem.attrAt 0x1001).wasW == false) = true := by decide +kernel

/-- D17. -/
theorem test_movMoffsEax :
    after (step (((coded [0x26, 0xA3, 0x00, 0x10]).setSeg .es 0x2000).2 |> put .eax 0xBEEF))
    (fun t => bytesAre t 0x21000 [0xEF, 0xBE] && t.cpu.eip == 0x104) = true := by decide +kernel

/-- D20. -/
theorem test_movR8Imm : after (step (coded [0xB4, 0x12] |> put .eax 0xFFFFFFFF))
    (fun t => t.cpu.regs.eax == 0xFFFF12FF) = true := by decide +kernel

/-- D21. -/
theorem test_movRImm : after (step (coded [0xBF, 0x00, 0x05] |> put .edi 0xFFFFFFFF))
    (fun t => t.cpu.regs.edi == 0xFFFF0500) = true := by decide +kernel

/-- D22. -/
theorem test_movRmImm : after (step (coded [0xC7, 0x47, 0x02, 0xEF, 0xBE] |> put .ebx 0x300))
    (fun t => bytesAre t 0x302 [0xEF, 0xBE] && t.cpu.eip == 0x105) = true := by decide +kernel

/-- D23, and P6's first step. -/
theorem test_movRm8Imm_denied :
    after (step (coded [0xC6, 0x06, 0x00, 0x10, 0x55] |> poke 0x1000 [0xAA] |> perm 0x1000 ⟨true, false, false⟩))
    (fun t => bytesAre t 0x1000 [0xAA] && (t.mem.attrAt 0x1000).invalid && t.mem.invalid &&
      t.stop == some .halted && t.cpu.eip == 0x105) = true := by decide +kernel

/-! ## Steps: stack -/

/-- K1. -/
theorem test_push_sp : after (step (coded [0x54] |> put .esp 0x100))
    (fun t => bytesAre t 0xFE [0x00, 0x01] && t.cpu.regs.esp == 0xFE) = true := by decide +kernel

/-- K4. -/
theorem test_push_wraps : after (step (coded [0x50] |> put .esp 1 |> put .eax 0x1234))
    (fun t => bytesAre t 0xFFFF [0x34, 0x12] && t.cpu.regs.esp == 0xFFFF) = true := by decide +kernel

/-- K2. -/
theorem test_pop_sp : after (step (coded [0x5C] |> put .esp 0xFE |> poke 0xFE [0x00, 0x20]))
    (fun t => t.cpu.regs.esp == 0x2000) = true := by decide +kernel

/-- K6. -/
theorem test_pushf : after (step (coded [0x9C] |> put .esp 0x100))
    (fun t => bytesAre t 0xFE [0x02, 0x00]) = true := by decide +kernel

/-- K8. -/
theorem test_popf : after (step (coded [0x66, 0x9D] |> put .esp 0x200 |> poke 0x200 [0xFF, 0xFF, 0xFF, 0xFF]))
    (fun t => t.cpu.flags.image == 0xFD7 && t.cpu.regs.esp == 0x204) = true := by decide +kernel

/-- K11. -/
theorem test_pushEs : after (step (((coded [0x66, 0x06]).setSeg .es 0xABCD).2 |> put .esp 0x100))
    (fun t => bytesAre t 0xFC [0xCD, 0xAB, 0, 0]) = true := by decide +kernel

/-- R243 to R245: each pushes its own selector. -/
theorem test_pushCs : after (step ((((coded [0x0E]).setSeg .ss 0x1111).2.setSeg .ds 0x2222).2 |> put .esp 0x100))
    (fun t => bytesAre t 0x1120E [0, 0]) = true := by decide +kernel
theorem test_pushSs : after (step (((coded [0x16]).setSeg .ss 0x1111).2 |> put .esp 0x100))
    (fun t => bytesAre t 0x1120E [0x11, 0x11]) = true := by decide +kernel
theorem test_pushDs : after (step (((coded [0x1E]).setSeg .ds 0x2222).2 |> put .esp 0x100))
    (fun t => bytesAre t 0xFE [0x22, 0x22]) = true := by decide +kernel

/-- K12. -/
theorem test_popSs : after (step (coded [0x17] |> put .esp 0xFE |> poke 0xFE [0x00, 0x30]))
    (fun t => t.cpu.segs.ss == ⟨0x3000, 0x30000, 0xFFFF, 0x93⟩ && t.cpu.regs.esp == 0x100) = true := by
  decide +kernel

/-- R246 and R248: each loads its own register. -/
theorem test_popEs : after (step (coded [0x07] |> put .esp 0x400 |> poke 0x400 [0x00, 0x30]))
    (fun t => t.cpu.segs.es.sel == 0x3000 && t.cpu.segs.ds.sel == 0) = true := by decide +kernel
theorem test_popDs : after (step (coded [0x1F] |> put .esp 0x400 |> poke 0x400 [0x00, 0x30]))
    (fun t => t.cpu.segs.ds.sel == 0x3000 && t.cpu.segs.es.sel == 0) = true := by decide +kernel

/-! ## Steps: strings and ports -/

/-- T2. -/
theorem test_rep_movsb_overlap :
    after (step (coded [0xF3, 0xA4] |> put .ecx 4 |> put .esi 0x200 |> put .edi 0x201 |>
      poke 0x200 [0x11, 0x22, 0x33, 0x44, 0x55]))
    (fun t => bytesAre t 0x200 [0x11, 0x11, 0x11, 0x11, 0x11] && t.cpu.regs.ecx == 0 &&
      t.cpu.regs.esi == 0x204 && t.cpu.icount == 1) = true := by decide +kernel

/-- T4. -/
theorem test_rep_zero : after (step (coded [0xF3, 0xA4] |> put .esi 0x200 |> put .edi 0x300))
    (fun t => t.cpu.regs.esi == 0x200 && t.cpu.eip == 0x102 && !t.mem.invalid) = true := by decide +kernel

/-- T3, the second step. -/
theorem test_movsw_down :
    after (step (coded [0xA5] |> eflags 0x402 |> put .esi 0x200 |> put .edi 0x300 |> poke 0x200 [0x34, 0x12]))
    (fun t => bytesAre t 0x300 [0x34, 0x12] && t.cpu.regs.esi == 0x1FE && t.cpu.regs.edi == 0x2FE) = true := by
  decide +kernel

/-- T7. -/
theorem test_rep_stosb_denied :
    after (step (coded [0xF3, 0xAA] |> put .ecx 4 |> put .edi 0xFFE |> put .eax 0x77 |> poke 0x1000 [0xAA] |>
      perm 0x1000 ⟨true, false, false⟩))
    (fun t => bytesAre t 0xFFE [0x77, 0x77, 0xAA, 0x77] && t.cpu.regs.edi == 0x1002 &&
      t.cpu.regs.ecx == 0 && t.stop == some .halted) = true := by decide +kernel

/-- T8. -/
theorem test_stosd : after (step (coded [0x66, 0xAB] |> put .eax 0x12345678 |> put .edi 0x300))
    (fun t => bytesAre t 0x300 [0x78, 0x56, 0x34, 0x12] && t.cpu.regs.edi == 0x304) = true := by decide +kernel

/-- T10. -/
theorem test_rep_lodsb :
    after (step (coded [0xF3, 0xAC] |> put .ecx 3 |> put .esi 0x200 |> poke 0x200 [0x11, 0x22, 0x33]))
    (fun t => t.cpu.regs.eax == 0x33 && t.cpu.regs.esi == 0x203 && t.cpu.regs.ecx == 0) = true := by decide +kernel

/-- R256, in the word width. -/
theorem test_lodsw : after (step (coded [0xAD] |> put .esi 0x200 |> poke 0x200 [0x34, 0x12]))
    (fun t => t.cpu.regs.eax == 0x1234 && t.cpu.regs.esi == 0x202) = true := by decide +kernel

/-- O1. -/
theorem test_in_unavailable : after (step (coded [0xE4, 0x60] |> put .eax 0x1234))
    (fun t => t.cpu.regs.eax == 0x12FF && t.io == State.reset.io) = true := by decide +kernel

/-- O7. -/
theorem test_in_dword_unavailable : after (step (coded [0x66, 0xE5, 0x10]))
    (fun t => t.cpu.regs.eax == 0xFFFFFFFF && t.cpu.eip == 0x103) = true := by decide +kernel

/-- I4: the denied port of O4 (the granted port's value is the device's). -/
theorem test_in_dx_partly_denied : after (step (coded [0xED] |> put .edx 0x10 |> grant 0x10 true false))
    (fun t => (t.io.portAt 0x11).invalid && (t.io.portAt 0x10).rdCount == 1 && (t.io.portAt 0x10).wasR &&
      (t.io.portAt 0x11).rdCount == 0) = true := by decide +kernel

/-- I2's bookkeeping. -/
theorem test_in_al_dx : after (step (coded [0xEC] |> put .edx 0x3F8 |> grant 0x3F8 true false))
    (fun t => (t.io.portAt 0x3F8).rdCount == 1 && (t.io.portAt 0x3F8).wasR && !(t.io.portAt 0x3F8).invalid) =
    true := by decide +kernel

/-- O5, with the parameter both ways. -/
theorem test_out_denied : after (step (coded [0xE6, 0x80] |> put .eax 0x99 |> grant 0x80 true false))
    (fun t => (t.io.portAt 0x80).invalid && t.io.writes == [] && t.stop == none) = true := by decide +kernel
theorem test_out_denied_halts :
    after (step { (coded [0xE6, 0x80] |> put .eax 0x99 |> grant 0x80 true false) with
      host := { State.reset.host with ioDeniedWriteHalts := true } })
    (fun t => t.io.writes == [] && t.stop == some .halted) = true := by decide +kernel

/-- O6. -/
theorem test_out_dword :
    after (step (coded [0x66, 0xEF] |> put .edx 0x40 |> put .eax 0x12345678 |> grant 0x40 false true |>
      grant 0x41 false true |> grant 0x42 false true |> grant 0x43 false true))
    (fun t => t.io.writes == [⟨0x40, .dword, 0x12345678⟩] && (t.io.portAt 0x40).wrCount == 1 &&
      (t.io.portAt 0x43).wasW && (t.io.portAt 0x43).wrCount == 0) = true := by decide +kernel

/-- R265 and R268: the write of a word and of a byte. -/
theorem test_out_eax_imm :
    after (step (coded [0xE7, 0x40] |> put .eax 0x12345678 |> grant 0x40 false true |> grant 0x41 false true))
    (fun t => t.io.writes == [⟨0x40, .word, 0x5678⟩]) = true := by decide +kernel
theorem test_out_dx_al : after (step (coded [0xEE] |> put .edx 0x80 |> put .eax 0x199 |> grant 0x80 false true))
    (fun t => t.io.writes == [⟨0x80, .byte, 0x99⟩]) = true := by decide +kernel

/-! ## Steps: control transfer -/

/-- The conditions in the order of the truth table. -/
def conds : List (Byte → Instr) :=
  [.jo, .jno, .jb, .jae, .je, .jne, .jbe, .ja, .js, .jns, .jp, .jnp, .jl, .jge, .jle, .jg]

/-- Which of the sixteen conditional jumps go from `0x100` to `0x110`, one bit each, bit 0 for `JO`. -/
def taken (fl : Word32) : List Bool :=
  conds.map fun j => after (exec (j 0x10) (eflags fl start)) fun t => t.cpu.eip == 0x110

/-- The table of 2.10, by column: no flag, CF, ZF, SF. -/
theorem test_jcc_none_cf_zf_sf :
    taken 0x002 = [false, true, false, true, false, true, false, true, false, true, false, true, false, true,
      false, true] ∧
    taken 0x003 = [false, true, true, false, false, true, true, false, false, true, false, true, false, true,
      false, true] ∧
    taken 0x042 = [false, true, false, true, true, false, true, false, false, true, false, true, false, true,
      true, false] ∧
    taken 0x082 = [false, true, false, true, false, true, false, true, true, false, false, true, true, false,
      true, false] := by decide +kernel

/-- The table of 2.10, by column: OF, PF, SF and OF, CF and ZF. -/
theorem test_jcc_of_pf_sfof_cfzf :
    taken 0x802 = [true, false, false, true, false, true, false, true, false, true, false, true, true, false,
      true, false] ∧
    taken 0x006 = [false, true, false, true, false, true, false, true, false, true, true, false, false, true,
      false, true] ∧
    taken 0x882 = [true, false, false, true, false, true, false, true, true, false, false, true, false, true,
      false, true] ∧
    taken 0x043 = [false, true, true, false, true, false, true, false, false, true, false, true, false, true,
      true, false] := by decide +kernel

/-- J1. -/
theorem test_je : after (step (coded [0x74, 0x05] |> eflags 0x42)) (fun t => t.cpu.eip == 0x107) = true ∧
    after (step (coded [0x74, 0x05])) (fun t => t.cpu.eip == 0x102) = true := by decide +kernel

/-- J2 and J3. -/
theorem test_jmpRel8_wrap :
    after (step (poke 0xFFF8 [0xEB, 0x10] start |> onCpu fun c => { c with eip := 0xFFF8 }))
      (fun t => t.cpu.eip == 0x0A) = true ∧
    after (step (poke 0xFFF8 [0x66, 0xEB, 0x10] start |> onCpu fun c => { c with eip := 0xFFF8 }))
      (fun t => t.cpu.eip == 0x1000B) = true := by decide +kernel

/-- J5. -/
theorem test_jmpRel : after (step (coded [0xE9, 0xFD, 0xFF])) (fun t => t.cpu.eip == 0x100) = true := by
  decide +kernel

/-- J7 and J8. -/
theorem test_loop : after (step (coded [0xE2, 0xFE] |> put .ecx 0xAAAA0000))
      (fun t => t.cpu.regs.ecx == 0xAAAAFFFF && t.cpu.eip == 0x100) = true ∧
    after (step (coded [0x67, 0xE2, 0xFD] |> put .ecx 0x10000))
      (fun t => t.cpu.regs.ecx == 0xFFFF && t.cpu.eip == 0x100) = true := by decide +kernel

/-- J9. -/
theorem test_loope : after (step (coded [0xE1, 0x10] |> put .ecx 2 |> eflags 0x42))
      (fun t => t.cpu.regs.ecx == 1 && t.cpu.eip == 0x112) = true ∧
    after (step (coded [0xE1, 0x10] |> put .ecx 2))
      (fun t => t.cpu.regs.ecx == 1 && t.cpu.eip == 0x102) = true := by decide +kernel

/-- J10. -/
theorem test_loopne : after (step (coded [0xE0, 0x10] |> put .ecx 2))
      (fun t => t.cpu.regs.ecx == 1 && t.cpu.eip == 0x112) = true ∧
    after (step (coded [0xE0, 0x10] |> put .ecx 1))
      (fun t => t.cpu.regs.ecx == 0 && t.cpu.eip == 0x102) = true := by decide +kernel

/-- J11 and J12. -/
theorem test_jcxz : after (step (coded [0xE3, 0x02] |> put .ecx 0x10000)) (fun t => t.cpu.eip == 0x104) = true ∧
    after (step (coded [0x67, 0xE3, 0x02] |> put .ecx 0x10000)) (fun t => t.cpu.eip == 0x103) = true := by
  decide +kernel

/-- J14. -/
theorem test_callRel : after (step (coded [0x66, 0xE8, 0, 0, 0, 0] |> put .esp 0x200))
    (fun t => bytesAre t 0x1FC [0x06, 0x01, 0, 0] && t.cpu.regs.esp == 0x1FC && t.cpu.eip == 0x106) = true := by
  decide +kernel

/-- J15. -/
theorem test_ret : after (step (coded [0xC3] |> put .esp 0x1FE |> poke 0x1FE [0x03, 0x01]))
    (fun t => t.cpu.eip == 0x103 && t.cpu.regs.esp == 0x200) = true := by decide +kernel

/-- J20: a null selector in CS. -/
theorem test_jmpFar_null : after (step (coded [0xEA, 0x00, 0x05, 0x00, 0x00] |> prot 0x1000 0x17))
    (fun t => t.cpu.segs.cs == ⟨0, 0, 0, 0⟩ && t.cpu.eip == 0x500) = true := by decide +kernel

/-- J17. -/
theorem test_callFar :
    after (step (poke 0x7C00 [0x9A, 0x00, 0x01, 0x00, 0x20] start |> put .esp 0x7C00 |>
      onCpu fun c => { c with eip := 0x7C00 }))
    (fun t => bytesAre t 0x7BFC [0x05, 0x7C, 0, 0] && t.cpu.segs.cs.base == 0x20000 && t.cpu.eip == 0x100 &&
      t.cpu.regs.esp == 0x7BFC) = true := by decide +kernel

/-- J18. -/
theorem test_retf : after (step (coded [0xCB] |> put .esp 0x7BFC |> poke 0x7BFC [0x05, 0x7C, 0, 0x20]))
    (fun t => t.cpu.segs.cs.sel == 0x2000 && t.cpu.eip == 0x7C05 && t.cpu.regs.esp == 0x7C00) = true := by
  decide +kernel

/-! ## Steps: interrupts, flags, the loop -/

/-- Y8 and Y7. -/
theorem test_into :
    after (step (coded [0xCE] |> eflags 0xA02 |> put .esp 0x200 |> poke 0x10 [0x00, 0x05, 0x00, 0x60]))
      (fun t => bytesAre t 0x1FA [0x01, 0x01, 0, 0, 0x02, 0x0A] && t.cpu.flags.image == 0x802 &&
        t.cpu.segs.cs.sel == 0x6000 && t.cpu.eip == 0x500) = true ∧
    after (step (coded [0xCE])) (fun t => t.cpu.eip == 0x101 && t.cpu.segs.cs.sel == 0) = true := by
  decide +kernel

/-- Y9. -/
theorem test_int3 :
    after (step (coded [0xCC] |> eflags 0x302 |> put .esp 0x200 |> poke 0x0C [0x00, 0x05, 0x00, 0x60]))
    (fun t => bytesAre t 0x1FA [0x01, 0x01, 0, 0, 0x02, 0x03] && t.cpu.flags.image == 2 &&
      t.cpu.segs.cs.base == 0x60000 && t.cpu.intr == none) = true := by decide +kernel

/-- X6. -/
theorem test_int_idt_base :
    after (step (coded [0xCD, 0x21] |> put .esp 0x200 |> poke 0x10084 [0x00, 0x01, 0x00, 0x20] |>
      onCpu fun c => { c with idt := ⟨0x10000, 0xFFFF⟩ }))
    (fun t => bytesAre t 0x1FA [0x02, 0x01, 0, 0, 0x02, 0] && t.cpu.segs.cs.sel == 0x2000 &&
      t.cpu.eip == 0x100) = true := by decide +kernel

/-- Y6. -/
theorem test_iretd :
    after (step (coded [0x66, 0xCF] |> put .esp 0x1F4 |>
      poke 0x1F4 [0x78, 0x56, 0x34, 0x12, 0x00, 0x10, 0xAA, 0xAA, 0x02, 0x02, 0xFF, 0xFF]))
    (fun t => t.cpu.eip == 0x12345678 && t.cpu.segs.cs.base == 0x10000 && t.cpu.flags.image == 0x202 &&
      t.cpu.regs.esp == 0x200) = true := by decide +kernel

/-- D9, D10 and D11: the same frame, whose return address is the faulting instruction. -/
theorem test_illegal :
    [[0x8C, 0xF0], [0xC6, 0x4E, 0xFE, 0x77], [0x8D, 0xC0]].all (fun bs =>
      after (step (coded bs |> put .esp 0x200 |> poke 0x18 [0x00, 0x02, 0x00, 0x30]))
        fun t => bytesAre t 0x1FA [0x00, 0x01, 0, 0, 0x02, 0] && t.cpu.segs.cs.sel == 0x3000 &&
          t.cpu.eip == 0x200) = true := by decide +kernel

/-- X1: an interrupt the host raised, with an error code. -/
theorem test_raised_fault :
    after (andThen ((poke 0x7C00 [0x90] start |> put .esp 0x7C00 |> poke 0x34 [0x00, 0x03, 0x00, 0x40] |>
      onCpu fun c => { c with eip := 0x7C00 }).hostOp (.raiseInterrupt ⟨13, .fault, true, true, 0x1234⟩)) step)
    (fun t => bytesAre t 0x7BF6 [0x34, 0x12, 0, 0, 0, 0x7C, 0, 0, 0x02, 0] && t.cpu.regs.esp == 0x7BF6 &&
      t.cpu.segs.cs.sel == 0x4000 && t.cpu.eip == 0x300 && t.cpu.icount == 1) = true := by decide +kernel

/-- X7. -/
theorem test_protected_delivery_refused :
    step (coded [0xCD, 0x21] |> prot 0x1000 0x17) = .refused .pmDeliveryUnsupported :=
  eq_of_refusedWith (by decide +kernel)

/-- Y1, each from its own start: CMC, CLC, STC, CLI, STI, CLD, STD. -/
theorem test_flag_instructions :
    [(0xF5, 0x2, 0x3), (0xF8, 0x3, 0x2), (0xF9, 0x2, 0x3), (0xFA, 0x202, 0x2), (0xFB, 0x2, 0x202),
      (0xFC, 0x402, 0x2), (0xFD, 0x2, 0x402)].all (fun p =>
      after (step (coded [p.1] |> eflags p.2.1)) fun t => t.cpu.flags.image == p.2.2 && t.cpu.eip == 0x101) =
    true := by decide +kernel

/-- L12: halted is tested before the budget. -/
theorem test_hlt_before_budget :
    after (step { coded [0xF4] with host := { State.reset.host with run := ⟨true, 1, false, true⟩ } })
    (fun t => t.stop == some .halted && t.cpu.eip == 0x101) = true := by decide +kernel

/-- L10. -/
theorem test_nop_budget :
    after (step { (coded [0x90] |> onCpu fun c => { c with icount := 5 }) with
      host := { State.reset.host with run := ⟨true, 3, false, true⟩ } })
    (fun t => t.stop == some .maxInstr && t.cpu.icount == 6) = true := by decide +kernel

/-- L1. -/
theorem test_prefix_toggles : after (step (coded [0x66, 0x66, 0xB8, 0x34, 0x12]))
    (fun t => t.cpu.regs.eax == 0x1234 && t.cpu.eip == 0x105) = true := by decide +kernel

/-- L3. -/
theorem test_last_override_wins :
    after (step (((coded [0x26, 0x2E, 0xA0, 0x00, 0x02]).setSeg .es 0x2000).2 |> poke 0x200 [0x5A] |>
      poke 0x20200 [0xA5])) (fun t => t.cpu.regs.eax == 0x5A) = true := by decide +kernel

/-- L5. -/
theorem test_lock_repne_rep : after (step (coded [0xF0, 0xF2, 0xF3, 0xB0, 0x01]))
    (fun t => t.cpu.regs.eax == 1 && t.cpu.eip == 0x105 && t.cpu.mode.repe && t.cpu.mode.repne) = true := by
  decide +kernel

/-- L6. -/
theorem test_no_handler : step (coded [0x0F]) = .refused (.noHandler 0x0F) :=
  eq_of_refusedWith (by decide +kernel)

/-- L16 and L18. -/
theorem test_code32 :
    after (step (coded [0x66, 0xB8, 0xCD, 0xAB] |> code32 |> put .eax 0x12345678))
      (fun t => t.cpu.regs.eax == 0x1234ABCD && t.cpu.eip == 0x104) = true ∧
    after (step (coded [0x8A, 0x04, 0x8B] |> code32 |> put .ebx 0x10000 |> put .ecx 1 |> poke 0x10004 [0x77]))
      (fun t => t.cpu.regs.eax == 0x77 && t.cpu.eip == 0x103) = true := by decide +kernel

/-! ## The memory and the segment resolver -/

/-- M2, M3 and M5. -/
theorem test_memory_vectors :
    ((start |> poke 0x3000 [0x11] |> perm 0x3001 ⟨false, true, true⟩).memRead .word 0x3000).1 = 0xFF11 ∧
    ((start |> poke 0xFFFFFFFF [0x34, 0x12]).memRead .word 0xFFFFFFFF).1 = 0x1234 ∧
    (let t := (start |> poke 0x1000 [0xAA, 0x00] |> perm 0x1000 ⟨true, false, false⟩).memWrite .word 0x1000 0xBEEF;
      bytesAre t 0x1000 [0xAA, 0xBE] && t.cpu.mode.halted && (t.mem.attrAt 0x1000).invalid) = true := by
  decide +kernel

/-- M7, M8 and M9: a fetch of a byte with `X` only, or without `X`. -/
theorem test_fetch_permission :
    let s (x : Bool) (p : Perm) : State := { (coded [0x90] |> perm 0x100 p) with
      host := { State.reset.host with run := ⟨false, 0, x, true⟩ } }
    ((s true ⟨false, false, true⟩).fetch 1).1 = 0x90 ∧ ((s true ⟨true, true, false⟩).fetch 1).1 = 0xFF ∧
    ((s false ⟨false, false, true⟩).fetch 1).1 = 0xFF := by decide +kernel

/-- The descriptor of R210's sixth row and the failures of its last three, and G1, G3, G4. -/
def gdtState : State :=
  start |> prot 0x1000 0x17 |> poke 0x1008 [0xFF, 0xFF, 0x00, 0x00, 0x01, 0x93, 0xCF, 0x00] |>
    poke 0x1010 [0x67, 0x00, 0x00, 0x20, 0x00, 0x89, 0x00, 0x00]

theorem test_segment_vectors :
    (let r := gdtState.setSeg .ds 8;
      r.1 && r.2.cpu.segs.ds == ⟨8, 0x10000, 0xFFFFFFFF, 0x0C93⟩) = true ∧
    (let r := gdtState.setSeg .es 0x18;
      !r.1 && r.2.cpu.segs.es == gdtState.cpu.segs.es &&
        r.2.cpu.intr == some ⟨13, .fault, true, true, 0x18⟩) = true ∧
    (gdtState.setSeg .ds 0x10).1 = false ∧
    ((gdtState |> perm 0x100D ⟨false, true, true⟩).setSeg .ds 8).1 = false := by decide +kernel

/-! ## Witnesses: the hypotheses of each statement are met -/

/-- Unwrap a next state. -/
theorem exists_of_after {o : Host.Outcome State Fault Refusal} {p : State → Bool} (h : after o p = true) :
    ∃ t, o = .next t ∧ p t = true := by
  cases o with
  | next t => exact ⟨t, rfl, h⟩
  | fault f => cases h
  | refused r => cases h

/-- The bytes at `pc`, from a check of each. -/
theorem codeBytes_of (s : State) (bs : List Byte)
    (h : s.cpu.pc.toNat + bs.length ≤ 2 ^ (8 * s.cpu.codeWidth.bytes))
    (hb : (List.range bs.length).all (fun k => bs[k]? ==
      some (s.mem.valueAt s.fetchAccess (s.cpu.segs.cs.base + s.cpu.pc + BitVec.ofNat 32 k))) = true) :
    s.CodeBytes bs := by
  refine ⟨h, fun k b hk => ?_⟩
  have hlt : k < bs.length := (List.getElem?_eq_some_iff.mp hk).1
  have := List.all_eq_true.mp hb k (List.mem_range.mpr hlt)
  rw [hk, beq_iff_eq, Option.some.injEq] at this
  exact this.symm

theorem witness_EncodeThenDecode :
    (Instr.movRmImm (.mem (.sib 3 .esp .esp (.d32 0xFFFFFFFF))) 0xFFFFFFFF).wellFormed s32 = true ∧
    (Instr.movRmImm (.mem (.based16 .bp (.d8 0))) 0xFFFF).wellFormed s16 = true ∧
    (Instr.ext 0xFF).wellFormed s16 = true := by decide

theorem witness_DecodeThenEncode :
    decode s16 [0xC7, 0x86, 0x34, 0x12, 0x78, 0x56, 0x99] =
      .ok (.movRmImm (.mem (.based16 .bp (.d16 0x1234))) 0x5678, [0x99]) := by decide

/-- One list of bytes per row of R183. -/
theorem witness_ResolverByteCounts :
    [(s16, 0#2, 6#3, [0x34, 0x12]), (s16, 0#2, 7#3, []), (s16, 1#2, 6#3, [0x80]), (s16, 2#2, 0#3, [1, 2]),
      (s32, 0#2, 5#3, [1, 2, 3, 4]), (s32, 0#2, 4#3, [0x25, 1, 2, 3, 4]), (s32, 0#2, 4#3, [0x24]),
      (s32, 0#2, 7#3, []), (s32, 1#2, 4#3, [0x25, 9]), (s32, 1#2, 5#3, [9]),
      (s32, 2#2, 4#3, [0x24, 1, 2, 3, 4]), (s32, 2#2, 5#3, [1, 2, 3, 4]), (s32, 3#2, 4#3, [])].all (fun p =>
      match (decodeRm p.1 p.2.1 p.2.2.1 fun x => .done (.movRm8R8 x .eax)).runBytes p.2.2.2 with
      | .ok (_, rest) => rest == []
      | .error _ => false) = true := by decide

/-- 16-bit code at the last offset, and 32-bit code: the two address clauses. -/
theorem witness_FetchReadsBytesAtPc : ∃ s t : State,
    (s.cpu.mode.code32 = false ∧ s.host.run.xcheck = false ∧ s.cpu.eip = 0x1234FFFF ∧
      s.cpu.segs.cs.base + (s.cpu.eip.setWidth 16).setWidth 32 = 0xFFFF) ∧
    (t.cpu.mode.code32 = true ∧ t.host.run.xcheck = true ∧ t.cpu.segs.cs.base + t.cpu.eip = 0x1234FFFF) :=
  ⟨start |> onCpu fun c => { c with eip := 0x1234FFFF },
    { (start |> onCpu fun c => { c with eip := 0x1234FFFF, mode := { c.mode with code32 := true } }) with
      host := { State.reset.host with run := ⟨false, 0, true, true⟩ } }, by decide +kernel, by decide +kernel⟩

/-- Three bytes that end exactly at the end of 16-bit code space. -/
def atEnd : State := poke 0xFFFD [0xB8, 0x34, 0x12] start |> onCpu fun c => { c with eip := 0xFFFD }

theorem witness_FetchFollowsDecode : atEnd.CodeBytes [0xB8, 0x34, 0x12] ∧
    decode atEnd.sizes [0xB8, 0x34, 0x12] = .ok (.movRImm .eax 0x1234, []) :=
  ⟨codeBytes_of _ _ (by decide +kernel) (by decide +kernel), by decide +kernel⟩

theorem witness_StepRunsDecodedInstruction : atEnd.running ∧ atEnd.host.codeCheck = false ∧
    (∀ op, [0xB8#8, 0x34, 0x12].head? = some op → atEnd.host.standard op) ∧
    atEnd.beginIteration.CodeBytes [0xB8, 0x34, 0x12] ∧
    decode atEnd.beginIteration.sizes [0xB8, 0x34, 0x12] = .ok (.movRImm .eax 0x1234, []) ∧
    (Instr.movRImm .eax 0x1234).isPrefixByte = false :=
  ⟨⟨rfl, rfl⟩, rfl, fun _ _ => rfl, codeBytes_of _ _ (by decide +kernel) (by decide +kernel), by decide +kernel,
    rfl⟩

/-- Two prefixes before a `NOP`, with the table of R149 and with a function of the host's at `90`. -/
theorem witness_StepRunsPrefixesThenInstruction : ∀ l ∈ [[], [(0x90#8, HandlerEntry.own)]], ∃ s u v : State,
    s.host.handlers = l ∧ s.running ∧ s.host.codeCheck = false ∧
    State.PrefixRun [.rep, .opSize] s.beginIteration u ∧ prefixOf 0x90 = none ∧
    ((0x90#8).toNat, v) = u.fetch 1 ∧ [Instr.rep, .opSize].length < s.beginIteration.prefixFuel := by
  intro l hl
  simp only [List.mem_cons, List.not_mem_nil, or_false] at hl
  rcases hl with rfl | rfl
  · refine ⟨coded [0xF3, 0x66, 0x90], _, _, rfl, ⟨rfl, rfl⟩, rfl, ⟨?_, _, rfl, ?_, _, rfl, rfl⟩, rfl,
      Prod.ext ?_ rfl, ?_⟩ <;> decide +kernel
  · refine ⟨{ coded [0xF3, 0x66, 0x90] with host := { State.reset.host with handlers := [(0x90, .own)] } }, _, _,
      rfl, ⟨rfl, rfl⟩, rfl, ⟨?_, _, rfl, ?_, _, rfl, rfl⟩, rfl, Prod.ext ?_ rfl, ?_⟩ <;> decide +kernel

/-- A listed table of one value gives it at every listed key. -/
theorem find?_const {α : Type} (v : α) (a : Nat) : ∀ l : List (Nat × α), (∀ p ∈ l, p.2 = v) →
    (∃ p ∈ l, p.1 = a) → Sparse.find? l a = some v
  | [], _, h => by obtain ⟨p, hp, -⟩ := h; cases hp
  | (k, w) :: t, hv, h => by
    unfold Sparse.find?
    split
    · rw [show w = v from hv (k, w) (List.mem_cons_self ..)]
    · rename_i hk
      refine find?_const v a t (fun p hp => hv p (List.mem_cons_of_mem _ hp)) ?_
      obtain ⟨p, hp, ha⟩ := h
      rcases List.mem_cons.mp hp with rfl | hp
      · exact absurd ha hk
      · exact ⟨p, hp, ha⟩

/-- 64 KB of prefix bytes. -/
@[irreducible] def prefixCells : List Host.Cell := (List.range 65536).map fun k => (k, 0x66#8)

theorem find?_prefixCells (k : Nat) (h : k < 65536) : Sparse.find? prefixCells k = some 0x66#8 := by
  unfold prefixCells
  generalize 65536 = n at h ⊢
  refine find?_const _ _ _ (fun p hp => ?_) ⟨_, List.mem_map_of_mem (List.mem_range.mpr h), rfl⟩
  obtain ⟨k, -, rfl⟩ := List.mem_map.mp hp
  rfl

/-- A state whose code segment holds nothing else. -/
def allPrefix : State := { start with mem := { State.reset.mem with data := prefixCells } }

theorem allPrefix_byte (off : Word32) (h : off.toNat < 65536) :
    allPrefix.mem.valueAt allPrefix.fetchAccess off = 0x66 := by
  show (Sparse.find? prefixCells off.toNat).getD _ = _
  rw [find?_prefixCells _ h]
  rfl

/-- Both sides of the equivalence occur: nothing but prefix bytes, and a `NOP`. -/
theorem witness_PrefixFuelRefusalIsAHang :
    (allPrefix.running ∧ allPrefix.host.codeCheck = false ∧ allPrefix.cpu.segs.cs.big = false ∧
      ∀ off : Word32, off.toNat < 65536 →
        allPrefix.mem.valueAt allPrefix.fetchAccess (allPrefix.cpu.segs.cs.base + off) = 0x66) ∧
    ((coded [0x90]).running ∧ (coded [0x90]).host.codeCheck = false ∧
      (coded [0x90]).mem.valueAt (coded [0x90]).fetchAccess ((coded [0x90]).cpu.segs.cs.base + 0x100) = 0x90) := by
  refine ⟨⟨⟨rfl, rfl⟩, rfl, rfl, fun off h => ?_⟩, ⟨rfl, rfl⟩, rfl, by decide +kernel⟩
  rw [show allPrefix.cpu.segs.cs.base + off = off from BitVec.zero_add off]
  exact allPrefix_byte off h

theorem noHooks_start : start.host.noHooks := ⟨rfl, rfl, rfl, rfl, rfl⟩

/-- Three ends of a step: goes on, halted, out of budget. -/
theorem witness_steps :
    (∃ t, step (coded [0x90]) = .next t ∧ (t.stop == none) = true) ∧
    (∃ t, step (coded [0xF4]) = .next t ∧ (t.stop == some .halted) = true) ∧
    (∃ t, step { coded [0x90] with host := { State.reset.host with run := ⟨true, 1, false, true⟩ } } = .next t ∧
      (t.stop == some .maxInstr) = true) :=
  ⟨exists_of_after (by decide +kernel), exists_of_after (by decide +kernel), exists_of_after (by decide +kernel)⟩

/-- A load of CS in 32-bit code, whose size bit the next step sees. -/
theorem witness_StepCountsAndKeepsItsStart : (coded [0x8E, 0xC8] |> code32).running ∧
    (coded [0x8E, 0xC8] |> code32).host.noHooks ∧
    ∃ t, step (coded [0x8E, 0xC8] |> code32) = .next t ∧ (t.cpu.mode.code32) = true :=
  ⟨⟨rfl, rfl⟩, ⟨rfl, rfl, rfl, rfl, rfl⟩, exists_of_after (by decide +kernel)⟩

theorem witness_StepEndsIdleWithStopTest : ∃ s t : State, s.stop = none ∧ step s = .next t ∧
    (t.stop != some .codeCheck) = true := by
  obtain ⟨t, h, ht⟩ := exists_of_after (o := step (coded [0xF4])) (p := fun t => t.stop != some .codeCheck)
    (by decide +kernel)
  exact ⟨_, t, rfl, h, ht⟩

/-- `test_run_entry` has the two kinds of run flags, one taken and one refused. -/
theorem witness_StepsThatFetchNothing : ∃ s t u : State,
    (s.running ∧ s.host.codeCheck = true) ∧ (t.stop = none ∧ t.host.run.selfmod = false) ∧ u.stop ≠ none :=
  ⟨{ start with host := { State.reset.host with codeCheck := true } },
    { start with host := { State.reset.host with run := ⟨false, 0, false, false⟩ } },
    { start with stop := some .halted }, ⟨⟨rfl, rfl⟩, rfl⟩, ⟨rfl, rfl⟩, by decide⟩

theorem witness_StepKeepsInvariant : (coded [0x90]).Inv ∧
    ∃ t, step (coded [0x90]) = .next t ∧ (t.stop == none) = true :=
  ⟨by decide +kernel, exists_of_after (by decide +kernel)⟩

/-- The fetch clause, at the address where 16-bit code ends. -/
theorem witness_ByteReadAndExecute : atEnd.cpu.segs.cs.base + atEnd.cpu.pc = 0xFFFD := by decide +kernel

/-- A dword that crosses the end of the address space. -/
theorem witness_ReadAfterWrite : ∀ i, i < Width.bytes .dword →
    (start.mem.attrAt (0xFFFFFFFE + BitVec.ofNat 32 i)).r = true ∧
    (start.mem.attrAt (0xFFFFFFFE + BitVec.ofNat 32 i)).w = true := by decide +kernel

/-- Ranges that end at the end of the address space and one past it, empty and not; a page that fits
whatever its size is, the first, and one that does not. -/
theorem witness_HostMemoryOperations :
    (0xFFFFFFFF#32).toNat + 1 ≤ 2 ^ 32 ∧ 2 ^ 32 < (0xFFFFFFFF#32).toNat + 2 ∧ (0#32).toNat + 2 ^ 32 ≤ 2 ^ 32 ∧
    (0 * Config.pageSize + Config.pageSize ≤ 2 ^ 32 ∧
      (List.replicate Config.pageSize (0x90 : Byte)).length = Config.pageSize) ∧
    ¬(2 ^ 32 * Config.pageSize + Config.pageSize ≤ 2 ^ 32) := by
  have h : Config.pageSize = Config.pageTop.toNat + 1 := rfl
  have := Config.pageTop.isLt
  refine ⟨by decide, by decide, by decide, ⟨by omega, List.length_replicate⟩, by omega⟩

/-- R71 at the boundary: a range that ends with the last byte is set, one byte more is refused. -/
theorem test_permission_range_boundary :
    after (start.hostOp (.setPerm 0xFFFFFFFE 2 ⟨false, true, false⟩)) (fun t =>
      t.mem.attrAt 0xFFFFFFFF == ⟨false, true, false, false, false, false, false⟩ &&
        t.mem.attrAt 0xFFFFFFFD == .untouched ⟨true, true, true⟩ && t.mem.attrAt 0 == .untouched ⟨true, true, true⟩) =
      true ∧
    start.hostOp (.setPerm 0xFFFFFFFE 3 ⟨false, true, false⟩) = .refused .permRangeWraps :=
  ⟨by decide +kernel, eq_of_refusedWith (by decide +kernel)⟩

/-- R61 and R43: bytes given a permission, a seed, or a plain write keep their bits under a new default
permission; an untouched byte follows it. -/
theorem test_default_permission :
    after (andThen (start.hostOp (.setPerm 0x10 1 ⟨true, true, true⟩)) fun s =>
      andThen (s.hostOp (.seed 0x20 0x90)) fun s => andThen (s.hostOp (.setByte 0x30 0x90)) fun s =>
        s.sessionOp (.setDefaultPerm ⟨true, false, false⟩)) (fun t =>
      t.mem.attrAt 0x10 == ⟨true, true, true, false, false, false, false⟩ &&
        t.mem.attrAt 0x20 == ⟨true, true, true, false, true, false, false⟩ &&
        t.mem.attrAt 0x30 == ⟨true, true, true, false, false, false, false⟩ && t.mem.byteAt 0x30 == 0x90 &&
        t.mem.attrAt 0x40 == .untouched ⟨true, false, false⟩) = true := by decide +kernel

/-- R130: an entry clears `HALTED`, keeps a pending interrupt and begins a run; refused without
`RUN.selfmod`. -/
theorem test_run_entry :
    after ({ (start.haltIf true).raise (Intr.softInt 8) with stop := some .halted }.sessionOp
        (.run ⟨true, 7, true, true⟩)) (fun t => t.cpu.mode.halted == false && t.stop == none &&
      t.cpu.intr == some (Intr.softInt 8) && t.host.run == ⟨true, 7, true, true⟩) = true ∧
    start.sessionOp (.run ⟨true, 7, true, false⟩) = .refused .selfModForbidden :=
  ⟨by decide +kernel, eq_of_refusedWith (by decide +kernel)⟩

/-- A store to a byte that lacks `W`. -/
theorem witness_StepObeysPermissions :
    (coded [0xC6, 0x06, 0x00, 0x10, 0x55] |> poke 0x1000 [0xAA] |> perm 0x1000 ⟨true, false, false⟩).host.noHooks ∧
    ∃ t, step (coded [0xC6, 0x06, 0x00, 0x10, 0x55] |> poke 0x1000 [0xAA] |> perm 0x1000 ⟨true, false, false⟩) =
      .next t ∧ (t.mem.byteAt 0x1000 == 0xAA && t.mem.invalid) = true :=
  ⟨⟨rfl, rfl, rfl, rfl, rfl⟩, exists_of_after (by decide +kernel)⟩

/-- No port granted, and the host side unavailable with a port granted. -/
theorem witness_PortsUnavailable :
    (start.io.wf ∧ ∀ q : Word16, (start.io.portAt q).r = false ∧ (start.io.portAt q).w = false) ∧
    ∃ s : State, s.io.wf ∧ s.host.ioHostOk = false ∧ (s.io.portAt 0x60).r = true :=
  ⟨⟨by decide +kernel, fun _ => ⟨rfl, rfl⟩⟩,
    { (start |> grant 0x60 true false) with host := { State.reset.host with ioHostOk := false } }, by decide +kernel,
    rfl, by decide +kernel⟩

/-- A granted and a denied port, each way. -/
theorem witness_PortByteAccess : ∃ s : State, s.ioAvail = true ∧ s.host.portRaises = false ∧
    (s.io.portAt 0xFFFF).r = true ∧ (s.io.portAt 0xFFFF).w = false ∧ (s.io.portAt 0).r = false :=
  ⟨start |> grant 0xFFFF true false, by decide +kernel, rfl, by decide +kernel⟩

/-- Whole spans that end at port `0xFFFF`, one that wraps, one with a port not granted; each way. -/
theorem witness_PortWideAccess : ∃ s : State, s.io.wf ∧ s.ioAvail = true ∧
    ((0xFFFC#16).toNat + Width.bytes .dword ≤ 0x10000 ∧ ∀ i, i < Width.bytes .dword →
      (s.io.portAt (0xFFFC + BitVec.ofNat 16 i)).r = true) ∧
    ((0xFFFC#16).toNat + Width.bytes .dword ≤ 0x10000 ∧ ∀ i, i < Width.bytes .dword →
      (s.io.portAt (0xFFFC + BitVec.ofNat 16 i)).w = true) ∧
    ¬((0xFFFD#16).toNat + Width.bytes .dword ≤ 0x10000) ∧
    ¬∀ i, i < Width.bytes .word → (s.io.portAt (0x10 + BitVec.ofNat 16 i)).r = true :=
  ⟨start |> grant 0xFFFC true true |> grant 0xFFFD true true |> grant 0xFFFE true true |> grant 0xFFFF true true |>
    grant 0x10 true true, by decide +kernel⟩

/-- Real mode; protected mode with the largest null selector. -/
theorem witness_RealAndNullSegmentLoads : start.cpu.cr[0].getLsbD 0 = false ∧
    gdtState.cpu.cr[0].getLsbD 0 = true ∧ (7#16).toNat < 8 := by decide +kernel

/-- The least selector that is not null, with the limit exactly at its descriptor's last byte. -/
theorem witness_DescriptorLoad : ∃ s : State, ∃ b : Nat → Nat, s.cpu.cr[0].getLsbD 0 = true ∧
    8 ≤ (8#16).toNat ∧ (8#16).getLsbD 2 = false ∧ (8#16).toNat / 8 * 8 + 7 ≤ s.cpu.gdt.limit.toNat ∧
    (∀ i, i < 8 → (s.mem.attrAt (s.cpu.gdt.base + BitVec.ofNat 32 ((8#16).toNat / 8 * 8 + i))).r = true ∧
      b i = (s.mem.byteAt (s.cpu.gdt.base + BitVec.ofNat 32 ((8#16).toNat / 8 * 8 + i))).toNat) ∧
    (b 5).testBit 7 = true ∧ (b 5).testBit 4 = true :=
  ⟨gdtState |> prot 0x1000 0x0F,
    fun i => ([0xFF, 0xFF, 0x00, 0x00, 0x01, 0x93, 0xCF, 0x00] : List Nat).getD i 0, by decide +kernel⟩

/-- The same through LDTR (G1). -/
theorem witness_DescriptorLoad_ldt : ∃ s : State, ∃ b : Nat → Nat, s.cpu.cr[0].getLsbD 0 = true ∧
    (0xF#16).getLsbD 2 = true ∧ (0xF#16).toNat / 8 * 8 + 7 ≤ s.cpu.ldtr.limit.toNat ∧
    (∀ i, i < 8 → (s.mem.attrAt (s.cpu.ldtr.base + BitVec.ofNat 32 ((0xF#16).toNat / 8 * 8 + i))).r = true ∧
      b i = (s.mem.byteAt (s.cpu.ldtr.base + BitVec.ofNat 32 ((0xF#16).toNat / 8 * 8 + i))).toNat) ∧
    (b 5).testBit 7 = true ∧ (b 5).testBit 4 = true :=
  ⟨start |> prot 0 0 |> (onCpu fun c => { c with ldtr := ⟨0, 0x2000, 0xF, 0x82⟩ }) |>
    poke 0x2008 [0x34, 0x12, 0x00, 0x00, 0x10, 0xF3, 0x40, 0x00],
    fun i => ([0x34, 0x12, 0x00, 0x00, 0x10, 0xF3, 0x40, 0x00] : List Nat).getD i 0, by decide +kernel⟩

/-- The four causes: out of the limit by one, a byte not readable, a system segment, not present. -/
theorem witness_SegmentLoadFailure :
    (gdtState |> prot 0x1000 0x0E).cpu.gdt.limit.toNat < (8#16).toNat / 8 * 8 + 7 ∧
    (∃ i, i < 8 ∧ ((gdtState |> perm 0x100F ⟨false, true, true⟩).mem.attrAt
      (0x1000 + BitVec.ofNat 32 ((8#16).toNat / 8 * 8 + i))).r = false) ∧
    (gdtState.mem.byteAt (0x1000 + BitVec.ofNat 32 ((0x10#16).toNat / 8 * 8 + 5))).getLsbD 4 = false ∧
    ((gdtState |> poke 0x1015 [0x13]).mem.byteAt
      (0x1000 + BitVec.ofNat 32 ((0x10#16).toNat / 8 * 8 + 5))).getLsbD 7 = false ∧
    8 ≤ (0x10#16).toNat ∧ gdtState.cpu.cr[0].getLsbD 0 = true :=
  ⟨by decide +kernel, ⟨7, by decide +kernel⟩, by decide +kernel⟩

/-- S3 and the SIB forms of R192. -/
theorem witness_OperandOffsets :
    (Mem.based16 .bxSi .d0).offset (start |> put .ebx 0xFFFF |> put .esi 2).cpu.regs = 1 ∧
    (Mem.sib 2 .ecx .ebx .d0).offset (start |> put .ebx 0x1000 |> put .ecx 3).cpu.regs = 0x100C ∧
    (Mem.sib 3 .esp .esp .d0).offset (start |> put .esp 0x2000).cpu.regs = 0x2000 := by decide +kernel

/-- An override; a stack form without one; a form that is none. -/
theorem witness_SegmentOfOperand :
    (start |> onCpu fun c => { c with segOvr := some .gs }).cpu.segOvr = some .gs ∧ start.cpu.segOvr = none ∧
    (∃ sc i b d, Mem.sib 0 .eax .esp .d0 = .sib sc i b d ∧ (b = .esp ∨ b = .ebp)) ∧
    ¬(∃ d, Mem.based32 .esp .d0 = .based32 .ebp d) :=
  ⟨rfl, rfl, ⟨_, _, _, _, rfl, .inl rfl⟩, by rintro ⟨d, h⟩; cases h⟩

/-- `AH` and its neighbours: a high view at its lowest and highest bits. -/
theorem witness_RegisterViews :
    (start |> put .eax 0x12345678).cpu.regs.read .byte .esp = 0x56 ∧
    ((start |> put .eax 0x12345678).cpu.regs.write .byte .esp 0xFF).eax = 0x1234FF78 ∧
    ((start |> put .esp 0x12345678).cpu.regs.write .word .esp 0xFFFFFFFF).esp = 0x1234FFFF := by decide +kernel

/-- A repeat prefix seen, with `C` at zero and not. -/
theorem witness_StringInstructions : ∃ s t : State, s.cpu.mode.repe = true ∧ s.reg s.cpu.adWidth .ecx = 0 ∧
    t.cpu.mode.repne = true ∧ t.reg t.cpu.adWidth .ecx = 2 :=
  ⟨start |> onCpu fun c => { c with mode := { c.mode with repe := true } },
    start |> put .ecx 0x00010002 |> onCpu fun c => { c with mode := { c.mode with repne := true } }, by decide +kernel⟩

/-- Each condition of the conditional jumps holds in one of these four states and fails in another. -/
theorem witness_ConditionalJumps :
    ((List.range 16).all fun k => [0x002, 0x8C7, 0x802, 0x043].any (fun f => (taken f).getD k false) &&
      [0x002, 0x8C7, 0x802, 0x043].any (fun f => !(taken f).getD k true)) = true := by decide +kernel

/-- The statements whose only hypotheses name a value by an equation (PrefixEffects, MovesAtOffset, Pops,
StringInstructions, PortInstructions, NearTransfers, FarTransfers, HaltAndFlagInstructions, FlagsRegister,
ByteWrite and their like): the values in this state, and in one with an operand-size prefix seen. -/
theorem witness_named_values :
    start.cpu.opWidth = .word ∧ start.cpu.adWidth = .word ∧
    (start |> onCpu fun c => { c with mode := { c.mode with data32 := true } }).cpu.opWidth = .dword ∧
    (start.cpu.segs.get (start.cpu.segOvr.getD .ds)).base + 0xFFFFFFFF = 0xFFFFFFFF ∧
    (0xFF#8).setWidth 16 = 0x00FF#16 ∧ (start |> put .edx 0x1234FFFF).cpu.regs.edx.setWidth 16 = 0xFFFF#16 ∧
    ((0x0000FFFD#32).setWidth 16).signExtend 32 = 0xFFFFFFFD#32 := by decide +kernel

/-- Counts 1 and 2, and `CX` zero with `ECX` not. -/
theorem witness_Loops : (start |> put .ecx 1).reg .word .ecx = 1 ∧ (start |> put .ecx 2).reg .word .ecx ≠ 1 ∧
    (start |> put .ecx 0x10000).reg (start |> put .ecx 0x10000).cpu.adWidth .ecx = 0 := by decide +kernel

/-- A far load that succeeds and one that fails. -/
theorem witness_FarTransfers : ((coded []).setSeg .cs 0x2000).1 = true ∧ (gdtState.setSeg .cs 0x18).1 = false := by
  decide +kernel

theorem witness_SoftwareInterrupts : (start |> eflags 0x802).cpu.flags.ovf = true ∧ start.cpu.flags.ovf = false ∧
    (start.raise (Intr.softInt 3)).cpu.intr = some ⟨3, .soft, false, false, 0⟩ := by decide +kernel

/-- A return whose CS load fails: the popped selector is past the table's limit. -/
theorem witness_InterruptReturn :
    (exec .iret (gdtState |> put .esp 0x200 |> poke 0x200 [0, 0, 0x18, 0, 0, 0]) |> fun o =>
      after o fun t => t.cpu.segs.cs == gdtState.cpu.segs.cs && t.cpu.eip == 0x100 && t.cpu.regs.esp == 0x206 &&
        t.cpu.intr == some ⟨13, .fault, true, true, 0x18⟩) = true ∧
    ((exec .iret (start |> put .esp 0x200 |> poke 0x200 [5, 1, 0, 0, 2, 2])) |> fun o =>
      after o fun t => t.cpu.eip == 0x105 && t.cpu.flags.image == 0x202) = true := by decide +kernel

/-- The three kinds of entry. -/
theorem witness_ExternalBytes : ∃ s : State, s.host.extHandler = true ∧ start.host.extHandler = false ∧
    s.host.standard 0xF4 ∧ s.host.standard 0x0F ∧ isExternal 0x0F = true ∧
    s.host.handlers.lookup 0x90 = some .own ∧ s.host.handlers.lookup 0xC3 = some .external :=
  ⟨{ start with host := { State.reset.host with extHandler := true, handlers := [(0x90, .own), (0xC3, .external)] } },
    by decide⟩

/-- R7, R149: a reference byte that the host took out of the set has no handler any more, and a prefix
before it stays one. -/
theorem test_removed_reference_byte :
    step { coded [0x66, 0x90] with host := { State.reset.host with handlers := [(0x90, .external)] } } =
      .refused (.noHandler 0x90) := eq_of_refusedWith (by decide +kernel)

/-- R7, R147: the host's own function at a reference byte is called with `pc` after the byte, its
operands not fetched: `B8` would have fetched two more. -/
theorem test_own_handler :
    let s : State := { coded [0xB8, 0x34, 0x12] with host := { State.reset.host with handlers := [(0xB8, .own)] } }
    State.prefixLoop State.handler 8 s.beginIteration =
      .next ((s.beginIteration.fetch 1).2.handlerOps (Config.extHandler 0xB8 (s.beginIteration.fetch 1).2)) ∧
    (s.beginIteration.fetch 1).2.cpu.eip = 0x101 := ⟨rfl, by decide +kernel⟩

/-- S6. -/
theorem witness_FirstRaiseWins : start.cpu.intr = none ∧
    ((start.raise (Intr.softInt 0x21)).raise (Intr.gp 8)).cpu.intr = some (Intr.softInt 0x21) := by decide +kernel

/-- With and without error code, restart and current address. -/
theorem witness_RealModeDelivery : ∃ s t : State,
    (s.cpu.intr = some ⟨13, .fault, true, true, 0x1234⟩ ∧ s.cpu.cr[0].getLsbD 0 = false ∧
      13#8 ∉ s.host.callbacks) ∧
    (t.cpu.intr = some ⟨0xFF, .soft, false, false, 0⟩ ∧ t.cpu.cr[0].getLsbD 0 = false ∧
      0xFF#8 ∉ t.host.callbacks) :=
  ⟨start.raise ⟨13, .fault, true, true, 0x1234⟩, start.raise (Intr.softInt 0xFF), by decide +kernel,
    by decide +kernel⟩

/-- Without and with the lookup, in 16-bit and in 32-bit code. -/
theorem witness_ProtectedModeDelivery : ∃ s t : State,
    (s.cpu.intr = some (Intr.softInt 0x21) ∧ s.cpu.cr[0].getLsbD 0 = true ∧ 0x21#8 ∉ s.host.callbacks ∧
      s.cpu.mode.code32 = false ∧ s.host.pmLookup = false) ∧
    (t.cpu.intr = some (Intr.gp 8) ∧ t.cpu.cr[0].getLsbD 0 = true ∧ 13#8 ∉ t.host.callbacks ∧
      t.cpu.mode.code32 = true ∧ t.host.pmLookup = true) :=
  ⟨gdtState.raise (Intr.softInt 0x21),
    { (gdtState.raise (Intr.gp 8) |> onCpu fun c => { c with mode := { c.mode with code32 := true } }) with
      host := { State.reset.host with pmLookup := true } }, by decide +kernel, by decide +kernel⟩

/-- Nothing pending; a vector with and one without a callback. -/
theorem witness_CallbackDelivery : ∃ s t : State, start.cpu.intr = none ∧
    (s.cpu.intr = some (Intr.softInt 0x21) ∧ 0x21#8 ∈ s.host.callbacks) ∧
    (t.cpu.intr = some (Intr.softInt 0x22) ∧ 0x22#8 ∉ t.host.callbacks) :=
  ⟨{ start.raise (Intr.softInt 0x21) with host := { State.reset.host with callbacks := [0x21] } },
    { start.raise (Intr.softInt 0x22) with host := { State.reset.host with callbacks := [0x21] } },
    rfl, by decide +kernel, by decide +kernel⟩

/-- The common hypotheses, and each of the four instructions in place. -/
theorem witness_InterruptTakenInItsOwnStep :
    ∀ p ∈ [([0xCC], Instr.int3), ([0xCD, 0x21], .int 0x21), ([0xCE], .into), ([0x8C, 0xF0], .udMovRm16Sreg6 3 0)],
      let s : State := coded p.1 |> eflags 0x802
      s.running ∧ s.host.noHooks ∧ s.cpu.intr = none ∧ s.cpu.cr[0].getLsbD 0 = false ∧
      s.beginIteration.CodeBytes p.1 ∧ decode s.beginIteration.sizes p.1 = .ok (p.2, []) ∧
      s.cpu.flags.ovf = true ∧ isIllegal (.udMovRm16Sreg6 3 0) = true := by
  intro p hp
  simp only [List.mem_cons, List.not_mem_nil, or_false] at hp
  rcases hp with rfl | rfl | rfl | rfl
  all_goals exact ⟨⟨rfl, rfl⟩, ⟨rfl, rfl, rfl, rfl, rfl⟩, rfl, by decide +kernel,
    codeBytes_of _ _ (by decide +kernel) (by decide +kernel), by decide +kernel, by decide +kernel, rfl⟩

/-- A soft interrupt with a stack at the end of its segment, the bytes on either side of its frame
protected. -/
def delivered : State :=
  (start |> eflags 0xA02 |> put .esp 0xABCD0002 |> perm 2 ⟨true, false, true⟩ |> perm 0xFFFB ⟨false, true, true⟩).raise
    (Intr.softInt 0x21)

theorem witness_ReturnUndoesDelivery : delivered.cpu.cr[0].getLsbD 0 = false ∧
    0x21#8 ∉ delivered.host.callbacks ∧ delivered.cpu.mode.stack32 = false ∧ delivered.cpu.mode.data32 = false ∧
    delivered.cpu.intr = some ⟨0x21, .soft, false, false, 0⟩ ∧
    (∀ k, k = 2 ∨ k = 4 ∨ k = 6 → ∀ a,
      a = (delivered.setReg .word .esp (delivered.reg .word .esp - BitVec.ofNat 32 k)).stackTop →
      (delivered.mem.attrAt a).r = true ∧ (delivered.mem.attrAt a).w = true ∧
      (delivered.mem.attrAt (a + 1)).r = true ∧ (delivered.mem.attrAt (a + 1)).w = true) ∧
    (delivered.mem.attrAt 2).w = false ∧ (delivered.mem.attrAt 0xFFFB).r = false ∧
    ∃ t u, delivered.deliver = .next t ∧ exec .iret t = .next u := by
  refine ⟨by decide +kernel, by decide +kernel, rfl, rfl, by decide +kernel, ?_, by decide +kernel, by decide +kernel,
    ?_⟩
  · rintro k (rfl | rfl | rfl) a rfl <;> decide +kernel
  obtain ⟨t, h, -⟩ := exists_of_after (o := delivered.deliver) (p := fun _ => true) (by decide +kernel)
  exact ⟨t, _, h, rfl⟩

/-- A step that loads CS in real mode. -/
theorem witness_StepKeepsRealSegments : (coded [0x8E, 0xC8]).RealSegments ∧ (coded [0x8E, 0xC8]).host.noHooks ∧
    ∃ t, step (coded [0x8E, 0xC8] |> put .eax 0x10) = .next t ∧ (t.cpu.segs.cs.base == 0x100) = true :=
  ⟨⟨by decide +kernel, fun r => by cases r <;> decide +kernel⟩, ⟨rfl, rfl, rfl, rfl, rfl⟩,
    exists_of_after (by decide +kernel)⟩

theorem witness_StepKeepsSystemRegisters : start.host.noHooks ∧
    ∃ t, step (coded [0xCC] |> put .esp 0x200 |> poke 0x0C [0x00, 0x05, 0x00, 0x60]) = .next t ∧
      (t.cpu.eip == 0x500) = true :=
  ⟨noHooks_start, exists_of_after (by decide +kernel)⟩

/-- A state of its hypotheses for the safe case and for the external byte; witness_PrefixFuelRefusalIsAHang
has the third. -/
theorem witness_RealModeStepIsSafe : (coded [0x90]).running ∧ (coded [0x90]).host.noHooks ∧
    (coded [0x90]).cpu.cr[0].getLsbD 0 = false ∧ (coded [0x90]).SafeStep ∧ isExternal 0x0F = true ∧
    step (coded [0x0F]) = .refused (.noHandler 0x0F) :=
  ⟨⟨rfl, rfl⟩, ⟨rfl, rfl, rfl, rfl, rfl⟩, by decide +kernel,
    (exists_of_after (p := fun _ => true) (by decide +kernel)).imp fun _ h => h.1, by decide, test_no_handler⟩

end Sys2Proof.Tests
end

section
/-! SUPPORT. What a fetch program can end in, and which opcode bytes end in an external instruction: the
decoder's side of the handler table (spec/30_encoding.md R109, spec/40_decode_dispatch.md R149). -/

namespace Sys2Proof

/-! ## Every end of a fetch program -/

/-- Every instruction the fetch program can end in satisfies `P`. -/
def Fetch.All (P : Instr → Prop) : Fetch → Prop
  | .done i => P i
  | .byte k => ∀ v, (k v).All P
  | .word k => ∀ v, (k v).All P
  | .dword k => ∀ v, (k v).All P

namespace Fetch

variable {P : Instr → Prop}

@[simp] theorem all_done (i : Instr) : (Fetch.done i).All P ↔ P i := .rfl

@[simp] theorem all_byte (k : Byte → Fetch) : (Fetch.byte k).All P ↔ ∀ v, (k v).All P := .rfl

@[simp] theorem all_word (k : Word16 → Fetch) : (Fetch.word k).All P ↔ ∀ v, (k v).All P := .rfl

@[simp] theorem all_dword (k : Word32 → Fetch) : (Fetch.dword k).All P ↔ ∀ v, (k v).All P := .rfl

/-- What the machine fetches is one of the program's ends. -/
theorem All.fetchRun {f : Fetch} (h : f.All P) (s : Machine.State) : P (Machine.State.fetchRun f s).1 := by
  induction f generalizing s with
  | done i => exact h
  | byte k ih => exact ih _ (h _) _
  | word k ih => exact ih _ (h _) _
  | dword k ih => exact ih _ (h _) _

@[simp] theorem all_sized (wide : Bool) {k : Word32 → Fetch} (h : ∀ v, (k v).All P) :
    (Fetch.sized wide k).All P := by
  cases wide
  · exact fun v => h _
  · exact h

@[simp] theorem all_decodePtr (sz : Sizes) {k : Word32 → Word16 → Fetch}
    (h : ∀ off sel, (k off sel).All P) : (decodePtr sz k).All P :=
  all_sized _ h

theorem all_decodeDisp16 (mod : BitVec 2) {k : Disp16 → Fetch} (h : ∀ d, (k d).All P) :
    (decodeDisp16 mod k).All P := by
  unfold decodeDisp16
  split
  · exact h _
  · split <;> exact fun v => h _

theorem all_decodeDisp32 (mod : BitVec 2) {k : Disp32 → Fetch} (h : ∀ d, (k d).All P) :
    (decodeDisp32 mod k).All P := by
  unfold decodeDisp32
  split
  · exact h _
  · split <;> exact fun v => h _

theorem all_decodeMem16 (mod : BitVec 2) (rm : BitVec 3) {k : Mem → Fetch} (h : ∀ m, (k m).All P) :
    (decodeMem16 mod rm k).All P := by
  unfold decodeMem16
  split
  · exact fun v => h _
  · exact all_decodeDisp16 mod fun d => h _

theorem all_decodeMem32 (mod : BitVec 2) (rm : BitVec 3) {k : Mem → Fetch} (h : ∀ m, (k m).All P) :
    (decodeMem32 mod rm k).All P := by
  unfold decodeMem32
  split
  · rw [all_byte]
    intro b
    split
    · exact fun v => h _
    · exact all_decodeDisp32 mod fun d => h _
  · split
    · exact fun v => h _
    · exact all_decodeDisp32 mod fun d => h _

theorem all_decodeMem (sz : Sizes) (mod : BitVec 2) (rm : BitVec 3) {k : Mem → Fetch}
    (h : ∀ m, (k m).All P) : (decodeMem sz mod rm k).All P := by
  unfold decodeMem
  split
  · exact all_decodeMem32 mod rm h
  · exact all_decodeMem16 mod rm h

theorem all_decodeRm (sz : Sizes) (mod : BitVec 2) (rm : BitVec 3) {k : Rm → Fetch}
    (h : ∀ x, (k x).All P) : (decodeRm sz mod rm k).All P := by
  unfold decodeRm
  split
  · exact h _
  · exact all_decodeMem sz mod rm fun m => h _

@[simp] theorem all_decodeModRM (sz : Sizes) {k : Reg → Rm → Fetch} (h : ∀ r x, (k r x).All P) :
    (decodeModRM sz k).All P :=
  fun _ => all_decodeRm sz _ _ fun x => h _ x

end Fetch

/-! ## External instructions -/

/-- Not an external instruction. -/
def Instr.NotExt (i : Instr) : Prop := ∀ op, i ≠ .ext op

theorem decode8C_notExt (sz : Sizes) : (decode8C sz).All Instr.NotExt := by
  rw [decode8C, Fetch.all_byte]
  intro b
  split
  · exact Fetch.all_decodeRm sz _ _ fun x => nofun
  · split <;> exact nofun

theorem decode8D_notExt (sz : Sizes) : (decode8D sz).All Instr.NotExt := by
  rw [decode8D, Fetch.all_byte]
  intro b
  split
  · exact nofun
  · exact Fetch.all_decodeMem sz _ _ fun m => nofun

theorem decode8E_notExt (sz : Sizes) : (decode8E sz).All Instr.NotExt := by
  rw [decode8E, Fetch.all_byte]
  intro b
  split
  · exact Fetch.all_decodeRm sz _ _ fun x => nofun
  · split <;> exact nofun

theorem decodeC6_notExt (sz : Sizes) : (decodeC6 sz).All Instr.NotExt := by
  rw [decodeC6, Fetch.all_byte]
  intro b
  simp only []
  split
  · exact Fetch.all_decodeRm sz _ _ fun x v => nofun
  all_goals exact nofun

theorem decodeC7_notExt (sz : Sizes) : (decodeC7 sz).All Instr.NotExt := by
  rw [decodeC7, Fetch.all_byte]
  intro b
  simp only []
  split
  · exact Fetch.all_decodeRm sz _ _ fun x => Fetch.all_sized _ fun v => nofun
  all_goals exact nofun

/-- The byte of the external instruction a program is, where it is one and fetches nothing. -/
def Fetch.externalByte? : Fetch → Option Byte
  | .done (.ext op) => some op
  | _ => none

theorem Fetch.eq_done_of_externalByte? {f : Fetch} {op : Byte} (h : f.externalByte? = some op) :
    f = .done (.ext op) := by
  unfold externalByte? at h
  split at h
  · cases h; rfl
  · cases h

/-- Of the bytes that are no prefix the external ones, and no others, have no reference handler (R109). -/
theorem externalByte?_decodeOperands (sz : Sizes) {op : Byte} (hp : prefixOf op = none) :
    (decodeOperands sz op).externalByte? = if isExternal op then some op else none := by
  obtain ⟨d, a⟩ := sz
  revert d a op
  decide +kernel

theorem prefixOf_of_isExternal {op : Byte} (h : isExternal op = true) : prefixOf op = none := by
  revert op
  decide +kernel

theorem decodeOperands_of_isExternal (sz : Sizes) {op : Byte} (h : isExternal op = true) :
    decodeOperands sz op = .done (.ext op) := by
  apply Fetch.eq_done_of_externalByte?
  rw [externalByte?_decodeOperands sz (prefixOf_of_isExternal h), if_pos h]

/-- The program of an opcode byte is the external instruction of that byte, or none of its ends is
external. -/
theorem decodeOperands_cases (sz : Sizes) (op : Byte) :
    decodeOperands sz op = .done (.ext op) ∨ (decodeOperands sz op).All Instr.NotExt := by
  unfold decodeOperands
  split <;> simp [Instr.NotExt, decode8C_notExt, decode8D_notExt, decode8E_notExt, decodeC6_notExt,
    decodeC7_notExt]

theorem decodeOperands_notExt (sz : Sizes) {op : Byte} (hp : prefixOf op = none)
    (hx : isExternal op = false) : (decodeOperands sz op).All Instr.NotExt := by
  refine (decodeOperands_cases sz op).resolve_left fun h => ?_
  have := externalByte?_decodeOperands sz hp
  simp [h, hx, Fetch.externalByte?] at this

end Sys2Proof
end

section
/-! SUPPORT. The loop's iteration and the handler table's entries, one equation each, and where the
refusal of R149 can come from. -/

namespace Sys2Proof.Machine.State

/-! ## The entries of the handler table -/

theorem exec_ext_of_handler (op : Byte) {s : State} (h : s.host.extHandler = true) :
    exec (.ext op) s = .next (s.handlerOps (Config.extHandler op s)) := by
  simp [exec, execExt, h]

theorem exec_ext_of_noHandler (op : Byte) {s : State} (h : s.host.extHandler = false) :
    exec (.ext op) s = .refused (.noHandler op) := by
  simp [exec, execExt, h]

theorem handler_own {op : Byte} {s : State} (h : s.host.handlers.lookup op = some .own) :
    handler op s = .next (s.handlerOps (Config.extHandler op s)) := by
  simp [handler, h, ownHandler]

theorem handler_external {op : Byte} {s : State} (h : s.host.handlers.lookup op = some .external) :
    handler op s = exec (.ext op) s := by
  simp [handler, h, exec]

theorem referenceHandler_of_isExternal {op : Byte} (s : State) (h : isExternal op = true) :
    referenceHandler op s = exec (.ext op) s := by
  simp [referenceHandler, decodeOperands_of_isExternal _ h, fetchRun]

theorem fetchOpcode_host (s : State) : s.fetchOpcode.2.host = s.host := rfl

/-- The entry of R149, called on the opcode fetched, runs the instruction fetched. -/
theorem handler_fetchOpcode {s : State} (hp : prefixOf s.fetchOpcode.1 = none)
    (hs : s.host.standard s.fetchOpcode.1) :
    handler s.fetchOpcode.1 s.fetchOpcode.2 = exec s.fetchInstr.1 s.fetchInstr.2 := by
  rw [handler_standard (s := s.fetchOpcode.2) hs, referenceHandler_fetchOpcode s hp]

/-! ## The iteration -/

theorem iteration_of_running (h : HandlerTable) {s : State} (hr : s.running)
    (hc : s.host.codeCheck = false) : s.iteration h = s.beginIteration.runInstr h := by
  obtain ⟨hstop, hself⟩ := hr
  simp [iteration, hstop, hself, codeCheckStep, hc]

theorem PrefixRun.host_eq {ps : List Instr} {s t : State} (h : PrefixRun ps s t) : t.host = s.host := by
  induction ps generalizing s with
  | nil => rw [h]
  | cons p ps ih =>
    obtain ⟨-, u, hu, ht⟩ := h
    exact (ih ht).trans (exec_kept hu).host

/-- With fuel for them, the loop consumes the prefix bytes and calls the table on the byte after them
(R135, R147). -/
theorem prefixLoop_of_prefixRun (h : HandlerTable) {ps : List Instr} {n : Nat} {s u : State}
    (hrun : PrefixRun ps s u) (hu : prefixOf u.fetchOpcode.1 = none) (hn : ps.length < n) :
    prefixLoop h n s = h u.fetchOpcode.1 u.fetchOpcode.2 := by
  induction ps generalizing s n with
  | nil =>
    obtain ⟨n, rfl⟩ := Nat.exists_eq_succ_of_ne_zero (Nat.ne_of_gt hn)
    rw [show u = s from hrun] at hu ⊢
    simp [prefixLoop, hu]
  | cons p ps ih =>
    obtain ⟨n, rfl⟩ := Nat.exists_eq_succ_of_ne_zero (Nat.ne_of_gt (Nat.zero_lt_of_lt hn))
    obtain ⟨hp, t, ht, hrest⟩ := hrun
    simp [prefixLoop, hp, ht, ih hrest (Nat.lt_of_succ_lt_succ hn)]

/-! ## Where a refusal for want of a handler comes from -/

theorem eq_ext_of_exec_noHandler {i : Instr} {s : State} {op : Byte}
    (h : exec i s = .refused (.noHandler op)) : i = .ext op := by
  by_cases he : ∃ o, i = .ext o
  · obtain ⟨o, rfl⟩ := he
    cases hx : s.host.extHandler with
    | true => rw [exec_ext_of_handler o hx] at h; cases h
    | false => rw [exec_ext_of_noHandler o hx] at h; cases h; rfl
  · obtain ⟨t, ht, -⟩ := exec_guest i s fun o e => he ⟨o, e⟩
    rw [ht] at h
    cases h

theorem isExternal_of_fetchInstr {s : State} {op : Byte} (hp : prefixOf s.fetchOpcode.1 = none)
    (h : s.fetchInstr.1 = .ext op) : isExternal op = true := by
  rw [fetchInstr_eq, hp] at h
  cases hx : isExternal s.fetchOpcode.1 with
  | true =>
    rw [decodeOperands_of_isExternal _ hx] at h
    cases h
    exact hx
  | false => exact absurd h ((decodeOperands_notExt _ hp hx).fetchRun _ op)

theorem isExternal_of_prefixLoop_noHandler {n : Nat} {s : State} {op : Byte} (hh : s.host.handlers = [])
    (h : prefixLoop handler n s = .refused (.noHandler op)) : isExternal op = true := by
  induction n generalizing s with
  | zero => cases h
  | succ n ih =>
    unfold prefixLoop at h
    split at h
    · next p hp =>
      obtain ⟨t, ht, gt⟩ := exec_prefix s.fetchOpcode.2 (isPrefixByte_of_prefixOf hp)
      rw [ht, andThen_next] at h
      exact ih (by rw [gt.host_eq, fetchOpcode_host, hh]) h
    · next hp =>
      rw [handler_fetchOpcode hp (by simp [HostCfg.standard, hh])] at h
      exact isExternal_of_fetchInstr hp (eq_ext_of_exec_noHandler h)

theorem deliver_ne_noHandler {s : State} (hc : s.host.callbacks = []) (op : Byte) :
    s.deliver ≠ .refused (.noHandler op) := by
  rw [deliver_noCallbacks s hc]
  cases s.cpu.intr with
  | none => exact nofun
  | some i => rcases deliverBuiltIn_cases i s with ⟨u, hu, -⟩ | ⟨hu, -⟩ <;> simp [hu]

theorem isExternal_of_step_noHandler {s : State} {op : Byte} (hr : s.running) (hh : s.host.noHooks)
    (h : step s = .refused (.noHandler op)) : isExternal op = true := by
  obtain ⟨hcode, hcall, -, -, htable⟩ := hh
  rw [step, iteration_of_running handler hr hcode] at h
  rcases andThen_eq_refused.1 h with hp | ⟨t, ht, hd⟩
  · exact isExternal_of_prefixLoop_noHandler (s := s.beginIteration) htable hp
  · rcases andThen_eq_refused.1 hd with hd | ⟨u, -, hu⟩
    · have hc : t.host.callbacks = [] := by rw [(prefixLoop_kept ht).host]; exact hcall
      exact absurd hd (deliver_ne_noHandler hc op)
    · cases hu

end Sys2Proof.Machine.State
end

section
/-! The obligations of spec/00_scope.md. -/

namespace Sys2Proof.Proofs

open Machine Machine.State

/-- Settles O9, by induction on the prefixes consumed. -/
theorem stepRunsPrefixesThenInstruction : Obligations.StepRunsPrefixesThenInstruction := by
  intro s u v ps op hr hc hrun hp hf hn
  obtain ⟨rfl, rfl⟩ : u.fetchOpcode.1 = op ∧ u.fetchOpcode.2 = v := by simp [fetchOpcode, ← hf]
  have hiter (h : HandlerTable) :
      s.iteration h = completeStep (h u.fetchOpcode.1 u.fetchOpcode.2) := by
    rw [iteration_of_running h hr hc, runInstr, prefixLoop_of_prefixRun h hrun hp hn]
  refine ⟨hiter, hiter handler, fun hs => ?_⟩
  have hu : u.host = s.host := hrun.host_eq
  rw [step, hiter, handler_fetchOpcode hp (by rwa [hu])]

/-- Settles O60: `step_cases` names every refusal without hooks, real mode rules out the one of delivery,
and only an external byte has no handler. -/
theorem realModeStepIsSafe : Obligations.RealModeStepIsSafe := by
  intro s hr hh hpe
  rcases step_cases s hr hh with ⟨u, hu, -, -⟩ | ⟨op, hop⟩ | hfuel | ⟨-, hpm⟩
  · exact .inl ⟨_, hu⟩
  · exact .inr (.inl ⟨op, isExternal_of_step_noHandler hr hh hop, hop⟩)
  · exact .inr (.inr hfuel)
  · exact absurd (hpm.symm.trans hpe) (by decide)

/-- Settles O51, one entry of the handler table at a time. -/
theorem externalBytes : Obligations.ExternalBytes := by
  intro s op
  refine ⟨exec_ext_of_handler op, exec_ext_of_noHandler op, ?reference, ?outside, handler_own,
    handler_external⟩
  case reference =>
    rintro hs _ rfl
    exact handler_standard hs
  case outside =>
    intro hs hx
    rw [handler_standard hs, referenceHandler_of_isExternal s hx]

end Sys2Proof.Proofs
end

section
/-! SUPPORT. What the host's operations on memory do, byte by byte (spec/20_memory.md R71, R72;
spec/10_state.md R43). -/

theorem Sys2Proof.Config.pageSize_pos : 0 < Sys2Proof.Config.pageSize := Nat.succ_pos _

namespace Sys2Proof.Machine.Memory

variable (m : Memory)

/-! ## Spans that do not wrap -/

theorem inSpan_iff_of_le {a : Word32} {n : Nat} (h : a.toNat + n ≤ 4294967296) (b : Word32) :
    inSpan a n b ↔ a.toNat ≤ b.toNat ∧ b.toNat < a.toNat + n := by
  unfold inSpan
  bv_omega

theorem inSpan_ofNat_of_le {first n : Nat} (hn : 0 < n) (h : first + n ≤ 4294967296) (b : Word32) :
    inSpan (BitVec.ofNat 32 first) n b ↔ first ≤ b.toNat ∧ b.toNat < first + n := by
  have hfirst : (BitVec.ofNat 32 first).toNat = first := by
    rw [BitVec.toNat_ofNat, Nat.mod_eq_of_lt (by omega)]
  rw [inSpan_iff_of_le (by rwa [hfirst]), hfirst]

/-! ## A seed and a host's write of one byte -/

@[simp] theorem seed_invalid (a : Word32) (v : Byte) : (m.seed a v).invalid = m.invalid := rfl
@[simp] theorem seed_defaultPerm (a : Word32) (v : Byte) : (m.seed a v).defaultPerm = m.defaultPerm := rfl

@[simp] theorem byteAt_seed (a b : Word32) (v : Byte) :
    (m.seed a v).byteAt b = if b = a then v else m.byteAt b := by
  rw [seed, byteAt_setAttr, byteAt_setByte]

@[simp] theorem attrAt_seed (a b : Word32) (v : Byte) :
    (m.seed a v).attrAt b = if b = a then { m.attrAt b with wasW := true } else m.attrAt b := by
  rw [seed, attrAt_setAttr, attrAt_setByte]
  by_cases h : b = a
  · rw [if_pos h, if_pos h, h]
  · rw [if_neg h, if_neg h]

@[simp] theorem touched_seed (a b : Word32) (v : Byte) :
    (m.seed a v).touched b = (decide (b = a) || m.touched b) := by
  rw [seed, touched_setAttr, touched_setByte]

@[simp] theorem byteAt_hostSetByte (a b : Word32) (v : Byte) :
    (m.hostSetByte a v).byteAt b = if b = a then v else m.byteAt b := by
  rw [hostSetByte, byteAt_setAttr, byteAt_setByte]

/-! ## A range of permissions -/

variable {m}

theorem setPermRange_unchanged (p : Perm) (a : Word32) (n : Nat) :
    (∀ b, (m.setPermRange p a n).byteAt b = m.byteAt b) ∧ (m.setPermRange p a n).invalid = m.invalid ∧
      (m.setPermRange p a n).defaultPerm = m.defaultPerm := by
  induction n generalizing m a with
  | zero => exact ⟨fun _ => rfl, rfl, rfl⟩
  | succ n ih => exact ih _

theorem attrAt_setPermRange (p : Perm) (a : Word32) {n : Nat} (hn : n ≤ 4294967296) (b : Word32) :
    (m.setPermRange p a n).attrAt b =
      if inSpan a n b then { m.attrAt b with r := p.r, w := p.w, x := p.x } else m.attrAt b := by
  induction n generalizing m a with
  | zero => rw [if_neg (inSpan_zero a b)]; rfl
  | succ n ih =>
    rw [setPermRange, ih _ (by omega), attrAt_setAttr]
    simp only [inSpan_succ a b (show n < 4294967296 by omega)]
    by_cases hb : b = a
    · subst hb; simp
    · simp [hb]

theorem touched_setPermRange (p : Perm) (a : Word32) {n : Nat} (hn : n ≤ 4294967296) (b : Word32) :
    (m.setPermRange p a n).touched b = true ↔ m.touched b = true ∨ inSpan a n b := by
  induction n generalizing m a with
  | zero => simp [setPermRange]
  | succ n ih =>
    rw [setPermRange, ih _ (by omega), touched_setAttr, inSpan_succ a b (by omega)]
    simp only [Bool.or_eq_true, decide_eq_true_eq]
    tauto

/-! ## Seeding several bytes -/

theorem seedBytes_unchanged (a : Word32) (bs : List Byte) :
    (m.seedBytes a bs).invalid = m.invalid ∧ (m.seedBytes a bs).defaultPerm = m.defaultPerm := by
  induction bs generalizing m a with
  | nil => exact ⟨rfl, rfl⟩
  | cons v bs ih => exact ih _

theorem byteAt_seedBytes_outside {a b : Word32} {bs : List Byte} (hn : bs.length ≤ 4294967296)
    (hb : ¬inSpan a bs.length b) : (m.seedBytes a bs).byteAt b = m.byteAt b := by
  induction bs generalizing m a with
  | nil => rfl
  | cons v bs ih =>
    rw [List.length_cons] at hn hb
    rw [inSpan_succ a b (by omega)] at hb
    obtain ⟨hne, hs⟩ := not_or.1 hb
    rw [seedBytes, ih (by omega) hs, byteAt_seed, if_neg hne]

/-- Each byte of the list lands at its own address: the later seeds do not come round to it. -/
theorem byteAt_seedBytes (a : Word32) {bs : List Byte} (hn : bs.length ≤ 4294967296) {i : Nat} {v : Byte}
    (hi : bs[i]? = some v) : (m.seedBytes a bs).byteAt (a + BitVec.ofNat 32 i) = v := by
  induction bs generalizing m a i with
  | nil => cases hi
  | cons w bs ih =>
    rw [List.length_cons] at hn
    cases i with
    | zero =>
      obtain rfl : w = v := by simpa using hi
      rw [BitVec.add_zero, seedBytes,
        byteAt_seedBytes_outside (by omega) (not_inSpan_self_succ a (by omega)), byteAt_seed, if_pos rfl]
    | succ i =>
      have e : a + BitVec.ofNat 32 (i + 1) = a + 1#32 + BitVec.ofNat 32 i := by
        rw [Nat.add_comm, BitVec.ofNat_add, BitVec.add_assoc]
      rw [e]
      exact ih (a + 1#32) (by omega) (by simpa using hi)

theorem attrAt_seedBytes (a : Word32) {bs : List Byte} (hn : bs.length ≤ 4294967296) (b : Word32) :
    (m.seedBytes a bs).attrAt b =
      if inSpan a bs.length b then { m.attrAt b with wasW := true } else m.attrAt b := by
  induction bs generalizing m a with
  | nil => exact (if_neg (inSpan_zero a b)).symm
  | cons v bs ih =>
    rw [List.length_cons] at hn ⊢
    rw [seedBytes, ih _ (by omega), attrAt_seed]
    simp only [inSpan_succ a b (show bs.length < 4294967296 by omega)]
    by_cases hb : b = a
    · subst hb; simp
    · simp [hb]

end Sys2Proof.Machine.Memory

namespace Sys2Proof.Machine.State

theorem hostOp_setPerm_of_le (s : State) {a : Word32} {len : Nat} (p : Perm)
    (h : a.toNat + len ≤ 4294967296) :
    s.hostOp (.setPerm a len p) = .next (s.setMem (s.mem.setPermRange p a len)) := if_pos h

theorem hostOp_setPerm_of_lt (s : State) {a : Word32} {len : Nat} (p : Perm)
    (h : 4294967296 < a.toNat + len) :
    s.hostOp (.setPerm a len p) = .refused .permRangeWraps := if_neg (Nat.not_le.2 h)

/-- A page fits where the byte after its last one is at most 2^32 (R72). -/
theorem hostOp_mapPage (s : State) (page : Nat) (bytes : List Byte) :
    s.hostOp (.mapPage page bytes) =
      if page * Config.pageSize + Config.pageSize ≤ 4294967296 ∧ bytes.length = Config.pageSize then
        .next (s.setMem (s.mem.seedBytes (BitVec.ofNat 32 (page * Config.pageSize)) bytes))
      else .refused .pageMisfit := by
  rw [hostOp, Nat.succ_mul]

end Sys2Proof.Machine.State
end

section
/-! SUPPORT. Register views and EFLAGS, bit by bit (spec/10_state.md R21, R22, R27). -/

namespace Sys2Proof.Machine

/-! ## Widths and masks -/

theorem getLsbD_mask (n : Width) {i : Nat} (hi : i < 32) :
    (mask n).getLsbD i = decide (i < 8 * n.bytes) := by
  revert i
  cases n <;> decide

theorem getLsbD_truncW (n : Width) (v : Word32) {i : Nat} (hi : i < 32) :
    (truncW n v).getLsbD i = (decide (i < 8 * n.bytes) && v.getLsbD i) := by
  rw [truncW, BitVec.getLsbD_and, getLsbD_mask n hi, Bool.and_comm]

theorem getLsbD_merge (m old v : Word32) {i : Nat} (hi : i < 32) :
    (merge m old v).getLsbD i = if m.getLsbD i then v.getLsbD i else old.getLsbD i := by
  simp only [merge, BitVec.getLsbD_or, BitVec.getLsbD_and, BitVec.getLsbD_not]
  cases m.getLsbD i <;> simp [hi]

/-! ## Views as slices -/

/-- The lowest bit of its register that a view covers (R21): 8 for AH, CH, DH and BH. -/
def viewLow (n : Width) (r : Reg) : Nat :=
  match n with
  | .byte => if (slot8 r).2 then 8 else 0
  | .word => 0
  | .dword => 0

theorem getLsbD_viewMask (n : Width) (r : Reg) {i : Nat} (hi : i < 32) :
    (viewMask n r).getLsbD i = decide (viewLow n r ≤ i ∧ i < viewLow n r + 8 * n.bytes) := by
  cases n with
  | byte =>
    revert i
    cases r <;> decide
  | word => simpa [viewMask, viewLow, mask] using getLsbD_mask .word hi
  | dword => simpa [viewMask, viewLow, mask] using getLsbD_mask .dword hi

namespace Regs

variable (g : Regs)

/-- A read takes the slice down to bit 0 and clears what lies above it. -/
theorem read_eq_slice (n : Width) (r : Reg) :
    g.read n r = truncW n (g.get (viewHome n r) >>> viewLow n r) := by
  cases n with
  | byte =>
    simp only [read, viewHome, viewLow]
    split <;> simp
  | word => simp [read, viewHome, viewLow]
  | dword => simp [read, viewHome, viewLow]

/-- A write puts the value at the slice, under the slice's mask. -/
theorem write_eq_merge (n : Width) (r : Reg) (v : Word32) :
    g.write n r v =
      g.set (viewHome n r) (merge (viewMask n r) (g.get (viewHome n r)) (v <<< viewLow n r)) := by
  cases n with
  | byte =>
    simp only [write, viewHome, viewMask, viewLow]
    split <;> simp
  | word => simp [write, viewHome, viewMask, viewLow]
  | dword => simp [write, viewHome, viewMask, viewLow, merge_dword]

theorem getLsbD_read (n : Width) (r : Reg) {i : Nat} (hi : i < 32) :
    (g.read n r).getLsbD i =
      (decide (i < 8 * n.bytes) && (g.get (viewHome n r)).getLsbD (viewLow n r + i)) := by
  rw [read_eq_slice, getLsbD_truncW n _ hi, BitVec.getLsbD_ushiftRight]

theorem getLsbD_get_write (n : Width) (r q : Reg) (v : Word32) {i : Nat} (hi : i < 32) :
    ((g.write n r v).get q).getLsbD i =
      if q = viewHome n r ∧ viewLow n r ≤ i ∧ i < viewLow n r + 8 * n.bytes then
        v.getLsbD (i - viewLow n r)
      else (g.get q).getLsbD i := by
  rw [write_eq_merge, get_set]
  by_cases hq : q = viewHome n r
  · subst hq
    rw [if_pos rfl, getLsbD_merge _ _ _ hi, getLsbD_viewMask n r hi]
    by_cases hs : viewLow n r ≤ i ∧ i < viewLow n r + 8 * n.bytes
    · simp [hs, hi, Nat.not_lt.2 hs.1, BitVec.getLsbD_eq_getElem (show i - viewLow n r < 32 by omega)]
    · simp [hs]
  · simp [hq]

end Regs

/-! ## EFLAGS -/

theorem flagBit_getLsbD (v : Word32) (k : Nat) : flagBit (v.getLsbD k) k = v &&& (1#32 <<< k) :=
  (BitVec.and_twoPow v k).symm

theorem getElem_flagBit (b : Bool) (k : Nat) {i : Nat} (hi : i < 32) :
    (flagBit b k)[i] = (b && decide (k = i)) := by
  cases b with
  | false => simp [flagBit]
  | true =>
    show (BitVec.twoPow 32 k)[i] = _
    rw [BitVec.getElem_twoPow, Bool.true_and, decide_eq_decide]
    exact eq_comm

namespace Flags

/-- EFLAGS written whole and read back: the implemented bits of the value, and bit 1 (R27). -/
theorem image_ofImage (v : Word32) : (ofImage v).image = (v &&& flagMask) ||| 0x2#32 := by
  simp only [image, ofImage, flagBit_getLsbD, BitVec.or_assoc, ← BitVec.and_or_distrib_left]
  rw [BitVec.or_comm]
  rfl

/-- The positions of the nine implemented bits (R27). -/
theorem getLsbD_image (f : Flags) :
    f.image.getLsbD 0 = f.cf ∧ f.image.getLsbD 2 = f.pf ∧ f.image.getLsbD 4 = f.af ∧
      f.image.getLsbD 6 = f.zf ∧ f.image.getLsbD 7 = f.sf ∧ f.image.getLsbD 8 = f.tf ∧
      f.image.getLsbD 9 = f.ifl ∧ f.image.getLsbD 10 = f.df ∧ f.image.getLsbD 11 = f.ovf := by
  simp [image, getElem_flagBit]

theorem ofImage_image (f : Flags) : ofImage f.image = f := by
  obtain ⟨hcf, hpf, haf, hzf, hsf, htf, hif, hdf, hof⟩ := f.getLsbD_image
  simp only [ofImage, hcf, hpf, haf, hzf, hsf, htf, hif, hdf, hof]

/-- Outside `FLAG_MASK` bit 1 alone is set (R27). -/
theorem image_and_not_flagMask (f : Flags) : f.image &&& ~~~flagMask = 0x2#32 := by
  calc f.image &&& ~~~flagMask
      = ((f.image &&& flagMask) ||| 0x2#32) &&& ~~~flagMask := by rw [← image_ofImage, ofImage_image]
    _ = (f.image &&& (flagMask &&& ~~~flagMask)) ||| (0x2#32 &&& ~~~flagMask) := by
        rw [BitVec.and_or_distrib_right, BitVec.and_assoc]
    _ = 0x2#32 := by simp [flagMask]

end Flags

end Sys2Proof.Machine
end

section
/-! SUPPORT. What every step without hooks is made of, running or not, and what guest code does to the
segment registers in real mode (spec/10_state.md R31, spec/42_segment_resolver.md R201). -/

namespace Sys2Proof.Machine

theorem Segs.get_set (g : Segs) (r q : SegReg) (v : Seg) :
    (g.set r v).get q = if q = r then v else g.get q := by
  by_cases h : q = r
  · rw [if_pos h, h, get_set_self]
  · rw [if_neg h, get_set_other g v h]

namespace State

/-! ## A step that answers a next state -/

theorem iteration_of_stopped (h : HandlerTable) {s : State} (hs : s.stop ≠ none) :
    s.iteration h = .next s := by
  unfold iteration
  split
  · rfl
  · next e => exact absurd e hs

theorem iteration_of_selfmod_false (h : HandlerTable) {s : State} (hs : s.stop = none)
    (hm : s.host.run.selfmod = false) : s.iteration h = .refused .selfModForbidden := by
  simp [iteration, hs, hm]

/-- A run in progress that steps on without hooks ran guest code between steps 1 and 2 and steps 7
and 8. -/
theorem exists_guest_of_step {s t : State} (hr : s.running) (hh : s.host.noHooks) (h : step s = .next t) :
    ∃ u, Guest s.beginIteration u ∧ t = u.endIteration := by
  rcases step_cases s hr hh with ⟨u, hu, hg, -⟩ | ⟨op, hop⟩ | hfuel | ⟨hpm, -⟩
  · exact ⟨u, hg, by rw [hu] at h; cases h; rfl⟩
  · rw [hop] at h; cases h
  · rw [hfuel] at h; cases h
  · rw [hpm] at h; cases h

/-- The same for any state: an ended run stays as it is. -/
theorem step_next_cases {s t : State} (hh : s.host.noHooks) (h : step s = .next t) :
    t = s ∨ ∃ u, Guest s.beginIteration u ∧ t = u.endIteration := by
  by_cases hs : s.stop = none
  · cases hm : s.host.run.selfmod with
    | true => exact .inr (exists_guest_of_step ⟨hs, hm⟩ hh h)
    | false => rw [step, iteration_of_selfmod_false handler hs hm] at h; cases h
  · rw [step, iteration_of_stopped handler hs] at h
    cases h
    exact .inl rfl

/-! ## The segment registers in real mode -/

/-- Every segment register has the limit and the access rights it had. -/
def SameRights (s t : State) : Prop :=
  ∀ r, (t.cpu.segs.get r).limit = (s.cpu.segs.get r).limit ∧ (t.cpu.segs.get r).acc = (s.cpu.segs.get r).acc

/-- From a state in real mode with consistent bases to another, no limit and no right changed. -/
def KeepsRealSegments (s t : State) : Prop := s.RealSegments → t.RealSegments ∧ SameRights s t

theorem KeepsRealSegments.of_eq {s t : State} (hc : t.cpu.cr = s.cpu.cr) (hs : t.cpu.segs = s.cpu.segs) :
    KeepsRealSegments s t := by
  unfold KeepsRealSegments RealSegments SameRights Cpu.pe
  rw [hc, hs]
  exact fun h => ⟨h, fun _ => ⟨rfl, rfl⟩⟩

theorem KeepsRealSegments.trans {s t u : State} (h : KeepsRealSegments s t) (g : KeepsRealSegments t u) :
    KeepsRealSegments s u := fun hs =>
  have ⟨ht, rt⟩ := h hs
  have ⟨hu, ru⟩ := g ht
  ⟨hu, fun r => ⟨(ru r).1.trans (rt r).1, (ru r).2.trans (rt r).2⟩⟩

/-- A selector load in real mode writes the selector and the base that goes with it (R201). -/
theorem keepsRealSegments_setSegReg (s : State) (r : SegReg) (v : Word16) :
    KeepsRealSegments s (s.setSegReg r { s.cpu.segs.get r with sel := v, base := v.setWidth 32 <<< 4 }) := by
  rintro ⟨hpe, hbase⟩
  refine ⟨⟨hpe, fun q => ?_⟩, fun q => ?_⟩
  · rw [setSegReg_segs, Segs.get_set]
    split
    · rfl
    · exact hbase q
  · rw [setSegReg_segs, Segs.get_set]
    split
    · next hq => rw [hq]; exact ⟨rfl, rfl⟩
    · exact ⟨rfl, rfl⟩

theorem Micro.keepsRealSegments {s t : State} (h : Micro s t) : KeepsRealSegments s t := by
  cases h with
  | segReal r v _ => exact keepsRealSegments_setSegReg s r v
  | segProtected r g hpe => exact fun hs => absurd (hpe.symm.trans hs.1) (by decide)
  | raise i => exact .of_eq (raise_cr s i) (raise_segs s i)
  | _ => exact .of_eq rfl rfl

theorem Guest.keepsRealSegments {s t : State} (h : Guest s t) : KeepsRealSegments s t :=
  h.induct (fun _ => .of_eq rfl rfl) (fun _ _ _ => .trans) (fun _ _ => Micro.keepsRealSegments)

end State

end Sys2Proof.Machine
end

section
/-! The obligations of spec/10_state.md. -/

namespace Sys2Proof.Proofs

open Machine Machine.State

/-- Settles O59: each update of guest code keeps the segment registers consistent, and a load through a
descriptor needs protected mode. -/
theorem stepKeepsRealSegments : Obligations.StepKeepsRealSegments := by
  intro s t hs hh h
  have hkeep : KeepsRealSegments s t := by
    rcases step_next_cases hh h with rfl | ⟨u, hg, rfl⟩
    · exact .of_eq rfl rfl
    · have hbegin : KeepsRealSegments s s.beginIteration := .of_eq rfl rfl
      exact (hbegin.trans hg.keepsRealSegments).trans (.of_eq rfl rfl)
  exact hkeep hs

/-- Settles O11: steps 1, 2 and 7 write these fields and guest code does not. -/
theorem stepCountsAndKeepsItsStart : Obligations.StepCountsAndKeepsItsStart := by
  intro s t hr hh h
  obtain ⟨u, hg, rfl⟩ := exists_guest_of_step hr hh h
  have hsys := hg.sameSystem
  exact ⟨congrArg (· + 1#64) hsys.icount, hsys.savedCs, hsys.savedEip, hsys.code32, hsys.stack32⟩

/-- Settles O58: guest code writes no system register. -/
theorem stepKeepsSystemRegisters : Obligations.StepKeepsSystemRegisters := by
  intro s t hh h
  rcases step_next_cases hh h with rfl | ⟨u, hg, rfl⟩
  · exact ⟨rfl, rfl, rfl, rfl, rfl⟩
  · have hsys := hg.sameSystem
    exact ⟨hsys.cr, hsys.dr, hsys.gdt, hsys.idt, hsys.ldtr⟩

/-- Settles O21, one operation of the host at a time. -/
theorem hostMemoryOperations : Obligations.HostMemoryOperations := by
  intro s a
  refine ⟨fun len p => ⟨fun h => ?perm, hostOp_setPerm_of_lt s p⟩, fun v => ?seed, ?page, fun v => ?byte,
    fun t => ?attr, fun p => ?default⟩
  case perm =>
    have hlen : len ≤ 4294967296 := by omega
    obtain ⟨hbyte, hinv, hdef⟩ := Memory.setPermRange_unchanged (m := s.mem) p a len
    refine ⟨_, hostOp_setPerm_of_le s p h, hbyte, hinv, hdef, fun b => ?_, fun b => ?_⟩
    · simp only [Memory.attrAt_setPermRange p a hlen, Memory.inSpan_iff_of_le h]
    · rw [Memory.touched_setPermRange p a hlen, Memory.inSpan_iff_of_le h]
  case seed =>
    refine ⟨_, rfl, Memory.seed_invalid _ a v, Memory.seed_defaultPerm _ a v,
      fun b => Memory.byteAt_seed _ a b v, fun b => Memory.attrAt_seed _ a b v, ?_⟩
    intro b
    rw [Memory.touched_seed, Bool.or_eq_true, decide_eq_true_eq, or_comm]
  case page =>
    rintro page bytes first rfl
    refine ⟨fun hfit => ?_, fun h => (hostOp_mapPage s page bytes).trans (if_neg h)⟩
    obtain ⟨hle, hlen⟩ := id hfit
    have hspan := Memory.inSpan_ofNat_of_le Config.pageSize_pos hle
    have hbytes : bytes.length ≤ 4294967296 := by omega
    obtain ⟨hinv, hdef⟩ :=
      Memory.seedBytes_unchanged (m := s.mem) (BitVec.ofNat 32 (page * Config.pageSize)) bytes
    refine ⟨_, (hostOp_mapPage s page bytes).trans (if_pos hfit), hinv, hdef, fun i v hi => ?_,
      fun b hb => ?_, fun b => ?_⟩
    · rw [BitVec.ofNat_add]
      exact Memory.byteAt_seedBytes _ hbytes hi
    · exact Memory.byteAt_seedBytes_outside hbytes (by rwa [hlen, hspan])
    · simp only [Memory.attrAt_seedBytes _ hbytes, hlen, hspan]
  case byte =>
    exact ⟨_, rfl, rfl, rfl, fun b => Memory.byteAt_hostSetByte _ a b v,
      fun b => Memory.attrAt_hostSetByte _ a b v⟩
  case attr =>
    exact ⟨_, rfl, rfl, rfl, fun _ => rfl, fun b => Memory.attrAt_setAttr _ a b t⟩
  case default =>
    exact ⟨_, rfl, rfl, rfl, fun _ => rfl, fun _ => rfl, fun b => Memory.attrAt_setDefaultPerm _ p b⟩

/-- Settles O31: a view is the slice of `viewHome` from `viewLow`. -/
theorem registerViews : Obligations.RegisterViews := by
  intro g n r q v i home low hi hview
  obtain ⟨rfl, rfl⟩ : home = viewHome n r ∧ low = viewLow n r := by
    rw [← Prod.mk.injEq, hview]
    cases n with
    | byte => cases r <;> rfl
    | word => rfl
    | dword => rfl
  exact ⟨g.getLsbD_read n r hi, g.getLsbD_get_write n r q v hi⟩

/-- Settles O32 from the four rules of EFLAGS. -/
theorem flagsRegister : Obligations.FlagsRegister :=
  ⟨Flags.image_ofImage, fun f => ⟨f.ofImage_image, f.image_and_not_flagMask⟩, Flags.getLsbD_image, rfl⟩

/-- Settles O15: nothing is listed in a fresh memory or port map, and reset does not halt. -/
theorem resetHasInvariant : Obligations.ResetHasInvariant := by
  refine ⟨⟨?_, ?_⟩, ⟨?_, nofun⟩, fun _ => rfl, nofun⟩
  all_goals exact ⟨.nil, nofun⟩

end Sys2Proof.Proofs
end

section
/-! SUPPORT. What every step keeps, hooks or not (spec/10_state.md R42, spec/20_memory.md R62, R75), and
what guest code keeps of the protection (R63 to R65, R77, R78). -/

namespace Sys2Proof.Machine.State

/-! ## Steps with hooks -/

theorem guest_of_deliverBuiltIn {i : Intr} {s t : State} (h : s.deliverBuiltIn i = .next t) :
    Guest s t := by
  rcases deliverBuiltIn_cases i s with ⟨u, hu, hg⟩ | ⟨hpm, -⟩
  · rw [hu] at h
    cases h
    exact hg.tail .idle
  · rw [hpm] at h
    cases h

/-- Step 6: nothing pending, the built-in path, or a callback and then the slot idle or the built-in
path. -/
theorem deliver_kept {s t : State} (h : s.deliver = .next t) : Kept s t := by
  unfold deliver at h
  split at h
  · cases h
    exact .refl s
  · split at h
    · obtain ⟨u, hu, ht⟩ := andThen_eq_next.1 h
      split at ht
      · cases ht
        exact (hostOps_kept hu).trans Micro.idle.kept
      · exact (hostOps_kept hu).trans (guest_of_deliverBuiltIn ht).kept
    · exact (guest_of_deliverBuiltIn h).kept

theorem codeCheckStep_kept {s t : State} (h : s.codeCheckStep.2 = .next t) : Kept s t := by
  unfold codeCheckStep at h
  split at h
  · exact hostOps_kept h
  · cases h
    exact .refl s

theorem exists_kept_of_runInstr {s t : State} (h : s.runInstr handler = .next t) :
    ∃ u, Kept s u ∧ t = u.endIteration := by
  obtain ⟨u, hu, hd⟩ := andThen_eq_next.1 h
  obtain ⟨v, hv, ht⟩ := andThen_eq_next.1 hd
  cases ht
  exact ⟨v, (prefixLoop_kept hu).trans (deliver_kept hv), rfl⟩

/-- A step with or without hooks: an ended run stays as it is, the callback ends the run, or the
iteration comes to steps 7 and 8. -/
theorem step_next_cases_hooks {s t : State} (h : step s = .next t) :
    t = s ∨ ∃ u, Kept s u ∧ (t = { u with stop := some .codeCheck } ∨ t = u.endIteration) := by
  by_cases hs : s.stop = none
  · cases hm : s.host.run.selfmod with
    | false => rw [step, iteration_of_selfmod_false handler hs hm] at h; cases h
    | true =>
      have hbegin : Kept s s.beginIteration := ⟨id, id, rfl, rfl⟩
      simp only [step, iteration, hs, hm, if_true] at h
      obtain ⟨u, hu, ht⟩ := andThen_eq_next.1 h
      have hcheck := hbegin.trans (codeCheckStep_kept hu)
      split at ht
      · cases ht
        exact .inr ⟨u, hcheck, .inl rfl⟩
      · obtain ⟨v, hv, rfl⟩ := exists_kept_of_runInstr ht
        exact .inr ⟨v, hcheck.trans hv, .inr rfl⟩
  · rw [step, iteration_of_stopped handler hs] at h
    cases h
    exact .inl rfl

/-- Step 8 lets the run go on only where the core is not halted (R152). -/
theorem endIteration_stopOk (s : State) : s.endIteration.stopOk := by
  show (s.countInstr.stopReason = none → s.cpu.mode.halted = false) ∧
    (s.countInstr.stopReason = some .halted → s.cpu.mode.halted = true)
  unfold stopReason
  rw [countInstr_mode]
  cases s.cpu.mode.halted with
  | true => exact ⟨nofun, fun _ => rfl⟩
  | false =>
    rw [if_neg Bool.false_ne_true]
    refine ⟨fun _ => rfl, fun h => ?_⟩
    split at h <;> cases h

/-! ## The protection under guest code -/

/-- Neither memory nor the ports lose a permission or a mark. -/
def KeepsProtection (s t : State) : Prop := s.mem.GuardedBy t.mem ∧ s.io.GuardedBy t.io

theorem KeepsProtection.refl (s : State) : KeepsProtection s s := ⟨.refl _, .refl _⟩

theorem KeepsProtection.trans {s t u : State} (h : KeepsProtection s t) (g : KeepsProtection t u) :
    KeepsProtection s u := ⟨h.1.trans g.1, h.2.trans g.2⟩

theorem Micro.keepsProtection {s t : State} (h : Micro s t) : KeepsProtection s t := by
  cases h with
  | access k a n => exact ⟨Memory.guarded_readLE _ k a n, .refl _⟩
  | write a n v => exact ⟨Memory.guarded_writeLE _ a n v, .refl _⟩
  | io io' hp _ => exact ⟨.refl _, hp⟩
  | raise i => rw [KeepsProtection, raise_mem, raise_io]; exact ⟨.refl _, .refl _⟩
  | _ => exact .refl s

theorem Guest.keepsProtection {s t : State} (h : Guest s t) : KeepsProtection s t :=
  h.induct .refl (fun _ _ _ => .trans) (fun _ _ => Micro.keepsProtection)

end Sys2Proof.Machine.State
end

section
/-! SUPPORT. Byte accesses as equations, and wide accesses cut in two (spec/20_memory.md R63 to R67). -/

namespace Sys2Proof.Machine

theorem pow_256_eq_two_pow (n : Nat) : 256 ^ n = 2 ^ (8 * n) := by rw [pow_mul]; norm_num

namespace Memory

variable (m : Memory)

/-! ## The marks of one access, as equations -/

theorem invalid_touch_eq (k : Access) (a : Word32) :
    (m.touch k a).invalid = (m.invalid || !k.permits (m.attrAt a) || !(m.attrAt a).wasW) := by
  rw [Bool.eq_iff_iff, invalid_touch]
  simp [or_assoc]

theorem invalid_writeByte_eq (a : Word32) (v : Byte) :
    (m.writeByte a v).2.invalid = (m.invalid || !(m.attrAt a).w) := by
  rw [Bool.eq_iff_iff, invalid_writeByte]
  simp

theorem attrAt_touch_other (k : Access) {a b : Word32} (h : b ≠ a) :
    (m.touch k a).attrAt b = m.attrAt b := by rw [attrAt_touch, if_neg h]

theorem attrAt_touch_self (k : Access) (a : Word32) :
    (m.touch k a).attrAt a = k.after (m.attrAt a) := by rw [attrAt_touch, if_pos rfl]

/-! ## Values -/

/-- The value of an access, most significant byte split off (R67). -/
theorem valueLE_succ_last (k : Access) (a : Word32) (n : Nat) :
    m.valueLE k a (n + 1) =
      m.valueLE k a n + (m.valueAt k (a + BitVec.ofNat 32 n)).toNat * 256 ^ n := by
  rw [valueLE_append, Nat.mul_comm]
  rfl

theorem valueLE_eq_sum (k : Access) (a : Word32) (n : Nat) :
    m.valueLE k a n =
      ((List.range n).map fun i => (m.valueAt k (a + BitVec.ofNat 32 i)).toNat * 256 ^ i).sum := by
  induction n with
  | zero => rfl
  | succ n ih => rw [valueLE_succ_last, ih, List.sum_range_succ]

/-- Bytes that are those of a number read as its low part. -/
theorem valueLE_eq_mod {m : Memory} {k : Access} {a : Word32} {n v : Nat}
    (h : ∀ i, i < n → m.valueAt k (a + BitVec.ofNat 32 i) = BitVec.ofNat 8 (v / 256 ^ i)) :
    m.valueLE k a n = v % 256 ^ n := by
  induction n with
  | zero => simp [valueLE, Nat.mod_one]
  | succ n ih =>
    rw [valueLE_succ_last, ih fun i hi => h i (Nat.lt_succ_of_lt hi), h n n.lt_succ_self, Nat.mod_pow_succ,
      Nat.mul_comm, BitVec.toNat_ofNat]

theorem setWidth_valueAt (k : Access) (a : Word32) :
    (m.valueAt k a).setWidth 32 =
      if k.permits (m.attrAt a) then (m.byteAt a).setWidth 32 else 0xFF#32 :=
  apply_ite (BitVec.setWidth 32) _ _ _

theorem toNat_valueAt (k : Access) (a : Word32) :
    (m.valueAt k a).toNat = if k.permits (m.attrAt a) then (m.byteAt a).toNat else 0xFF :=
  apply_ite BitVec.toNat _ _ _

/-! ## Two adjoining accesses -/

theorem readLE_add_snd (k : Access) (m : Memory) (a : Word32) (i j : Nat) :
    (m.readLE k a (i + j)).2 = ((m.readLE k a i).2.readLE k (a + BitVec.ofNat 32 i) j).2 := by
  induction i generalizing m a with
  | zero => simp [readLE]
  | succ i ih =>
    have e : a + BitVec.ofNat 32 (i + 1) = a + 1#32 + BitVec.ofNat 32 i := by bv_omega
    rw [Nat.succ_add, e]
    exact ih (m.touch k a) (a + 1#32)

theorem writeLE_add (m : Memory) (a : Word32) (i j v : Nat) :
    m.writeLE a (i + j) v =
      ((m.writeLE a i v).1 ||
        ((m.writeLE a i v).2.writeLE (a + BitVec.ofNat 32 i) j (v / 256 ^ i)).1,
      ((m.writeLE a i v).2.writeLE (a + BitVec.ofNat 32 i) j (v / 256 ^ i)).2) := by
  induction i generalizing m a v with
  | zero => simp [writeLE]
  | succ i ih =>
    have e : a + BitVec.ofNat 32 (i + 1) = a + 1#32 + BitVec.ofNat 32 i := by bv_omega
    have ev : v / 256 ^ (i + 1) = v / 256 / 256 ^ i := by rw [Nat.div_div_eq_div_mul, Nat.pow_succ']
    rw [Nat.succ_add, e, ev]
    simp only [writeLE, ih, Bool.or_assoc]

/-- A write takes the low bytes of its value only. -/
theorem writeLE_mod (m : Memory) (a : Word32) (n v : Nat) :
    m.writeLE a n (v % 256 ^ n) = m.writeLE a n v := by
  induction n generalizing m a v with
  | zero => rfl
  | succ n ih =>
    have hlow : BitVec.ofNat 8 (v % 256 ^ (n + 1)) = BitVec.ofNat 8 v := by
      apply BitVec.eq_of_toNat_eq
      rw [BitVec.toNat_ofNat, BitVec.toNat_ofNat, Nat.pow_succ']
      exact Nat.mod_mul_right_mod v 256 _
    have hhigh : v % 256 ^ (n + 1) / 256 = v / 256 % 256 ^ n := by
      rw [Nat.pow_succ', Nat.mod_mul_right_div_self]
    simp only [writeLE, hlow, hhigh, ih]

end Memory

namespace State

variable (s : State)

/-! ## Byte accesses -/

theorem memRead_byte (a : Word32) :
    s.memRead .byte a = ((s.mem.valueAt .read a).setWidth 32, s.setMem (s.mem.touch .read a)) := by
  simp [memRead, Width.bytes, Memory.readLE, BitVec.ofNat_toNat]

theorem memRead_byte_toNat (a : Word32) :
    (s.memRead .byte a).1.toNat = (s.mem.valueAt .read a).toNat := by
  rw [memRead_byte, BitVec.toNat_setWidth_of_le (by decide)]

theorem memWrite_byte (a v : Word32) :
    s.memWrite .byte a v =
      (s.setMem (s.mem.writeByte a (v.setWidth 8)).2).haltIf (!(s.mem.attrAt a).w) := by
  simp [memWrite, Width.bytes, Memory.writeLE, Memory.writeByte_fst]

theorem fetch_one :
    s.fetch 1 = ((s.mem.valueAt s.fetchAccess (s.cpu.segs.cs.base + s.cpu.pc)).toNat,
      (s.setMem (s.mem.touch s.fetchAccess (s.cpu.segs.cs.base + s.cpu.pc))).setCpu
        (s.cpu.advance 1)) := by
  simp [fetch, Memory.readLE]

/-! ## Wide accesses in two parts -/

theorem haltIf_haltIf (b c : Bool) : (s.haltIf b).haltIf c = s.haltIf (b || c) := by
  simp [haltIf, Bool.or_assoc]

theorem haltIf_false : s.haltIf false = s := by simp [haltIf]

/-- A read of the bytes `i` and then `j` above them, the memory left by it. -/
theorem setMem_readLE_add (a : Word32) (i j : Nat) :
    s.setMem (s.mem.readLE .read a (i + j)).2 =
      (s.setMem (s.mem.readLE .read a i).2).setMem
        ((s.setMem (s.mem.readLE .read a i).2).mem.readLE .read (a + BitVec.ofNat 32 i) j).2 := by
  rw [Memory.readLE_add_snd]
  rfl

/-- The value of a qword read is two dword values (R66, R67). -/
theorem memReadQ_fst (a : Word32) :
    (s.memReadQ a).1 = (s.memRead .dword (a + 4)).1 ++ (s.memRead .dword a).1 := by
  have hlow : s.mem.valueLE .read a 4 < 2 ^ 32 := s.mem.valueLE_lt .read a 4
  have hhigh : s.mem.valueLE .read (a + 4) 4 < 2 ^ 32 := s.mem.valueLE_lt .read (a + 4) 4
  have hsum : (s.memReadQ a).1 =
      BitVec.ofNat 64 (s.mem.valueLE .read a 4 + 256 ^ 4 * s.mem.valueLE .read (a + 4) 4) :=
    congrArg (BitVec.ofNat 64)
      ((Memory.readLE_fst .read s.mem a 8).trans (Memory.valueLE_append .read s.mem a 4 4))
  apply BitVec.eq_of_toNat_eq
  rw [hsum, memRead_fst, memRead_fst, valueAt, valueAt, BitVec.toNat_append]
  simp only [Width.bytes, BitVec.toNat_ofNat]
  rw [Nat.mod_eq_of_lt hlow, Nat.mod_eq_of_lt hhigh, ← Nat.shiftLeft_add_eq_or_of_lt hlow,
    Nat.shiftLeft_eq]
  omega

/-- A write of `n` bytes of a number, with the halt of a denied one (R65). -/
def memWriteLE (a : Word32) (n v : Nat) (s : State) : State :=
  (s.setMem (s.mem.writeLE a n v).2).haltIf (s.mem.writeLE a n v).1

theorem memWrite_eq (n : Width) (a v : Word32) : s.memWrite n a v = s.memWriteLE a n.bytes v.toNat := rfl

theorem memWriteQ_eq (a : Word32) (v : Word64) : s.memWriteQ a v = s.memWriteLE a 8 v.toNat := rfl

theorem memWriteLE_add (a : Word32) (i j v : Nat) :
    s.memWriteLE a (i + j) v =
      (s.memWriteLE a i v).memWriteLE (a + BitVec.ofNat 32 i) j (v / 256 ^ i) := by
  simp only [memWriteLE, Memory.writeLE_add, haltIf_mem, setMem_mem, ← haltIf_haltIf]
  rfl

theorem memWriteLE_mod (a : Word32) (n v : Nat) :
    s.memWriteLE a n (v % 256 ^ n) = s.memWriteLE a n v := by
  simp only [memWriteLE, Memory.writeLE_mod]

end State

end Sys2Proof.Machine
end

section
/-! SUPPORT. A permitted write and the reads after it (spec/20_memory.md R67, R85, R91). -/

namespace Sys2Proof.Machine

namespace Memory

/-- Every byte of the span may be read and written. -/
def PermitsReadWrite (m : Memory) (a : Word32) (n : Nat) : Prop :=
  ∀ i, i < n → (m.attrAt (a + BitVec.ofNat 32 i)).r = true ∧ (m.attrAt (a + BitVec.ofNat 32 i)).w = true

variable {m m' : Memory} {a : Word32} {n v : Nat}

theorem PermitsReadWrite.deniesWrite (h : m.PermitsReadWrite a n) : m.deniesWrite a n = false := by
  simp only [Memory.deniesWrite, List.any_eq_false, List.mem_range]
  exact fun i hi => by simp [(h i hi).2]

/-- A permitted write marks the bytes of the span written and changes no other bit. -/
theorem WrittenBy.attrAt (h : m.PermitsReadWrite a n) (hw : m.WrittenBy a n v m') (b : Word32) :
    m'.attrAt b = if inSpan a n b then { m.attrAt b with wasW := true } else m.attrAt b := by
  obtain ⟨hin, hout, -, -⟩ := hw
  split
  · next hb =>
    obtain ⟨i, hi, rfl⟩ := (inSpan_iff a b n).1 hb
    rw [(hin i hi).2, if_pos (h i hi).2]
  · next hb => exact (hout b hb).2

theorem WrittenBy.valueAt (h : m.PermitsReadWrite a n) (hw : m.WrittenBy a n v m') {i : Nat} (hi : i < n) :
    m'.valueAt .read (a + BitVec.ofNat 32 i) = BitVec.ofNat 8 (v / 256 ^ i) := by
  obtain ⟨hin, -, -, -⟩ := hw
  obtain ⟨hbyte, hattr⟩ := hin i hi
  obtain ⟨hr, hwr⟩ := h i hi
  rw [Memory.valueAt, hattr, hbyte, if_pos hwr, if_pos hwr]
  exact if_pos hr

/-- In a written span every byte is readable and has been written. -/
theorem WrittenBy.readable (h : m.PermitsReadWrite a n) (hw : m.WrittenBy a n v m') {b : Word32}
    (hb : inSpan a n b) : (m'.attrAt b).r = true ∧ (m'.attrAt b).wasW = true := by
  rw [hw.attrAt h, if_pos hb]
  obtain ⟨i, hi, rfl⟩ := (inSpan_iff a b n).1 hb
  exact ⟨(h i hi).1, rfl⟩

/-- A read of a span just written flags nothing. -/
theorem AccessedBy.invalid_of_written {m'' : Memory} (h : m.PermitsReadWrite a n)
    (hw : m.WrittenBy a n v m') (hr : m'.AccessedBy .read a n m'') :
    m''.invalid = m.invalid ∧ ∀ b, (m''.attrAt b).invalid = (m.attrAt b).invalid := by
  obtain ⟨-, hattr, hinv, -⟩ := hr
  constructor
  · have hclean : ¬∃ b, inSpan a n b ∧ ((m'.attrAt b).r = false ∨ (m'.attrAt b).wasW = false) := by
      rintro ⟨b, hb, hbad⟩
      obtain ⟨hbr, hbw⟩ := hw.readable h hb
      simp [hbr, hbw] at hbad
    obtain ⟨-, -, hwinv, -⟩ := hw
    rw [Bool.eq_iff_iff, hinv, hwinv, h.deniesWrite]
    simp only [Bool.false_eq_true, or_false]
    exact or_iff_left hclean
  · intro b
    rw [hattr]
    split
    · next hb =>
      obtain ⟨hbr, hbw⟩ := hw.readable h hb
      have hinv : (m'.attrAt b).invalid = (m.attrAt b).invalid := by rw [hw.attrAt h, if_pos hb]
      simp [Access.after, Access.permits, hbr, hbw, hinv]
    · next hb => rw [hw.attrAt h, if_neg hb]

end Memory

end Sys2Proof.Machine
end

section
/-! SUPPORT. The port map, port by port: who may be accessed, and what one transaction leaves
(spec/20_memory.md R75 to R78). -/

namespace Sys2Proof.Machine

theorem truncW_byte (v : Word32) : truncW .byte v = (v.setWidth 8).setWidth 32 := by
  apply BitVec.eq_of_toNat_eq
  rw [truncW_toNat, BitVec.toNat_setWidth_of_le (by decide), BitVec.toNat_setWidth]
  rfl

namespace Sparse

variable {α : Type} {l : List (Nat × α)} {a : Nat} {v : α}

theorem mem_of_find?_eq_some (h : find? l a = some v) : (a, v) ∈ l := by
  induction l with
  | nil => cases h
  | cons p t ih =>
    obtain ⟨k, w⟩ := p
    rw [find?] at h
    split at h
    · next hk => cases h; rw [hk]; exact List.mem_cons_self
    · exact List.mem_cons_of_mem _ (ih h)

theorem find?_eq_some_of_mem {bound : Nat} (hl : Sorted bound l) (h : (a, v) ∈ l) :
    find? l a = some v := by
  obtain ⟨hp, hb⟩ := hl
  induction l with
  | nil => cases h
  | cons p t ih =>
    obtain ⟨hlt, ht⟩ := List.pairwise_cons.1 hp
    rcases List.mem_cons.1 h with rfl | h
    · simp [find?]
    · have hne : p.1 ≠ a := Nat.ne_of_lt (hlt _ h)
      rw [find?, if_neg hne]
      exact ih h ht fun q hq => hb q (List.mem_cons_of_mem _ hq)

end Sparse

namespace IoMap

variable (io : IoMap)

/-! ## Availability (R76) -/

theorem portAt_of_mem {io : IoMap} (hw : io.wf) {q : Nat × PortAttr} (h : q ∈ io.ports) :
    io.portAt (BitVec.ofNat 16 q.1) = q.2 := by
  rw [portAt, BitVec.toNat_ofNat, Nat.mod_eq_of_lt (hw.1.2 q h), Sparse.find?_eq_some_of_mem hw.1 h]
  rfl

/-- Some port is granted in the list exactly where one is granted by its number. -/
theorem anyGranted_iff {io : IoMap} (hw : io.wf) :
    io.anyGranted = true ↔ ∃ p, (io.portAt p).r = true ∨ (io.portAt p).w = true := by
  simp only [anyGranted, List.any_eq_true, Bool.or_eq_true]
  constructor
  · rintro ⟨q, hq, hg⟩
    exact ⟨BitVec.ofNat 16 q.1, by rwa [portAt_of_mem hw hq]⟩
  · rintro ⟨p, hg⟩
    cases hf : Sparse.find? io.ports p.toNat with
    | none => simp [portAt, hf, PortAttr.untouched] at hg
    | some t =>
      rw [portAt, hf] at hg
      exact ⟨_, Sparse.mem_of_find?_eq_some hf, hg⟩

theorem Keeps.anyGranted {io io' : IoMap} (h : io.Keeps io') (hw : io.wf) :
    io'.anyGranted = io.anyGranted := by
  obtain ⟨⟨hports, -⟩, hwf⟩ := h
  rw [Bool.eq_iff_iff, anyGranted_iff hw, anyGranted_iff (hwf hw)]
  refine exists_congr fun p => ?_
  obtain ⟨hr, hw', -⟩ := hports p
  rw [hr, hw']

/-! ## One transaction (R77, R78) -/

@[simp] theorem markSpan_writes (d : IoDir) (p : Word16) (n : Nat) :
    (io.markSpan d p n).writes = io.writes := by
  induction n generalizing io p with
  | zero => rfl
  | succ n ih => exact ih _ _

@[simp] theorem granted_writes (d : IoDir) (p : Word16) (n : Nat) :
    (io.granted d p n).writes = io.writes := markSpan_writes io d p n

theorem granted_seq (d : IoDir) (p : Word16) (n : Nat) : (io.granted d p n).seq = io.seq + 1 := rfl

theorem portAt_markSpan (d : IoDir) (p : Word16) {n : Nat} (hn : n ≤ 65536) (r : Word16) :
    (io.markSpan d p n).portAt r =
      if (r - p).toNat < n then d.mark (io.portAt r) else io.portAt r := by
  induction n generalizing io p with
  | zero => rfl
  | succ n ih =>
    rw [markSpan, ih _ _ (by omega), portAt_setPort]
    by_cases hr : r = p
    · subst hr
      rw [if_pos rfl, if_neg (by bv_omega), if_pos (by simp)]
    · have hspan : (r - (p + 1#16)).toNat < n ↔ (r - p).toNat < n + 1 := by
        have : r - p ≠ 0#16 := fun e => hr (by bv_omega)
        bv_omega
      simp only [hr, if_false, hspan]

/-- The ports of a span that does not pass port `0xFFFF`. -/
theorem sub_toNat_lt_iff {p : Word16} {n : Nat} (h : p.toNat + n ≤ 65536) (r : Word16) :
    (r - p).toNat < n ↔ p.toNat ≤ r.toNat ∧ r.toNat < p.toNat + n := by
  bv_omega

/-- A transaction marks every port of its span and counts its first. -/
theorem portAt_granted (d : IoDir) {p : Word16} {n : Nat} (hn : 0 < n) (h : p.toNat + n ≤ 65536)
    (r : Word16) :
    (io.granted d p n).portAt r =
      if p.toNat ≤ r.toNat ∧ r.toNat < p.toNat + n then
        if r = p then d.count (d.mark (io.portAt r)) else d.mark (io.portAt r)
      else io.portAt r := by
  have hmark := io.portAt_markSpan d p (show n ≤ 65536 by omega)
  simp only [sub_toNat_lt_iff h] at hmark
  show ((io.markSpan d p n).setPort p (d.count ((io.markSpan d p n).portAt p))).portAt r = _
  rw [portAt_setPort, hmark, hmark]
  by_cases hr : r = p
  · subst hr
    simp [hn]
  · simp only [hr, if_false]

theorem wholeSpan_iff (d : IoDir) (p : Word16) (n : Nat) :
    io.wholeSpan d p n = true ↔
      p.toNat + n ≤ 65536 ∧ ∀ i, i < n → d.permits (io.portAt (p + BitVec.ofNat 16 i)) = true := by
  simp [wholeSpan]

theorem wholeSpan_one (d : IoDir) (p : Word16) : io.wholeSpan d p 1 = d.permits (io.portAt p) := by
  have : p.toNat + 1 ≤ 65536 := p.isLt
  simp [wholeSpan, this]

theorem portAt_granted_one (d : IoDir) (p r : Word16) :
    (io.granted d p 1).portAt r =
      if r ≠ p then io.portAt r else d.count (d.mark (io.portAt p)) := by
  rw [portAt_granted io d Nat.one_pos (show p.toNat + 1 ≤ 65536 from p.isLt), ite_not]
  by_cases hr : r = p
  · subst hr
    simp
  · rw [if_neg (by bv_omega), if_neg hr]

theorem portAt_flagInvalid (p r : Word16) :
    (io.flagInvalid p).portAt r =
      if r ≠ p then io.portAt r else { io.portAt p with invalid := true } := by
  rw [flagInvalid, portAt_setPort, ite_not]

theorem read_of_wholeSpan {p : Word16} {n : Width} (h : io.wholeSpan .inp p n.bytes = true) :
    io.read p n = (truncW n (Config.portAnswer io.seq), io.granted .inp p n.bytes) := if_pos h

theorem write_of_wholeSpan {p : Word16} {n : Width} (h : io.wholeSpan .out p n.bytes = true)
    (v : Word32) : io.write p n v = (false, (io.event p n v).granted .out p n.bytes) := if_pos h

theorem read_of_not_wholeSpan {p : Word16} {n : Width} (h : ¬io.wholeSpan .inp p n.bytes = true) :
    io.read p n = (BitVec.ofNat 32 (io.readLE p n.bytes).1, (io.readLE p n.bytes).2) := if_neg h

theorem write_of_not_wholeSpan {p : Word16} {n : Width} (h : ¬io.wholeSpan .out p n.bytes = true)
    (v : Word32) : io.write p n v = io.writeLE p n.bytes v.toNat := if_neg h

/-! ## Byte accesses (R77) -/

theorem readByte_fst (p : Word16) :
    (io.readByte p).1.setWidth 32 =
      if (io.portAt p).r then truncW .byte (Config.portAnswer io.seq) else 0xFF := by
  unfold readByte
  rw [truncW_byte]
  split <;> rfl

theorem readByte_writes (p : Word16) : (io.readByte p).2.writes = io.writes := by
  unfold readByte
  split
  · exact granted_writes io .inp p 1
  · rfl

theorem portAt_readByte (p r : Word16) :
    (io.readByte p).2.portAt r =
      if r ≠ p then io.portAt r
      else if (io.portAt p).r then
        { io.portAt p with wasR := true, rdCount := (io.portAt p).rdCount + 1 }
      else { io.portAt p with invalid := true } := by
  by_cases hr : (io.portAt p).r = true
  · rw [readByte, if_pos hr, if_pos hr]
    exact portAt_granted_one io .inp p r
  · rw [readByte, if_neg hr, if_neg hr]
    exact portAt_flagInvalid io p r

theorem writeByte_fst (p : Word16) (v : Byte) : (io.writeByte p v).1 = !(io.portAt p).w := by
  unfold writeByte
  split
  · next h => rw [h]; rfl
  · next h => simp [h]

theorem writeByte_writes (p : Word16) (v : Word32) :
    (io.writeByte p (v.setWidth 8)).2.writes =
      if (io.portAt p).w then ⟨p, .byte, truncW .byte v⟩ :: io.writes else io.writes := by
  unfold writeByte
  split
  · rw [granted_writes, event, ← truncW_byte, truncW_truncW]
  · rfl

theorem portAt_writeByte (p r : Word16) (v : Byte) :
    (io.writeByte p v).2.portAt r =
      if r ≠ p then io.portAt r
      else if (io.portAt p).w then
        { io.portAt p with wasW := true, wrCount := (io.portAt p).wrCount + 1 }
      else { io.portAt p with invalid := true } := by
  by_cases hw : (io.portAt p).w = true
  · rw [writeByte, if_pos hw, if_pos hw]
    exact portAt_granted_one (io.event p .byte _) .out p r
  · rw [writeByte, if_neg hw, if_neg hw]
    exact portAt_flagInvalid io p r

/-- A byte access is the same as one transaction and as a decomposed access. -/
theorem read_byte (p : Word16) :
    io.read p .byte = ((io.readByte p).1.setWidth 32, (io.readByte p).2) := by
  have hspan : io.wholeSpan .inp p Width.byte.bytes = (io.portAt p).r := wholeSpan_one io .inp p
  by_cases hr : (io.portAt p).r = true
  · rw [read_of_wholeSpan io (hspan.trans hr), readByte_fst, if_pos hr, readByte, if_pos hr]
    rfl
  · rw [read_of_not_wholeSpan io (by rwa [hspan])]
    simp [Width.bytes, readLE, BitVec.ofNat_toNat]

theorem write_byte (p : Word16) (v : Word32) :
    io.write p .byte v = io.writeByte p (v.setWidth 8) := by
  have hspan : io.wholeSpan .out p Width.byte.bytes = (io.portAt p).w := wholeSpan_one io .out p
  by_cases hw : (io.portAt p).w = true
  · rw [write_of_wholeSpan io (hspan.trans hw), writeByte, if_pos hw, event, event, ← truncW_byte,
      truncW_truncW]
    rfl
  · rw [write_of_not_wholeSpan io (by rwa [hspan])]
    simp [Width.bytes, writeLE]

/-! ## Decomposed accesses -/

/-- An update that keeps what `Keeps` says and numbers its transactions upward. -/
def Advances (io io' : IoMap) : Prop := io.Keeps io' ∧ io.seq ≤ io'.seq

theorem Advances.trans {a b c : IoMap} (h : a.Advances b) (g : b.Advances c) : a.Advances c :=
  ⟨h.1.trans g.1, h.2.trans g.2⟩

theorem advances_readByte (p : Word16) : io.Advances (io.readByte p).2 := by
  refine ⟨keeps_readByte io p, ?_⟩
  unfold readByte
  split
  · exact Nat.le_succ _
  · exact Nat.le_refl _

theorem advances_writeByte (p : Word16) (v : Byte) : io.Advances (io.writeByte p v).2 := by
  refine ⟨keeps_writeByte io p v, ?_⟩
  unfold writeByte
  split
  · exact Nat.le_succ _
  · exact Nat.le_refl _

theorem advances_readLE (p : Word16) (n : Nat) : io.Advances (io.readLE p n).2 := by
  induction n generalizing io p with
  | zero => exact ⟨.refl io, Nat.le_refl _⟩
  | succ n ih => exact (advances_readByte io p).trans (ih _ _)

theorem advances_writeLE (p : Word16) (n v : Nat) : io.Advances (io.writeLE p n v).2 := by
  induction n generalizing io p v with
  | zero => exact ⟨.refl io, Nat.le_refl _⟩
  | succ n ih => exact (advances_writeByte io p _).trans (ih _ _ _)

/-- A decomposed read, its last byte split off. -/
theorem readLE_succ_last (p : Word16) (n : Nat) :
    io.readLE p (n + 1) =
      ((io.readLE p n).1 +
        ((io.readLE p n).2.readByte (p + BitVec.ofNat 16 n)).1.toNat * 256 ^ n,
      ((io.readLE p n).2.readByte (p + BitVec.ofNat 16 n)).2) := by
  induction n generalizing io p with
  | zero => simp [readLE]
  | succ n ih =>
    have e : p + BitVec.ofNat 16 (n + 1) = p + 1#16 + BitVec.ofNat 16 n := by bv_omega
    rw [readLE, ih, e]
    simp only [readLE, Prod.mk.injEq, and_true, Nat.pow_succ]
    ring

/-- A decomposed write, its last byte split off. -/
theorem writeLE_succ_last (p : Word16) (n v : Nat) :
    io.writeLE p (n + 1) v =
      ((io.writeLE p n v).1 ||
        ((io.writeLE p n v).2.writeByte (p + BitVec.ofNat 16 n) (BitVec.ofNat 8 (v / 256 ^ n))).1,
      ((io.writeLE p n v).2.writeByte (p + BitVec.ofNat 16 n) (BitVec.ofNat 8 (v / 256 ^ n))).2) := by
  induction n generalizing io p v with
  | zero => simp [writeLE]
  | succ n ih =>
    have e : p + BitVec.ofNat 16 (n + 1) = p + 1#16 + BitVec.ofNat 16 n := by bv_omega
    have ev : v / 256 ^ (n + 1) = v / 256 / 256 ^ n := by rw [Nat.div_div_eq_div_mul, Nat.pow_succ']
    rw [writeLE, ih, e, ev]
    simp only [writeLE, Bool.or_assoc]

end IoMap

end Sys2Proof.Machine
end

section
/-! SUPPORT. Port accesses of the machine: the gate, the device's raises, and a decomposed access as a
chain of byte accesses (spec/20_memory.md R76 to R78, R348). -/

theorem Sys2Proof.Width.bytes_pos (n : Sys2Proof.Width) : 0 < n.bytes := by cases n <;> decide

namespace Sys2Proof.Machine.State

variable (s : State)

/-! ## The device's raises (R348) -/

/-- The slot after the device's raises in the transactions numbered `k` to `k + n - 1`: the first one
into an idle slot stays. -/
def deviceSlot (raises : Bool) (slot : Option Intr) (k : Nat) : Nat → Option Intr
  | 0 => slot
  | n + 1 => deviceSlot raises (if raises then slot.or (Config.portRaise k) else slot) (k + 1) n

theorem deviceSlot_false (slot : Option Intr) (k n : Nat) : deviceSlot false slot k n = slot := by
  induction n generalizing k with
  | zero => rfl
  | succ n ih => exact ih (k + 1)

theorem deviceSlot_add (raises : Bool) (slot : Option Intr) (k m n : Nat) :
    deviceSlot raises (deviceSlot raises slot k m) (k + m) n = deviceSlot raises slot k (m + n) := by
  induction m generalizing slot k with
  | zero => rw [Nat.zero_add]; rfl
  | succ m ih =>
    rw [Nat.succ_add, ← Nat.add_assoc k, Nat.add_right_comm]
    exact ih _ (k + 1)

theorem raise_eq_withSlot (i : Intr) : s.raise i = s.withSlot (s.cpu.intr.or (some i)) := by
  rw [raise_eq, withSlot, Option.or_some]

/-- All the device can do is fill the slot. -/
theorem deviceRaises_eq (k n : Nat) :
    s.deviceRaises k n = s.withSlot (deviceSlot s.host.portRaises s.cpu.intr k n) := by
  induction n generalizing s k with
  | zero => rfl
  | succ n ih =>
    rw [deviceRaises, ih, deviceSlot]
    cases hr : s.host.portRaises with
    | false => simp [hr]
    | true =>
      cases hp : Config.portRaise k with
      | none => simp [hr]
      | some i => simp [hr, raise_eq_withSlot, withSlot]

theorem withIo_eq (io' : IoMap) :
    s.withIo io' =
      { s.withSlot (deviceSlot s.host.portRaises s.cpu.intr s.io.seq (io'.seq - s.io.seq)) with
        io := io' } := by
  rw [withIo, deviceRaises_eq]
  rfl

/-- All a port access can leave: the map it made, and the slot where the device raises. -/
theorem exists_withIo_eq (io' : IoMap) :
    ∃ q, s.withIo io' = { s.withSlot q with io := io' } ∧
      (s.host.portRaises = false → q = s.cpu.intr) :=
  ⟨_, s.withIo_eq io', fun h => by rw [h, deviceSlot_false]⟩

/-- Two accesses one after the other raise what their transactions raise in order. -/
theorem withIo_withIo {a b : IoMap} (ha : s.io.seq ≤ a.seq) (hb : a.seq ≤ b.seq) :
    (s.withIo a).withIo b = s.withIo b := by
  have hcut : deviceSlot s.host.portRaises s.cpu.intr s.io.seq (b.seq - s.io.seq) =
      deviceSlot s.host.portRaises
        (deviceSlot s.host.portRaises s.cpu.intr s.io.seq (a.seq - s.io.seq)) a.seq (b.seq - a.seq) := by
    have e := deviceSlot_add s.host.portRaises s.cpu.intr s.io.seq (a.seq - s.io.seq) (b.seq - a.seq)
    rw [show s.io.seq + (a.seq - s.io.seq) = a.seq by omega,
      show a.seq - s.io.seq + (b.seq - a.seq) = b.seq - s.io.seq by omega] at e
    exact e.symm
  rw [s.withIo_eq b, hcut, withIo_eq, withIo_eq]
  rfl

theorem withIo_haltIf (b : Bool) (io' : IoMap) : (s.haltIf b).withIo io' = (s.withIo io').haltIf b := by
  rw [withIo_eq, withIo_eq]
  rfl

@[simp] theorem withIo_io (io' : IoMap) : (s.withIo io').io = io' := by rw [withIo_eq]
@[simp] theorem withIo_host (io' : IoMap) : (s.withIo io').host = s.host := by rw [withIo_eq]; rfl

/-! ## The gate (R76) -/

variable {s}

theorem ioAvail_eq_false (hw : s.io.wf) (h : s.host.ioHostOk = false ∨
    ∀ q, (s.io.portAt q).r = false ∧ (s.io.portAt q).w = false) : s.ioAvail = false := by
  rw [ioAvail, Bool.and_eq_false_iff]
  refine h.imp id fun hnone => ?_
  rw [← Bool.not_eq_true, IoMap.anyGranted_iff hw]
  rintro ⟨p, hp⟩
  simp [hnone p] at hp

theorem ioRead_unavailable (h : s.ioAvail = false) (n : Width) (p : Word16) :
    s.ioRead n p = (mask n, s) := by
  simp [ioRead, h]

theorem ioWrite_unavailable (h : s.ioAvail = false) (n : Width) (p : Word16) (v : Word32) :
    s.ioWrite n p v = s := by
  simp [ioWrite, h]

theorem ioRead_available (h : s.ioAvail = true) (n : Width) (p : Word16) :
    s.ioRead n p = ((s.io.read p n).1, s.withIo (s.io.read p n).2) := if_pos h

theorem ioWrite_available (h : s.ioAvail = true) (n : Width) (p : Word16) (v : Word32) :
    s.ioWrite n p v =
      (s.withIo (s.io.write p n v).2).haltIf ((s.io.write p n v).1 && s.host.ioDeniedWriteHalts) :=
  if_pos h

theorem ioAvail_withIo {io' : IoMap} (hk : s.io.Keeps io') (hw : s.io.wf) :
    (s.withIo io').ioAvail = s.ioAvail := by
  rw [ioAvail, withIo_host, withIo_io, hk.anyGranted hw]
  rfl

/-! ## Decomposed accesses (R78) -/

/-- The byte reads of a decomposed port read, one by one: what each gives and leaves. -/
def byteReads (s : State) (p : Word16) : Nat → Word32 × State
  | 0 => s.ioRead .byte p
  | i + 1 => (byteReads s p i).2.ioRead .byte (p + BitVec.ofNat 16 (i + 1))

/-- The byte writes of a decomposed port write, one by one: what each leaves. -/
def byteWrites (s : State) (p : Word16) (v : Word32) : Nat → State
  | 0 => s.ioWrite .byte p v
  | i + 1 => (byteWrites s p v i).ioWrite .byte (p + BitVec.ofNat 16 (i + 1)) (v >>> (8 * (i + 1)))

theorem ioRead_byte (h : s.ioAvail = true) (p : Word16) :
    s.ioRead .byte p = ((s.io.readByte p).1.setWidth 32, s.withIo (s.io.readByte p).2) := by
  rw [ioRead_available h, IoMap.read_byte]

theorem ioWrite_byte (h : s.ioAvail = true) (p : Word16) (v : Word32) :
    s.ioWrite .byte p v =
      (s.withIo (s.io.writeByte p (v.setWidth 8)).2).haltIf
        ((s.io.writeByte p (v.setWidth 8)).1 && s.host.ioDeniedWriteHalts) := by
  rw [ioWrite_available h, IoMap.write_byte]

/-- The `i`-th byte read is a byte access to the map that the bytes before it left. -/
theorem byteReads_eq (hw : s.io.wf) (ha : s.ioAvail = true) (p : Word16) (i : Nat) :
    byteReads s p i =
      (((s.io.readLE p i).2.readByte (p + BitVec.ofNat 16 i)).1.setWidth 32,
        s.withIo (s.io.readLE p (i + 1)).2) := by
  induction i with
  | zero => simpa [byteReads, IoMap.readLE] using ioRead_byte ha p
  | succ i ih =>
    obtain ⟨hk, hseq⟩ := IoMap.advances_readLE s.io p (i + 1)
    obtain ⟨-, hnext⟩ := IoMap.advances_readByte (s.io.readLE p (i + 1)).2 (p + BitVec.ofNat 16 (i + 1))
    rw [byteReads, ih, ioRead_byte (by rw [ioAvail_withIo hk hw, ha]), withIo_io,
      withIo_withIo s hseq hnext, IoMap.readLE_succ_last s.io p (i + 1)]

theorem readLE_fst_eq_sum (hw : s.io.wf) (ha : s.ioAvail = true) (p : Word16) (n : Nat) :
    (s.io.readLE p n).1 = ((List.range n).map fun i => (byteReads s p i).1.toNat * 256 ^ i).sum := by
  induction n with
  | zero => rfl
  | succ n ih =>
    rw [IoMap.readLE_succ_last, ih, List.sum_range_succ, byteReads_eq hw ha,
      BitVec.toNat_setWidth_of_le (by decide)]

/-- The byte writes so far are a decomposed write of as many bytes. -/
theorem byteWrites_eq (hw : s.io.wf) (ha : s.ioAvail = true) (p : Word16) (v : Word32) (i : Nat) :
    byteWrites s p v i =
      (s.withIo (s.io.writeLE p (i + 1) v.toNat).2).haltIf
        ((s.io.writeLE p (i + 1) v.toNat).1 && s.host.ioDeniedWriteHalts) := by
  induction i with
  | zero => simpa [byteWrites, IoMap.writeLE] using ioWrite_byte ha p v
  | succ i ih =>
    obtain ⟨hk, hseq⟩ := IoMap.advances_writeLE s.io p (i + 1) v.toNat
    obtain ⟨-, hnext⟩ := IoMap.advances_writeByte (s.io.writeLE p (i + 1) v.toNat).2
      (p + BitVec.ofNat 16 (i + 1)) (BitVec.ofNat 8 (v.toNat / 256 ^ (i + 1)))
    have hv : (v >>> (8 * (i + 1))).setWidth 8 = BitVec.ofNat 8 (v.toNat / 256 ^ (i + 1)) := by
      rw [pow_256_eq_two_pow, ← Nat.shiftRight_eq_div_pow, ← BitVec.toNat_ushiftRight, BitVec.ofNat_toNat]
    have hav : ((s.withIo (s.io.writeLE p (i + 1) v.toNat).2).haltIf
        ((s.io.writeLE p (i + 1) v.toNat).1 && s.host.ioDeniedWriteHalts)).ioAvail = true :=
      (ioAvail_withIo hk hw).trans ha
    rw [byteWrites, ih, ioWrite_byte hav, hv, haltIf_io, withIo_io, haltIf_host, withIo_host,
      withIo_haltIf, withIo_withIo s hseq hnext, haltIf_haltIf, ← Bool.and_or_distrib_right,
      IoMap.writeLE_succ_last s.io p (i + 1)]

end Sys2Proof.Machine.State
end

section
/-! The obligations of spec/20_memory.md. -/

namespace Sys2Proof.Proofs

open Machine Machine.State

/-- Settles O16: every part of a step keeps the canonical forms, and the stop test of step 8 gives the
halt discipline. -/
theorem stepKeepsInvariant : Obligations.StepKeepsInvariant := by
  rintro s t ⟨hmem, hio, hstop⟩ h
  rcases step_next_cases_hooks h with rfl | ⟨u, hk, rfl | rfl⟩
  · exact ⟨hmem, hio, hstop⟩
  · exact ⟨hk.mem hmem, hk.io hio, nofun, nofun⟩
  · exact ⟨hk.mem hmem, hk.io hio, u.endIteration_stopOk⟩

/-- Settles O22: each update of guest code keeps the protection, and steps 1, 2, 7 and 8 do not touch
it. -/
theorem stepObeysPermissions : Obligations.StepObeysPermissions := by
  intro s t hh h
  rcases step_next_cases hh h with rfl | ⟨u, hg, rfl⟩
  · exact ⟨.refl _, .refl _, rfl⟩
  · obtain ⟨hmem, hio⟩ := hg.keepsProtection
    exact ⟨hmem, hio, hg.host_eq⟩

/-- Settles O13, one clause of the iteration and of `Run`'s entry at a time. -/
theorem stepsThatFetchNothing : Obligations.StepsThatFetchNothing := by
  rintro s _ rfl
  refine ⟨fun ⟨hstop, hself⟩ hcheck => ?callback, iteration_of_selfmod_false handler,
    iteration_of_stopped handler, fun f => ⟨fun hf => ?refused, fun hf => ?entered⟩⟩
  case callback => simp [step, iteration, hstop, hself, codeCheckStep, hcheck]
  case refused => simp [sessionOp, runEntry, hf]
  case entered => exact ⟨_, if_pos hf, ⟨rfl, hf⟩, rfl, rfl, rfl, rfl⟩

/-- Settles O17: both accesses are one `touch`, by `R` or, for a checked fetch, by `X`. -/
theorem byteReadAndExecute : Obligations.ByteReadAndExecute := by
  rintro s a _ rfl
  refine ⟨⟨_, ?value, Memory.byteAt_touch _ .read a, fun b => Memory.attrAt_touch_other _ .read,
    Memory.attrAt_touch_self _ .read a, Memory.invalid_touch_eq _ .read a⟩, ?fetch⟩
  case value =>
    rw [memRead_byte, Memory.setWidth_valueAt]
    rfl
  case fetch =>
    rintro rfl
    have hx (t : ByteAttr) : s.fetchAccess.permits t = if s.host.run.xcheck then t.x else t.r := by
      unfold fetchAccess
      cases s.host.run.xcheck <;> rfl
    refine ⟨_, _, hx _, ?_, Memory.byteAt_touch _ s.fetchAccess _,
      fun b => Memory.attrAt_touch_other _ s.fetchAccess, ?_, Memory.invalid_touch_eq _ s.fetchAccess _⟩
    · rw [fetch_one, Memory.toNat_valueAt]
      rfl
    · rw [Memory.attrAt_touch_self, Access.after, fetchAccess]
      cases s.host.run.xcheck <;> simp [Access.mark]

/-- Settles O18 from the rules of one byte write. -/
theorem byteWrite : Obligations.ByteWrite := by
  intro s a v
  refine ⟨(s.mem.writeByte a (v.setWidth 8)).2, memWrite_byte s a v, fun b hb => ⟨?_, ?_⟩, ?_, ?_,
    Memory.invalid_writeByte_eq _ a _⟩
  · rw [Memory.byteAt_writeByte, if_neg fun h => hb h.1]
  · rw [Memory.attrAt_writeByte, if_neg hb]
  · simp only [Memory.byteAt_writeByte, true_and]
  · rw [Memory.attrAt_writeByte, if_pos rfl]

/-- Settles O19: a wide access is cut in two at any of its bytes. -/
theorem wideAccessesAreBytes : Obligations.WideAccessesAreBytes := by
  intro s a
  refine ⟨fun n => ?value, setMem_readLE_add s a 1 1, setMem_readLE_add s a 2 2, memReadQ_fst s a,
    setMem_readLE_add s a 4 4, fun v => ?word, fun v => ?dword, fun v => ?qword⟩
  case value => rw [memRead_fst, valueAt, Memory.valueLE_eq_sum]; simp only [memRead_byte_toNat]
  case word =>
    have hv : (v >>> 8).toNat = v.toNat / 256 ^ 1 := Nat.shiftRight_eq_div_pow _ _
    rw [memWrite_eq _ .byte _ (v >>> 8), hv]
    exact memWriteLE_add s a 1 1 v.toNat
  case dword =>
    have hv : (v >>> 16).toNat = v.toNat / 256 ^ 2 := Nat.shiftRight_eq_div_pow _ _
    rw [memWrite_eq _ .word _ (v >>> 16), hv]
    exact memWriteLE_add s a 2 2 v.toNat
  case qword =>
    have hlow : (v.setWidth 32).toNat = v.toNat % 256 ^ 4 := BitVec.toNat_setWidth 32 v
    have hhigh : ((v >>> 32).setWidth 32).toNat = v.toNat / 256 ^ 4 % 256 ^ 4 := by
      rw [BitVec.toNat_setWidth, BitVec.toNat_ushiftRight, Nat.shiftRight_eq_div_pow,
        ← pow_256_eq_two_pow 4]
    rw [memWrite_eq, memWrite_eq, hlow, hhigh]
    show _ = (s.memWriteLE a 4 _).memWriteLE _ 4 _
    rw [memWriteLE_mod, memWriteLE_mod]
    exact memWriteLE_add s a 4 4 v.toNat

/-- Settles O20: what a permitted write leaves is readable and written, so a read flags none of it. -/
theorem readAfterWrite : Obligations.ReadAfterWrite := by
  intro s n a v h
  obtain ⟨m', hw, ht⟩ := memWrite_writesAt n a v s
  rw [Memory.PermitsReadWrite.deniesWrite h] at ht
  have hval (i : Nat) (hi : i < n.bytes) := hw.valueAt h hi
  rw [ht, haltIf_false]
  obtain ⟨hinv, hbits⟩ := Memory.AccessedBy.invalid_of_written h hw
    (Memory.readLE_accessedBy .read m' a n.bytes_lt)
  refine ⟨?value, hinv, hbits, rfl, fun i hi => ?byte⟩
  case value =>
    apply BitVec.eq_of_toNat_eq
    rw [memRead_fst, valueAt, setMem_mem, Memory.valueLE_eq_mod hval, truncW_toNat, pow_256_eq_two_pow]
    exact Nat.mod_eq_of_lt (Nat.lt_of_le_of_lt (Nat.mod_le _ _) v.isLt)
  case byte =>
    show _ = truncW .byte (v >>> (8 * i))
    apply BitVec.eq_of_toNat_eq
    rw [memRead_byte_toNat, setMem_mem, hval i hi, pow_256_eq_two_pow, truncW_toNat, BitVec.toNat_ushiftRight,
      Nat.shiftRight_eq_div_pow, BitVec.toNat_ofNat]
    rfl

/-- Settles O23: with I/O unavailable the gate answers before the map is looked at. -/
theorem portsUnavailable : Obligations.PortsUnavailable := by
  intro s p hw h
  have hoff := ioAvail_eq_false hw h
  exact ⟨ioRead_unavailable hoff .byte p, ioRead_unavailable hoff .word p,
    ioRead_unavailable hoff .dword p, fun n v => ioWrite_unavailable hoff n p v⟩

/-- Settles O24 from the rules of one port byte; beside the map the device reaches the slot only. -/
theorem portByteAccess : Obligations.PortByteAccess := by
  intro s p ha
  refine ⟨?read, fun v => ?write⟩
  case read =>
    obtain ⟨q, hq, hslot⟩ := exists_withIo_eq s (s.io.readByte p).2
    refine ⟨(s.io.readByte p).2, q, ?_, hslot, s.io.portAt_readByte p, s.io.readByte_writes p⟩
    rw [ioRead_byte ha, IoMap.readByte_fst, hq]
    rfl
  case write =>
    obtain ⟨q, hq, hslot⟩ := exists_withIo_eq s (s.io.writeByte p (v.setWidth 8)).2
    refine ⟨(s.io.writeByte p (v.setWidth 8)).2, q, ?_, hslot, fun r => s.io.portAt_writeByte p r _,
      s.io.writeByte_writes p v⟩
    rw [ioWrite_byte ha, hq, IoMap.writeByte_fst]

/-- Settles O25: one transaction by the rule of `granted`, or the chain of byte accesses. -/
theorem portWideAccess : Obligations.PortWideAccess := by
  intro s p n hw ha _
  have hlast : n.bytes - 1 + 1 = n.bytes := Nat.sub_add_cancel n.bytes_pos
  refine ⟨fun ⟨hfit, hgrant⟩ => ?readWhole, fun ⟨hfit, hgrant⟩ v => ?writeWhole,
    fun h => ?readBytes, fun h v => ?writeBytes⟩
  case readWhole =>
    have hread := s.io.read_of_wholeSpan ((s.io.wholeSpan_iff .inp p n.bytes).2 ⟨hfit, hgrant⟩)
    obtain ⟨q, hq, hslot⟩ := exists_withIo_eq s (s.io.granted .inp p n.bytes)
    refine ⟨s.io.granted .inp p n.bytes, q, ?_, hslot, s.io.granted_writes .inp p _, fun r => ?_⟩
    · rw [ioRead_available ha, hread, hq]
    · rw [s.io.portAt_granted .inp n.bytes_pos hfit]
      by_cases hr : r = p
      · rw [if_pos hr, if_pos hr]; rfl
      · rw [if_neg hr, if_neg hr]; rfl
  case writeWhole =>
    have hwrite := s.io.write_of_wholeSpan ((s.io.wholeSpan_iff .out p n.bytes).2 ⟨hfit, hgrant⟩) v
    obtain ⟨q, hq, hslot⟩ := exists_withIo_eq s ((s.io.event p n v).granted .out p n.bytes)
    refine ⟨(s.io.event p n v).granted .out p n.bytes, q, ?_, hslot, IoMap.granted_writes _ .out p _,
      fun r => ?_⟩
    · rw [ioWrite_available ha, hwrite, hq, Bool.false_and, haltIf_false]
    · rw [IoMap.portAt_granted _ .out n.bytes_pos hfit]
      by_cases hr : r = p
      · rw [if_pos hr, if_pos hr]; rfl
      · rw [if_neg hr, if_neg hr]; rfl
  case readBytes =>
    refine ⟨byteReads s p, rfl, fun _ _ => rfl, ?_⟩
    rw [ioRead_available ha, s.io.read_of_not_wholeSpan (by rwa [s.io.wholeSpan_iff]),
      ← readLE_fst_eq_sum hw ha, byteReads_eq hw ha, hlast]
  case writeBytes =>
    refine ⟨byteWrites s p v, rfl, fun _ _ => rfl, ?_⟩
    rw [ioWrite_available ha, s.io.write_of_not_wholeSpan (by rwa [s.io.wholeSpan_iff]),
      byteWrites_eq hw ha, hlast]

end Sys2Proof.Proofs
end

section
/-! SUPPORT. Encoding after decoding: every instruction a fetch program can end in is well-formed and
encodes as the bytes fetched on the way (spec/30_encoding.md R103 to R112). -/

namespace Sys2Proof

/-! ## Fields and values -/

theorem fieldByte_fields (b : Byte) : fieldByte (topField b) (midField b) (lowField b) = b := by
  revert b
  decide +kernel

@[simp] theorem Reg.toBits_ofBits (n : BitVec 3) : (Reg.ofBits n).toBits = n := by
  revert n
  decide

@[simp] theorem Base16.toBits_ofBits (n : BitVec 3) : (Base16.ofBits n).toBits = n := by
  revert n
  decide

theorem Reg.eq_toBits_of_ofBits {n : BitVec 3} {r : Reg} (h : Reg.ofBits n = r) : n = r.toBits := by
  rw [← h, Reg.toBits_ofBits]

theorem Base16.eq_toBits_of_ofBits {n : BitVec 3} {b : Base16} (h : Base16.ofBits n = b) :
    n = b.toBits := by
  rw [← h, Base16.toBits_ofBits]

theorem SegReg.toBits_of_ofBits {n : BitVec 3} {r : SegReg} (h : SegReg.ofBits n = some r) :
    r.toBits = n := by
  revert n
  cases r <;> decide

theorem SegReg.ofBits_eq_none {n : BitVec 3} (h : SegReg.ofBits n = none) : n = 6#3 ∨ n = 7#3 := by
  revert n
  decide

theorem digit_cases (n : BitVec 3) : n = 0#3 ∨ n = 1#3 ∨ n = 2#3 ∨ n = 3#3 ∨ n = 4#3 ∨ n = 5#3 ∨
    n = 6#3 ∨ n = 7#3 := by
  revert n
  decide

theorem mod_eq_two {mod : BitVec 2} (h0 : mod ≠ 0#2) (h1 : mod ≠ 1#2) (h3 : mod ≠ 3#2) :
    mod = 2#2 := by
  revert mod
  decide

theorem bytes16_join16 (b0 b1 : Byte) : bytes16 (join16 b0 b1) = [b0, b1] := by
  have h0 : (join16 b0 b1).extractLsb' 0 8 = b0 := BitVec.extractLsb'_append_eq_right
  have h1 : (join16 b0 b1).extractLsb' 8 8 = b1 := BitVec.extractLsb'_append_eq_left
  rw [bytes16, h0, h1]

theorem bytes32_join32 (b0 b1 b2 b3 : Byte) : bytes32 (join32 b0 b1 b2 b3) = [b0, b1, b2, b3] := by
  have above (start : Nat) (h : 8 ≤ start) : (join32 b0 b1 b2 b3).extractLsb' start 8 =
      (b3 ++ b2 ++ b1).extractLsb' (start - 8) 8 := BitVec.extractLsb'_append_eq_of_le h
  have h0 : (join32 b0 b1 b2 b3).extractLsb' 0 8 = b0 := BitVec.extractLsb'_append_eq_right
  have h1 : (join32 b0 b1 b2 b3).extractLsb' 8 8 = b1 :=
    (above 8 (by decide)).trans BitVec.extractLsb'_append_eq_right
  have h2 : (join32 b0 b1 b2 b3).extractLsb' 16 8 = b2 :=
    (above 16 (by decide)).trans <|
      (BitVec.extractLsb'_append_eq_of_le (by decide)).trans BitVec.extractLsb'_append_eq_right
  have h3 : (join32 b0 b1 b2 b3).extractLsb' 24 8 = b3 :=
    (above 24 (by decide)).trans <|
      (BitVec.extractLsb'_append_eq_of_le (by decide)).trans BitVec.extractLsb'_append_eq_left
  rw [bytes32, h0, h1, h2, h3]

/-! ## What a fetch program reads -/

/-- Every instruction the fetch program can end in is well-formed, and its encoding is the bytes `pre`
followed by those the program fetched. -/
def Fetch.Reads (sz : Sizes) : Fetch → List Byte → Prop
  | .done i, pre => i.wellFormed sz = true ∧ encode sz i = pre
  | .byte k, pre => ∀ v, (k v).Reads sz (pre ++ [v])
  | .word k, pre => ∀ v, (k v).Reads sz (pre ++ bytes16 v)
  | .dword k, pre => ∀ v, (k v).Reads sz (pre ++ bytes32 v)

/-- A run of the program on a list of bytes ends in such an instruction. -/
theorem Fetch.Reads.runBytes {sz : Sizes} {f : Fetch} {pre bs rest : List Byte} {i : Instr}
    (h : f.Reads sz pre) (hrun : f.runBytes bs = .ok (i, rest)) :
    i.wellFormed sz = true ∧ encode sz i ++ rest = pre ++ bs := by
  induction f generalizing pre bs with
  | done j =>
    obtain ⟨hw, rfl⟩ := h
    cases hrun
    exact ⟨hw, rfl⟩
  | byte k ih =>
    match bs, hrun with
    | b0 :: bs, hrun => simpa using ih b0 (h b0) hrun
  | word k ih =>
    match bs, hrun with
    | b0 :: b1 :: bs, hrun => simpa [bytes16_join16] using ih _ (h (join16 b0 b1)) hrun
  | dword k ih =>
    match bs, hrun with
    | b0 :: b1 :: b2 :: b3 :: bs, hrun =>
      simpa [bytes32_join32] using ih _ (h (join32 b0 b1 b2 b3)) hrun

namespace Fetch

variable {sz : Sizes} {pre : List Byte}

@[simp] theorem reads_done (i : Instr) :
    (Fetch.done i).Reads sz pre ↔ i.wellFormed sz = true ∧ encode sz i = pre := .rfl

@[simp] theorem reads_byte (k : Byte → Fetch) :
    (Fetch.byte k).Reads sz pre ↔ ∀ v, (k v).Reads sz (pre ++ [v]) := .rfl

@[simp] theorem reads_sized {wide : Bool} {k : Word32 → Fetch}
    (h : ∀ v, fitsSize wide v = true → (k v).Reads sz (pre ++ sizedBytes wide v)) :
    (Fetch.sized wide k).Reads sz pre := by
  cases wide with
  | true => exact fun v => h v rfl
  | false =>
    intro v
    have hfit : fitsSize false (v.setWidth 32) = true := by
      simp only [fitsSize, Bool.false_or, decide_eq_true_eq, BitVec.toNat_setWidth]
      omega
    have hlow : (v.setWidth 32).setWidth 16 = v := BitVec.setWidth_setWidth_of_le v (by decide)
    simpa [sizedBytes, hlow] using h (v.setWidth 32) hfit

@[simp] theorem reads_decodePtr {k : Word32 → Word16 → Fetch}
    (h : ∀ off sel, fitsSize sz.data32 off = true →
      (k off sel).Reads sz (pre ++ sizedBytes sz.data32 off ++ bytes16 sel)) :
    (decodePtr sz k).Reads sz pre :=
  reads_sized fun off hoff sel => h off sel hoff

/-- A byte of three fields. -/
theorem reads_fieldByte {k : Byte → Fetch}
    (h : ∀ top mid low, (k (fieldByte top mid low)).Reads sz (pre ++ [fieldByte top mid low])) :
    (Fetch.byte k).Reads sz pre :=
  fun b => fieldByte_fields b ▸ h _ _ _

/-! ### Memory operands and `r/m` operands -/

theorem reads_decodeDisp16 {mod : BitVec 2} (hmod : mod ≠ 3#2) {k : Disp16 → Fetch}
    (h : ∀ d, d.encode.1 = mod → (k d).Reads sz (pre ++ d.encode.2)) :
    (decodeDisp16 mod k).Reads sz pre := by
  unfold decodeDisp16
  split
  · next h0 => simpa [Disp16.encode] using h .d0 h0.symm
  · next h0 =>
    split
    · next h1 => exact fun v => h (.d8 v) h1.symm
    · next h1 => exact fun v => h (.d16 v) (mod_eq_two h0 h1 hmod).symm

theorem reads_decodeDisp32 {mod : BitVec 2} (hmod : mod ≠ 3#2) {k : Disp32 → Fetch}
    (h : ∀ d, d.encode.1 = mod → (k d).Reads sz (pre ++ d.encode.2)) :
    (decodeDisp32 mod k).Reads sz pre := by
  unfold decodeDisp32
  split
  · next h0 => simpa [Disp32.encode] using h .d0 h0.symm
  · next h0 =>
    split
    · next h1 => exact fun v => h (.d8 v) h1.symm
    · next h1 => exact fun v => h (.d32 v) (mod_eq_two h0 h1 hmod).symm

theorem reads_decodeMem16 {mod : BitVec 2} (hmod : mod ≠ 3#2) (reg rm : BitVec 3) {k : Mem → Fetch}
    (h : ∀ m : Mem, m.wellFormed false = true → (k m).Reads sz (pre ++ m.encode reg)) :
    (decodeMem16 mod rm k).Reads sz (pre ++ [fieldByte mod reg rm]) := by
  unfold decodeMem16
  split
  · next h06 =>
    obtain ⟨rfl, rfl⟩ := h06
    intro v
    simpa [Mem.encode] using h (.abs16 v) rfl
  · next hbase =>
    refine reads_decodeDisp16 hmod fun d hd => ?_
    have hwf : (Mem.based16 (Base16.ofBits rm) d).wellFormed false = true := by
      simp only [Mem.wellFormed, Bool.not_false, Bool.true_and, Bool.not_eq_true',
        Bool.and_eq_false_imp, beq_iff_eq, beq_eq_false_iff_ne]
      rintro hb rfl
      exact hbase ⟨hd.symm, Base16.eq_toBits_of_ofBits hb⟩
    simpa [Mem.encode, hd] using h _ hwf

theorem reads_decodeMem32 {mod : BitVec 2} (hmod : mod ≠ 3#2) (reg rm : BitVec 3) {k : Mem → Fetch}
    (h : ∀ m : Mem, m.wellFormed true = true → (k m).Reads sz (pre ++ m.encode reg)) :
    (decodeMem32 mod rm k).Reads sz (pre ++ [fieldByte mod reg rm]) := by
  have hbase (n : BitVec 3) (d : Disp32) (hd : d.encode.1 = mod) (hn : ¬(mod = 0#2 ∧ n = 5#3)) :
      (Reg.ofBits n == .ebp && d == .d0) = false := by
    simp only [Bool.and_eq_false_imp, beq_iff_eq, beq_eq_false_iff_ne]
    rintro hb rfl
    exact hn ⟨hd.symm, Reg.eq_toBits_of_ofBits hb⟩
  unfold decodeMem32
  split
  · next h4 =>
    subst h4
    refine reads_fieldByte fun scale index base => ?_
    simp only [topField_fieldByte, midField_fieldByte, lowField_fieldByte]
    split
    · next h05 =>
      obtain ⟨rfl, rfl⟩ := h05
      intro v
      simpa [Mem.encode] using h (.sibAbs scale (Reg.ofBits index) v) rfl
    · next hn =>
      refine reads_decodeDisp32 hmod fun d hd => ?_
      have hwf : (Mem.sib scale (Reg.ofBits index) (Reg.ofBits base) d).wellFormed true = true := by
        simp [Mem.wellFormed, hbase base d hd hn]
      simpa [Mem.encode, hd] using h _ hwf
  · next h4 =>
    split
    · next h05 =>
      obtain ⟨rfl, rfl⟩ := h05
      intro v
      simpa [Mem.encode] using h (.abs32 v) rfl
    · next hn =>
      refine reads_decodeDisp32 hmod fun d hd => ?_
      have hesp : Reg.ofBits rm ≠ .esp := fun he => h4 (Reg.eq_toBits_of_ofBits he)
      have hwf : (Mem.based32 (Reg.ofBits rm) d).wellFormed true = true := by
        simp [Mem.wellFormed, hesp, hbase rm d hd hn]
      simpa [Mem.encode, hd] using h _ hwf

theorem reads_decodeMem {mod : BitVec 2} (hmod : mod ≠ 3#2) (reg rm : BitVec 3) {k : Mem → Fetch}
    (h : ∀ m : Mem, m.wellFormed sz.addr32 = true → (k m).Reads sz (pre ++ m.encode reg)) :
    (decodeMem sz mod rm k).Reads sz (pre ++ [fieldByte mod reg rm]) := by
  unfold decodeMem
  split
  · next ha => exact reads_decodeMem32 hmod reg rm (by rwa [ha] at h)
  · next ha => exact reads_decodeMem16 hmod reg rm (by rwa [Bool.eq_false_of_not_eq_true ha] at h)

theorem reads_decodeRm (mod : BitVec 2) (reg rm : BitVec 3) {k : Rm → Fetch}
    (h : ∀ x : Rm, x.wellFormed sz.addr32 = true → (k x).Reads sz (pre ++ x.encode reg)) :
    (decodeRm sz mod rm k).Reads sz (pre ++ [fieldByte mod reg rm]) := by
  unfold decodeRm
  split
  · next hmod => simpa [Rm.encode, hmod] using h (.reg (Reg.ofBits rm)) rfl
  · next hmod => exact reads_decodeMem hmod reg rm fun m hm => h (.mem m) hm

@[simp] theorem reads_decodeModRM {k : Reg → Rm → Fetch}
    (h : ∀ r (x : Rm), x.wellFormed sz.addr32 = true → (k r x).Reads sz (pre ++ x.encode r.toBits)) :
    (decodeModRM sz k).Reads sz pre := by
  refine reads_fieldByte fun mod reg rm => ?_
  simp only [topField_fieldByte, midField_fieldByte, lowField_fieldByte]
  exact reads_decodeRm mod reg rm fun x hx => by simpa using h (Reg.ofBits reg) x hx

/-! ### The opcodes with illegal sub-encodings (R111) -/

@[simp] theorem reads_decode8C : (decode8C sz).Reads sz [0x8C#8] := by
  refine reads_fieldByte fun mod reg rm => ?_
  simp only [topField_fieldByte, midField_fieldByte, lowField_fieldByte]
  split
  · next sr hsr =>
    obtain rfl := SegReg.toBits_of_ofBits hsr
    exact reads_decodeRm mod sr.toBits rm fun x hx => ⟨hx, rfl⟩
  · next hsr =>
    rcases SegReg.ofBits_eq_none hsr with rfl | rfl <;> exact ⟨rfl, rfl⟩

@[simp] theorem reads_decode8D : (decode8D sz).Reads sz [0x8D#8] := by
  refine reads_fieldByte fun mod reg rm => ?_
  simp only [topField_fieldByte, midField_fieldByte, lowField_fieldByte]
  split
  · next h3 => exact ⟨rfl, by rw [h3]; rfl⟩
  · next hmod =>
    exact reads_decodeMem hmod reg rm fun m hm => ⟨hm, by rw [encode, Reg.toBits_ofBits]; rfl⟩

@[simp] theorem reads_decode8E : (decode8E sz).Reads sz [0x8E#8] := by
  refine reads_fieldByte fun mod reg rm => ?_
  simp only [topField_fieldByte, midField_fieldByte, lowField_fieldByte]
  split
  · next sr hsr =>
    obtain rfl := SegReg.toBits_of_ofBits hsr
    exact reads_decodeRm mod sr.toBits rm fun x hx => ⟨hx, rfl⟩
  · next hsr =>
    rcases SegReg.ofBits_eq_none hsr with rfl | rfl <;> exact ⟨rfl, rfl⟩

@[simp] theorem reads_decodeC6 : (decodeC6 sz).Reads sz [0xC6#8] := by
  refine reads_fieldByte fun mod digit rm => ?_
  simp only [topField_fieldByte, midField_fieldByte, lowField_fieldByte]
  rcases digit_cases digit with rfl | rfl | rfl | rfl | rfl | rfl | rfl | rfl
  · exact reads_decodeRm mod 0#3 rm fun x hx v => ⟨hx, rfl⟩
  all_goals exact ⟨rfl, rfl⟩

@[simp] theorem reads_decodeC7 : (decodeC7 sz).Reads sz [0xC7#8] := by
  refine reads_fieldByte fun mod digit rm => ?_
  simp only [topField_fieldByte, midField_fieldByte, lowField_fieldByte]
  rcases digit_cases digit with rfl | rfl | rfl | rfl | rfl | rfl | rfl | rfl
  · exact reads_decodeRm mod 0#3 rm fun x hx => reads_sized fun v hv =>
      ⟨by simp [Instr.wellFormed, hx, hv], rfl⟩
  all_goals exact ⟨rfl, rfl⟩

/-! ### Every first byte (R109) -/

theorem reads_prefixOf {op : Byte} {p : Instr} (h : prefixOf op = some p) :
    (Fetch.done p).Reads sz [op] := by
  unfold prefixOf at h
  split at h
  on_goal -1 => cases h
  all_goals
    rename_i hop
    obtain ⟨-, rfl⟩ := BitVec.toNat_eq_nat.1 hop
    cases h
    exact ⟨rfl, rfl⟩

theorem isExternal_of_decodeOperands {op : Byte} (hp : prefixOf op = none)
    (h : decodeOperands sz op = .done (.ext op)) : isExternal op = true := by
  by_contra hx
  have hnot := decodeOperands_notExt sz hp (Bool.eq_false_of_not_eq_true hx)
  rw [h] at hnot
  exact hnot op rfl

/-- An opcode byte outside the reference set is external; every other one has operands of one of the
forms above. -/
theorem reads_decodeOperands {op : Byte} (hp : prefixOf op = none) :
    (decodeOperands sz op).Reads sz [op] := by
  have hext := isExternal_of_decodeOperands (sz := sz) hp
  generalize hf : decodeOperands sz op = f at hext ⊢
  unfold decodeOperands at hf
  split at hf
  all_goals subst hf
  on_goal -1 => exact ⟨hext rfl, rfl⟩
  all_goals
    rename_i hop
    obtain ⟨-, rfl⟩ := BitVec.toNat_eq_nat.1 hop
    simp +contextual [Instr.wellFormed, encode, opPlus, lowField]

theorem reads_decodeOpcode (op : Byte) : (decodeOpcode sz op).Reads sz [op] := by
  unfold decodeOpcode
  split
  · next p hp => exact reads_prefixOf hp
  · next hp => exact reads_decodeOperands hp

theorem reads_decodeFetch (sz : Sizes) : (decodeFetch sz).Reads sz [] :=
  reads_decodeOpcode

end Fetch

/-! ## The byte classes of R109 -/

theorem prefixOf_isSome_iff (op : Byte) : (prefixOf op).isSome ↔
    op.toNat ∈ [0x26, 0x2E, 0x36, 0x3E, 0x64, 0x65, 0x66, 0x67, 0xF0, 0xF2, 0xF3] := by
  revert op
  decide +kernel

/-- The encoding of a prefix starts with the byte that is this prefix. -/
theorem prefixOf_of_encode {sz : Sizes} {i : Instr} {op : Byte} {bs rest : List Byte}
    (hi : i.isPrefixByte = true) (he : encode sz i ++ rest = op :: bs) : prefixOf op = some i := by
  unfold Instr.isPrefixByte at hi
  split at hi
  on_goal -1 => cases hi
  all_goals
    cases he
    rfl

theorem decode_of_prefixOf (sz : Sizes) {op : Byte} {p : Instr} (h : prefixOf op = some p)
    (bs : List Byte) : decode sz (op :: bs) = .ok (p, bs) := by
  simp [decode, decodeFetch, decodeOpcode, Fetch.runBytes, h]

theorem isExternal_iff (op : Byte) : isExternal op = true ↔
    ∃ p ∈ [(0x00, 0x05), (0x08, 0x0D), (0x0F, 0x0F), (0x10, 0x15), (0x18, 0x1D), (0x20, 0x25),
        (0x27, 0x27), (0x28, 0x2D), (0x2F, 0x2F), (0x30, 0x35), (0x37, 0x37), (0x38, 0x3D),
        (0x3F, 0x3F), (0x40, 0x4F), (0x60, 0x63), (0x68, 0x6F), (0x80, 0x87), (0x8F, 0x8F),
        (0x91, 0x99), (0x9B, 0x9B), (0x9E, 0x9F), (0xA6, 0xA9), (0xAE, 0xAF), (0xC0, 0xC2),
        (0xC4, 0xC5), (0xC8, 0xCA), (0xD0, 0xDF), (0xF1, 0xF1), (0xF6, 0xF7), (0xFE, 0xFF)],
      p.1 ≤ op.toNat ∧ op.toNat ≤ p.2 := by
  revert op
  decide +kernel

end Sys2Proof
end

section
/-! SUPPORT. The round trip of every instruction, from the lemmas of Laws/PerInstr.lean. -/

namespace Sys2Proof.Laws.RoundTrip

/-- One lemma per constructor, in the order of `Instr`. -/
theorem decode_encode (i : Instr) : Statement i :=
  i.rec segEs segCs segSs segDs segFs segGs opSize adSize lock repne rep udMovRm16Sreg6
    udMovRm16Sreg7 udLeaMod3 udMovSreg6Rm16 udMovSreg7Rm16 udC6r1 udC6r2 udC6r3 udC6r4 udC6r5
    udC6r6 udC6r7 udC7r1 udC7r2 udC7r3 udC7r4 udC7r5 udC7r6 udC7r7 pushEs popEs pushCs pushSs
    popSs pushDs popDs pushReg popReg jo jno jb jae je jne jbe ja js jns jp jnp jl jge jle jg
    movRm8R8 movRmR movR8Rm8 movRRm movRm16Sreg lea movSregRm16 nop callFar pushf popf movAlMoffs
    movEaxMoffs movMoffsAl movMoffsEax movsb movsw stosb stosw lodsb lodsw movR8Imm movRImm ret
    movRm8Imm movRmImm retf int3 int into iret loopne loope loop jcxz inAlImm inEaxImm outImmAl
    outImmEax callRel jmpRel jmpFar jmpRel8 inAlDx inEaxDx outDxAl outDxEax hlt cmc clc stc cli
    sti cld std ext

end Sys2Proof.Laws.RoundTrip
end

section
/-! The obligations of spec/30_encoding.md. -/

namespace Sys2Proof.Proofs

open Machine Machine.State

/-- Settles O1 by the round trip of each instruction. -/
theorem encodeThenDecode : Obligations.EncodeThenDecode :=
  fun sz i rest => Laws.RoundTrip.decode_encode i sz rest

/-- Settles O2: every end of the decoder's fetch program is well-formed and encodes as what was
fetched. -/
theorem decodeThenEncode : Obligations.DecodeThenEncode :=
  fun sz _ _ _ h => (Fetch.reads_decodeFetch sz).runBytes h

/-- Settles O5: by O2 a decoded prefix or external instruction has its own byte, and each byte of a
class decodes as the class says, the external ones by O1. -/
theorem opcodeByteClasses : Obligations.OpcodeByteClasses := by
  intro sz op bs
  rw [← prefixOf_isSome_iff, ← isExternal_iff, Option.isSome_iff_exists]
  refine ⟨⟨?decodedPrefix, ?prefixByte⟩, ?decodedExt, encodeThenDecode sz (.ext op) bs⟩
  case decodedPrefix =>
    rintro ⟨i, rest, hdec, hi⟩
    exact ⟨i, prefixOf_of_encode hi (decodeThenEncode sz _ rest i hdec).2⟩
  case prefixByte =>
    rintro ⟨p, hp⟩
    exact ⟨p, bs, decode_of_prefixOf sz hp bs, isPrefixByte_of_prefixOf hp⟩
  case decodedExt => exact fun hdec => (decodeThenEncode sz _ bs _ hdec).1

/-- Settles O34: each of the nineteen raises `#UD`, and a raise can only fill an idle slot. -/
theorem illegalEncodings : Obligations.IllegalEncodings := by
  intro s mod reg rm i hi
  have hexec : exec i s = .next (s.raise Intr.ud) := by
    fin_cases hi <;> rfl
  rw [hexec, raise_eq]
  rfl

end Sys2Proof.Proofs
end

section
/-! SUPPORT. The fetch of a list of bytes (spec/10_state.md R24, R25; spec/20_memory.md R67;
spec/40_decode_dispatch.md R154). -/

namespace Sys2Proof

/-! ## Little-endian assembly -/

theorem toNat_append_byte {w : Nat} (x : BitVec w) (b : Byte) :
    (x ++ b).toNat = b.toNat + 256 * x.toNat := by
  rw [BitVec.toNat_append, ← Nat.shiftLeft_add_eq_or_of_lt b.isLt, Nat.shiftLeft_eq]
  omega

theorem ofDigits_join16 (b0 b1 : Byte) :
    Nat.ofDigits 256 [b0.toNat, b1.toNat] = (join16 b0 b1).toNat := by
  simp only [join16, toNat_append_byte, Nat.ofDigits_cons, Nat.ofDigits_nil, Nat.mul_zero, Nat.add_zero]

theorem ofDigits_join32 (b0 b1 b2 b3 : Byte) :
    Nat.ofDigits 256 [b0.toNat, b1.toNat, b2.toNat, b3.toNat] = (join32 b0 b1 b2 b3).toNat := by
  simp only [join32, toNat_append_byte, Nat.ofDigits_cons, Nat.ofDigits_nil, Nat.mul_zero, Nat.add_zero]

namespace Machine

/-! ## The program counter -/

theorem truncW_merge (w : Width) (old v : Word32) : truncW w (merge (mask w) old v) = truncW w v := by
  apply BitVec.eq_of_getLsbD_eq
  intro i hi
  rw [getLsbD_truncW w _ hi, getLsbD_truncW w _ hi, getLsbD_merge _ _ _ hi, getLsbD_mask w hi]
  by_cases h : i < 8 * w.bytes <;> simp [h]

theorem truncW_truncW_add (w : Width) (a b : Word32) : truncW w (truncW w a + b) = truncW w (a + b) := by
  apply BitVec.eq_of_toNat_eq
  simp only [truncW_toNat, BitVec.toNat_add]
  cases w <;> simp only [Width.bytes] <;> omega

theorem truncW_lt (w : Width) (v : Word32) : (truncW w v).toNat < 2 ^ (8 * w.bytes) := by
  rw [truncW_toNat]
  exact Nat.mod_lt _ (by positivity)

theorem truncW_of_lt {w : Width} {v : Word32} (h : v.toNat < 2 ^ (8 * w.bytes)) : truncW w v = v := by
  apply BitVec.eq_of_toNat_eq
  rw [truncW_toNat, Nat.mod_eq_of_lt h]

theorem Cpu.pc_eq (c : Cpu) :
    c.pc = if c.mode.code32 then c.eip else (c.eip.setWidth 16).setWidth 32 := by
  unfold Cpu.pc Cpu.codeWidth
  split
  · exact truncW_dword _
  · exact truncW_word _

theorem merge_mask_word (old v : Word32) :
    merge (mask .word) old v = old.extractLsb' 16 16 ++ v.setWidth 16 := by
  apply BitVec.eq_of_getLsbD_eq
  intro i hi
  rw [getLsbD_merge _ _ _ hi, getLsbD_mask .word hi, BitVec.getLsbD_append]
  by_cases h : i < 16
  · simp [h, Width.bytes]
  · simp [h, Width.bytes, show i - 16 < 16 by omega, show 16 + (i - 16) = i by omega]

theorem Cpu.advance_eq (c : Cpu) (n : Nat) :
    c.advance n = { c with eip :=
      if c.mode.code32 then c.eip + BitVec.ofNat 32 n
      else c.eip.extractLsb' 16 16 ++ (c.eip.setWidth 16 + BitVec.ofNat 16 n) } := by
  unfold Cpu.advance Cpu.codeWidth
  congr 1
  split
  · exact merge_dword _ _
  · rw [merge_mask_word, BitVec.setWidth_add _ _ (by decide), BitVec.setWidth_ofNat_of_le (by decide)]

theorem Cpu.two_pow_codeWidth_le (c : Cpu) : 2 ^ (8 * c.codeWidth.bytes) ≤ 4294967296 := by
  cases c.codeWidth <;> decide

namespace Memory

/-! ## A list of bytes in memory -/

theorem valueLE_eq_ofDigits {m : Memory} {k : Access} {a : Word32} {bs : List Byte}
    (h : ∀ i b, bs[i]? = some b → m.valueAt k (a + BitVec.ofNat 32 i) = b) :
    m.valueLE k a bs.length = Nat.ofDigits 256 (bs.map BitVec.toNat) := by
  induction bs generalizing a with
  | nil => rfl
  | cons b bs ih =>
    have hfirst : m.valueAt k a = b := by simpa using h 0 b rfl
    have hrest (i : Nat) (c : Byte) (hi : bs[i]? = some c) :
        m.valueAt k (a + 1#32 + BitVec.ofNat 32 i) = c := by
      have := h (i + 1) c (by simpa using hi)
      rwa [Nat.add_comm, BitVec.ofNat_add, ← BitVec.add_assoc] at this
    rw [List.length_cons, valueLE, hfirst, ih hrest]
    rfl

/-- Where an access of no byte is made does not matter. -/
theorem AccessedBy.of_zero {k : Access} {a : Word32} {m m' : Memory} (h : m.AccessedBy k a 0 m')
    (b : Word32) : m.AccessedBy k b 0 m' := by
  simpa only [AccessedBy, inSpan_zero] using h

end Memory

namespace State

theorem Fetches.refl (s : State) : Fetches 0 s s :=
  ⟨s.mem, .refl _ _ _, by rw [Cpu.advance_zero]⟩

/-- Two fetches are one, where together they do not pass the end of the code offset space. -/
theorem Fetches.trans {i j : Nat} {s t u : State} (h : Fetches i s t) (g : Fetches j t u)
    (hij : i + j < 4294967296) (hfit : s.cpu.pc.toNat + (i + j) ≤ 2 ^ (8 * s.cpu.codeWidth.bytes)) :
    Fetches (i + j) s u := by
  obtain ⟨m, hm, rfl⟩ := h
  obtain ⟨m', hm', rfl⟩ := g
  refine ⟨m', hm.append hij ?_, by rw [Cpu.advance_advance]⟩
  cases j with
  | zero => exact hm'.of_zero _
  | succ j =>
    have hpc := s.cpu.pc_advance i (by omega)
    rw [BitVec.add_assoc, ← hpc]
    exact hm'

/-- After the fetch of a list's first bytes the rest of them follows at `pc`. -/
theorem CodeBytes.of_fetches {xs ys : List Byte} {s t : State} (h : s.CodeBytes (xs ++ ys))
    (hf : Fetches xs.length s t) : t.CodeBytes ys := by
  obtain ⟨hfit, hbytes⟩ := h
  obtain ⟨m, hm, rfl⟩ := hf
  rw [List.length_append] at hfit
  cases ys with
  | nil =>
    exact ⟨(truncW_lt _ _).le, nofun⟩
  | cons y ys =>
    rw [List.length_cons] at hfit
    have hpc := s.cpu.pc_advance xs.length (by omega)
    have hlt := s.cpu.two_pow_codeWidth_le
    refine ⟨?_, fun i b hi => ?_⟩
    · show (s.cpu.advance xs.length).pc.toNat + (y :: ys).length ≤ 2 ^ (8 * s.cpu.codeWidth.bytes)
      rw [hpc, BitVec.toNat_add, BitVec.toNat_ofNat, List.length_cons]
      omega
    · show m.valueAt s.fetchAccess (s.cpu.segs.cs.base + (s.cpu.advance xs.length).pc + _) = b
      rw [hm.valueAt, hpc, ← BitVec.add_assoc, BitVec.add_assoc, ← BitVec.ofNat_add]
      exact hbytes _ b (by rwa [List.getElem?_append_right (Nat.le_add_right ..), Nat.add_sub_cancel_left])

/-- A fetch of the first bytes of a list gives their little-endian value. -/
theorem CodeBytes.fetch_fst {xs ys : List Byte} {s : State} (h : s.CodeBytes (xs ++ ys)) :
    (s.fetch xs.length).1 = Nat.ofDigits 256 (xs.map BitVec.toNat) := by
  rw [State.fetch_fst]
  refine Memory.valueLE_eq_ofDigits fun i b hi => h.2 i b ?_
  rw [List.getElem?_append_left (List.getElem?_eq_some_iff.1 hi).1, hi]

/-- A fetch of the first bytes of a list and a program that fetches the rest. -/
theorem CodeBytes.fetchRun_append {xs ys : List Byte} {s : State} {f : Fetch} {i : Instr}
    (h : s.CodeBytes (xs ++ ys)) (hlen : (xs ++ ys).length < 4294967296)
    (hrest : ∀ u, u.CodeBytes ys → (fetchRun f u).1 = i ∧ Fetches ys.length u (fetchRun f u).2) :
    (fetchRun f (s.fetch xs.length).2).1 = i ∧
      Fetches (xs ++ ys).length s (fetchRun f (s.fetch xs.length).2).2 := by
  have hfit := h.1
  rw [List.length_append] at hlen hfit ⊢
  have hfirst := fetch_fetches (n := xs.length) (by omega) s
  obtain ⟨hi, hf⟩ := hrest _ (h.of_fetches hfirst)
  exact ⟨hi, hfirst.trans hf hlen hfit⟩

theorem CodeBytes.fetch_byte {b0 : Byte} {bs : List Byte} {s : State} (h : s.CodeBytes (b0 :: bs)) :
    (s.fetch 1).1 = b0.toNat :=
  (fetch_fst (xs := [b0]) h).trans (Nat.ofDigits_singleton ..)

theorem CodeBytes.fetch_word {b0 b1 : Byte} {bs : List Byte} {s : State}
    (h : s.CodeBytes (b0 :: b1 :: bs)) : (s.fetch 2).1 = (join16 b0 b1).toNat :=
  (fetch_fst (xs := [b0, b1]) h).trans (ofDigits_join16 b0 b1)

theorem CodeBytes.fetch_dword {b0 b1 b2 b3 : Byte} {bs : List Byte} {s : State}
    (h : s.CodeBytes (b0 :: b1 :: b2 :: b3 :: bs)) : (s.fetch 4).1 = (join32 b0 b1 b2 b3).toNat :=
  (fetch_fst (xs := [b0, b1, b2, b3]) h).trans (ofDigits_join32 b0 b1 b2 b3)

/-- The machine runs a fetch program as a list of bytes does, where the list stands at `pc`. -/
theorem CodeBytes.fetchRun {f : Fetch} {bs : List Byte} {i : Instr} {s : State} (h : s.CodeBytes bs)
    (hlen : bs.length < 4294967296) (hrun : f.runBytes bs = .ok (i, [])) :
    (fetchRun f s).1 = i ∧ Fetches bs.length s (fetchRun f s).2 := by
  induction f generalizing bs s with
  | done j =>
    cases hrun
    exact ⟨rfl, .refl s⟩
  | byte k ih =>
    match bs, hrun with
    | b0 :: bs, hrun =>
      rw [State.fetchRun, h.fetch_byte, BitVec.ofNat_toNat, BitVec.setWidth_eq]
      refine fetchRun_append (xs := [b0]) h hlen fun u hu => ih _ hu ?_ hrun
      exact Nat.lt_of_succ_lt hlen
  | word k ih =>
    match bs, hrun with
    | b0 :: b1 :: bs, hrun =>
      rw [State.fetchRun, h.fetch_word, BitVec.ofNat_toNat, BitVec.setWidth_eq]
      refine fetchRun_append (xs := [b0, b1]) h hlen fun u hu => ih _ hu ?_ hrun
      simp only [List.length_cons] at hlen
      omega
  | dword k ih =>
    match bs, hrun with
    | b0 :: b1 :: b2 :: b3 :: bs, hrun =>
      rw [State.fetchRun, h.fetch_dword, BitVec.ofNat_toNat, BitVec.setWidth_eq]
      refine fetchRun_append (xs := [b0, b1, b2, b3]) h hlen fun u hu => ih _ hu ?_ hrun
      simp only [List.length_cons] at hlen
      omega

end State
end Machine

theorem prefixOf_eq_none_of_decode {sz : Sizes} {op : Byte} {bs rest : List Byte} {i : Instr}
    (h : decode sz (op :: bs) = .ok (i, rest)) (hi : i.isPrefixByte = false) : prefixOf op = none := by
  cases hp : prefixOf op with
  | none => rfl
  | some p =>
    rw [decode_of_prefixOf sz hp] at h
    cases h
    exact absurd (Machine.State.isPrefixByte_of_prefixOf hp) (by simp [hi])

/-! ## The longest instruction (R100) -/

theorem length_sizedBytes_le (wide : Bool) (v : Word32) : (sizedBytes wide v).length ≤ 4 := by
  cases wide <;> simp [sizedBytes, bytes16, bytes32]

theorem Mem.length_encode_le (reg : BitVec 3) (m : Mem) : (m.encode reg).length ≤ 6 := by
  cases m with
  | abs16 v => simp [Mem.encode, bytes16]
  | abs32 v => simp [Mem.encode, bytes32]
  | sibAbs s i v => simp [Mem.encode, bytes32]
  | based16 b d => cases d <;> simp [Mem.encode, Disp16.encode, bytes16]
  | based32 b d => cases d <;> simp [Mem.encode, Disp32.encode, bytes32]
  | sib s i b d => cases d <;> simp [Mem.encode, Disp32.encode, bytes32]

theorem Rm.length_encode_le (reg : BitVec 3) (x : Rm) : (x.encode reg).length ≤ 6 := by
  cases x with
  | reg r => simp [Rm.encode]
  | mem m => exact m.length_encode_le reg

/-- An opcode byte, at most six bytes of ModRM operand and at most four of an immediate. -/
theorem length_encode_le (sz : Sizes) (i : Instr) : (encode sz i).length ≤ longestInstr := by
  have hdata (v : Word32) := length_sizedBytes_le sz.data32 v
  have haddr (v : Word32) := length_sizedBytes_le sz.addr32 v
  unfold encode longestInstr
  split <;> simp only [List.length_cons, List.length_append, List.length_nil, bytes16, Nat.reduceAdd,
    Nat.reduceLeDiff]
  all_goals grind [Mem.length_encode_le, Rm.length_encode_le]

end Sys2Proof
end

section
/-! SUPPORT. Step 6 path by path, and the end of a step (spec/40_decode_dispatch.md R150 to R152). -/

namespace Sys2Proof.Machine.State

/-! ## Step 6 -/

theorem deliver_of_idle {s : State} (h : s.cpu.intr = none) : s.deliver = .next s := by
  simp [deliver, h]

theorem deliver_of_noCallback {s : State} {i : Intr} (hi : s.cpu.intr = some i)
    (hc : i.nr ∉ s.host.callbacks) : s.deliver = s.deliverBuiltIn i := by
  simp [deliver, hi, hc]

theorem deliver_of_callback {s : State} {i : Intr} (hi : s.cpu.intr = some i)
    (hc : i.nr ∈ s.host.callbacks) :
    s.deliver = andThen (s.hostOps (Config.callbackOps i s)) fun u =>
      if Config.callbackHandled i s then .next u.idleSlot else u.deliverBuiltIn i := by
  simp [deliver, hi, hc]

theorem intr_of_deliverBuiltIn {i : Intr} {s t : State} (h : s.deliverBuiltIn i = .next t) :
    t.cpu.intr = none := by
  rcases deliverBuiltIn_cases i s with ⟨u, hu, -⟩ | ⟨hpm, -⟩
  · rw [hu] at h
    cases h
    rfl
  · rw [hpm] at h
    cases h

/-- Whatever path step 6 takes, it leaves the slot idle (R150, R350, R351). -/
theorem intr_of_deliver {s t : State} (h : s.deliver = .next t) : t.cpu.intr = none := by
  cases hi : s.cpu.intr with
  | none =>
    rw [deliver_of_idle hi] at h
    cases h
    exact hi
  | some i =>
    by_cases hc : i.nr ∈ s.host.callbacks
    · rw [deliver_of_callback hi hc] at h
      obtain ⟨u, -, ht⟩ := andThen_eq_next.1 h
      split at ht
      · cases ht
        rfl
      · exact intr_of_deliverBuiltIn ht
    · rw [deliver_of_noCallback hi hc] at h
      exact intr_of_deliverBuiltIn h

/-! ## The end of a step -/

/-- A step of a run in progress that the code check does not end comes from step 6 to steps 7 and 8. -/
theorem exists_deliver_of_step {s t : State} (hs : s.stop = none) (h : step s = .next t)
    (ht : t.stop ≠ some .codeCheck) : ∃ u v : State, u.deliver = .next v ∧ t = v.endIteration := by
  cases hm : s.host.run.selfmod with
  | false => rw [step, iteration_of_selfmod_false handler hs hm] at h; cases h
  | true =>
    simp only [step, iteration, hs, hm, if_true] at h
    obtain ⟨c, -, hc⟩ := andThen_eq_next.1 h
    split at hc
    · cases hc
      exact absurd rfl ht
    · obtain ⟨u, -, hu⟩ := andThen_eq_next.1 hc
      obtain ⟨v, hv, he⟩ := andThen_eq_next.1 hu
      cases he
      exact ⟨u, v, hv, rfl⟩

/-- The stop test of step 8 (R152). -/
theorem endIteration_stop (s : State) :
    s.endIteration.stop = if s.endIteration.cpu.mode.halted then some .halted
      else if s.endIteration.host.run.cap ∧
          s.endIteration.host.run.max.toNat ≤ s.endIteration.cpu.icount.toNat then some .maxInstr
      else none := by
  show s.endIteration.stopReason = _
  simp only [stopReason, Bool.and_eq_true, decide_eq_true_eq, BitVec.le_def]

end Sys2Proof.Machine.State
end

section
/-! SUPPORT. The prefix loop that never ends: the bytes it meets, and that no other part of a step is
refused for want of prefix fuel (spec/40_decode_dispatch.md R135). -/

namespace Sys2Proof.Machine.State

/-! ## The bytes the loop meets -/

/-- The byte the prefix loop meets after `k` prefixes: `k` bytes after `pc`, wrapped at the code
width (R25, R154). -/
def streamByte (s : State) (k : Nat) : Byte :=
  s.mem.valueAt s.fetchAccess
    (s.cpu.segs.cs.base + truncW s.cpu.codeWidth (s.cpu.eip + BitVec.ofNat 32 k))

theorem fetchOpcode_fst (s : State) : s.fetchOpcode.1 = s.streamByte 0 := by
  rw [fetchOpcode, fetch_one, streamByte, BitVec.add_zero]
  simp [Cpu.pc]

/-- The loop's fuel is the length of the code offset space. -/
theorem prefixFuel_eq (s : State) : s.prefixFuel = 2 ^ (8 * s.cpu.codeWidth.bytes) := by
  unfold prefixFuel Cpu.codeWidth
  split <;> rfl

/-- What each of the eleven prefixes may write (R136 to R146). -/
theorem exec_prefix_eq {p : Instr} (hp : p.isPrefixByte = true) (s : State) :
    ∃ o m, exec p s = .next { s with cpu := { s.cpu with segOvr := o, mode := m } } ∧
      m.code32 = s.cpu.mode.code32 := by
  unfold Instr.isPrefixByte at hp
  split at hp
  on_goal -1 => cases hp
  all_goals exact ⟨_, _, rfl, rfl⟩

/-- A prefix consumed moves the stream on by one byte. -/
theorem streamByte_exec_prefix {s t : State} {p : Instr} (hp : p.isPrefixByte = true)
    (h : exec p s.fetchOpcode.2 = .next t) (k : Nat) : t.streamByte k = s.streamByte (k + 1) := by
  obtain ⟨o, m, he, hm⟩ := exec_prefix_eq hp s.fetchOpcode.2
  rw [he] at h
  cases h
  have hw : ({ s.fetchOpcode.2.cpu with segOvr := o, mode := m } : Cpu).codeWidth = s.cpu.codeWidth := by
    unfold Cpu.codeWidth
    rw [hm]
    rfl
  unfold streamByte
  rw [hw]
  show (s.fetch 1).2.mem.valueAt s.fetchAccess (s.cpu.segs.cs.base + truncW s.cpu.codeWidth
    (merge (mask s.cpu.codeWidth) s.cpu.eip (s.cpu.eip + BitVec.ofNat 32 1) + _)) = _
  rw [← truncW_truncW_add, truncW_merge, truncW_truncW_add, BitVec.add_assoc, ← BitVec.ofNat_add,
    fetch_one, Nat.add_comm 1]
  exact Memory.valueAt_touch ..

/-- From `pc` on the loop meets the bytes of the whole code offset space. -/
theorem forall_streamByte_iff (s : State) (P : Byte → Prop) :
    (∀ k, k < 2 ^ (8 * s.cpu.codeWidth.bytes) → P (s.streamByte k)) ↔
      ∀ off : Word32, off.toNat < 2 ^ (8 * s.cpu.codeWidth.bytes) →
        P (s.mem.valueAt s.fetchAccess (s.cpu.segs.cs.base + off)) := by
  constructor
  · intro h off hoff
    have hk := h _ (truncW_lt s.cpu.codeWidth (off - s.cpu.eip))
    rwa [streamByte, BitVec.ofNat_toNat, BitVec.setWidth_eq, BitVec.add_comm s.cpu.eip,
      truncW_truncW_add, BitVec.sub_add_cancel, truncW_of_lt hoff] at hk
  · exact fun h k _ => h _ (truncW_lt _ _)

/-! ## Who is never refused for want of prefix fuel -/

theorem exec_ne_prefixFuel (i : Instr) (s : State) : exec i s ≠ .refused .prefixFuel := by
  by_cases he : ∃ op, i = .ext op
  · obtain ⟨op, rfl⟩ := he
    cases hx : s.host.extHandler with
    | true => rw [exec_ext_of_handler op hx]; exact nofun
    | false => rw [exec_ext_of_noHandler op hx]; exact nofun
  · obtain ⟨t, ht, -⟩ := exec_guest i s fun op e => he ⟨op, e⟩
    rw [ht]
    exact nofun

theorem handler_ne_prefixFuel (op : Byte) (s : State) : handler op s ≠ .refused .prefixFuel := by
  unfold handler
  split
  · exact exec_ne_prefixFuel _ _
  · exact nofun
  · exact exec_ne_prefixFuel (.ext op) s

theorem hostOp_ne_prefixFuel (o : HostOp) (s : State) : s.hostOp o ≠ .refused .prefixFuel := by
  cases o with
  | setPerm a len p => rw [hostOp]; split <;> exact nofun
  | mapPage page bytes => rw [hostOp]; split <;> exact nofun
  | _ => exact nofun

theorem hostOps_ne_prefixFuel (l : List HostOp) (s : State) : s.hostOps l ≠ .refused .prefixFuel := by
  induction l generalizing s with
  | nil => exact nofun
  | cons o l ih =>
    intro h
    rcases andThen_eq_refused.1 h with h | ⟨t, -, h⟩
    · exact hostOp_ne_prefixFuel o s h
    · exact ih t h

theorem deliverBuiltIn_ne_prefixFuel (i : Intr) (s : State) :
    s.deliverBuiltIn i ≠ .refused .prefixFuel := by
  rcases deliverBuiltIn_cases i s with ⟨t, ht, -⟩ | ⟨hpm, -⟩
  · rw [ht]; exact nofun
  · rw [hpm]; exact nofun

theorem deliver_ne_prefixFuel (s : State) : s.deliver ≠ .refused .prefixFuel := by
  cases hi : s.cpu.intr with
  | none => rw [deliver_of_idle hi]; exact nofun
  | some i =>
    by_cases hc : i.nr ∈ s.host.callbacks
    · rw [deliver_of_callback hi hc]
      intro h
      rcases andThen_eq_refused.1 h with h | ⟨t, -, h⟩
      · exact hostOps_ne_prefixFuel _ s h
      · split at h
        · cases h
        · exact deliverBuiltIn_ne_prefixFuel i t h
    · rw [deliver_of_noCallback hi hc]
      exact deliverBuiltIn_ne_prefixFuel i s

theorem completeStep_eq_prefixFuel (o : Host.Outcome State Fault Refusal) :
    completeStep o = .refused .prefixFuel ↔ o = .refused .prefixFuel := by
  rw [completeStep, andThen_eq_refused, or_iff_left]
  rintro ⟨s, -, h⟩
  rcases andThen_eq_refused.1 h with h | ⟨t, -, h⟩
  · exact deliver_ne_prefixFuel s h
  · cases h

/-- The loop runs out of fuel where every byte it meets is a prefix. -/
theorem prefixLoop_eq_prefixFuel (n : Nat) (s : State) :
    prefixLoop handler n s = .refused .prefixFuel ↔
      ∀ k, k < n → (prefixOf (s.streamByte k)).isSome := by
  induction n generalizing s with
  | zero => exact ⟨fun _ => nofun, fun _ => rfl⟩
  | succ n ih =>
    rw [prefixLoop, Nat.forall_lt_succ_left', ← fetchOpcode_fst]
    cases hp : prefixOf s.fetchOpcode.1 with
    | none => simpa using handler_ne_prefixFuel _ _
    | some p =>
      have hpre := isPrefixByte_of_prefixOf hp
      obtain ⟨t, ht, -⟩ := exec_prefix s.fetchOpcode.2 hpre
      simp only [ht, andThen_next, ih, streamByte_exec_prefix hpre ht, Option.isSome_some, true_and]

end Sys2Proof.Machine.State
end

section
/-! SUPPORT. Delivery in real mode, and the instructions that raise an interrupt
(spec/60_exceptions.md R344, R347, R350 to R355). -/

namespace Sys2Proof.Machine.State

/-! ## The built-in delivery in real mode -/

/-- EFLAGS has no bit above the low word (R27). -/
theorem truncW_word_image (f : Flags) : truncW .word f.image = f.image := by
  rw [← f.ofImage_image, Flags.image_ofImage, truncW, BitVec.and_or_distrib_right, BitVec.and_assoc]
  rfl

/-- A selector load in real mode (R201). -/
theorem setSeg_real {s : State} (h : s.cpu.pe = false) (r : SegReg) (v : Word16) :
    s.setSeg r v =
      (true, s.setSegReg r { s.cpu.segs.get r with sel := v, base := v.setWidth 32 <<< 4 }) := by
  simp [setSeg, h]

/-- The two reads of a real-mode vector and what they give (R353). -/
theorem realVector_reads (nr : Byte) (s : State) {a : Word32}
    (ha : a = s.cpu.idt.base + 4#32 * nr.setWidth 32) :
    ∃ u v, ReadsAt .word a s u ∧ ReadsAt .word (a + 2#32) u v ∧
      s.realVector nr = (((s.valueAt .word (a + 2#32)).setWidth 16, s.valueAt .word a), v) := by
  subst ha
  refine ⟨_, _, memRead_readsAt .word _ s, memRead_readsAt .word _ _, ?_⟩
  simp only [realVector, memRead_fst, valueAt_memRead]

theorem frameWidth_real {s : State} (h : s.cpu.pe = false) : s.frameWidth = .word := by
  simp [frameWidth, h]

/-- The pushes of a real-mode frame (R354). -/
theorem pushFrame_pushes {s : State} (h : s.cpu.pe = false) (i : Intr) (ret : Word16 × Word32) :
    ∃ u v w, Pushes .word s.cpu.flags.image s u ∧ Pushes .word (ret.1.setWidth 32) u v ∧
      Pushes .word ((ret.2.setWidth 16).setWidth 32) v w ∧
      if i.hasErr then Pushes .dword i.err w (s.pushFrame i ret) else s.pushFrame i ret = w := by
  refine ⟨_, _, _, push_pushes .., push_pushes .., push_pushes .., ?_⟩
  rw [pushFrame, frameWidth_real h, truncW_word_image, truncW_word]
  split
  · exact push_pushes ..
  · rfl

theorem pushFrame_keeps (s : State) (i : Intr) (ret : Word16 × Word32) :
    (s.pushFrame i ret).cpu.flags = s.cpu.flags ∧ (s.pushFrame i ret).cpu.segs = s.cpu.segs ∧
      (s.pushFrame i ret).cpu.cr = s.cpu.cr := by
  rw [pushFrame]
  split <;> exact ⟨rfl, rfl, rfl⟩

/-- All the built-in delivery does in real mode, where it is never refused. -/
theorem deliverBuiltIn_real {s : State} (h : s.cpu.pe = false) (i : Intr) :
    ∃ t, s.deliverBuiltIn i = .next t ∧ EntersReal i s t := by
  obtain ⟨u1, u2, h1, h2, hvec⟩ := realVector_reads i.nr s rfl
  have hcpu : u2.cpu = s.cpu := by rw [h2.eq_setMem, h1.eq_setMem]; rfl
  have hpe2 : u2.cpu.pe = false := by rw [hcpu, h]
  obtain ⟨u3, u4, u5, h3, h4, h5, h6⟩ := pushFrame_pushes hpe2 i (s.returnAddress i)
  obtain ⟨hflags, hsegs, hcr⟩ := pushFrame_keeps u2 i (s.returnAddress i)
  rw [hcpu] at h3 hflags hsegs
  have hpe6 : ((u2.pushFrame i (s.returnAddress i)).setFlags s.cpu.flags.clearIfTf).cpu.pe = false := by
    rw [Cpu.pe, setFlags_cr, hcr]
    exact hpe2
  refine ⟨_, ?_, _, u1, u2, u3, u4, u5, u2.pushFrame i (s.returnAddress i), s.returnAddress i, rfl, rfl,
    h1, h2, h3, h4, h5, h6, rfl⟩
  simp only [deliverBuiltIn, vectorTarget, h, hvec, frameWidth_real h, Bool.false_eq_true, if_false]
  rw [hflags, setSeg_real hpe6, ← truncW_word, truncW_valueAt, ← hsegs]
  simp only [if_true, jumpTo, Cpu.jumpTo, truncW_valueAt]
  rfl

/-! ## The instructions that raise an interrupt -/

theorem raise_of_idle {s : State} (h : s.cpu.intr = none) (i : Intr) : s.raise i = s.withSlot (some i) := by
  rw [raise_idle h, withSlot]

theorem exec_of_isIllegal {i : Instr} (h : isIllegal i = true) (s : State) :
    exec i s = .next (s.raise Intr.ud) := by
  unfold isIllegal at h
  split at h
  on_goal -1 => cases h
  all_goals rfl

theorem exec_into_of_overflow {s : State} (h : s.cpu.flags.ovf = true) :
    exec .into s = .next (s.raise (Intr.softInt 4)) := by
  simp [exec, execInto, h]

theorem isPrefixByte_of_isIllegal {i : Instr} (h : isIllegal i = true) : i.isPrefixByte = false := by
  unfold isIllegal at h
  split at h
  on_goal -1 => cases h
  all_goals rfl

end Sys2Proof.Machine.State
end

section
/-! The obligations of spec/40_decode_dispatch.md. -/

namespace Sys2Proof.Proofs

open Machine Machine.State

/-- Settles O6: a fetch is one access and one advance, and both are equations in the code width. -/
theorem fetchReadsBytesAtPc : Obligations.FetchReadsBytesAtPc := by
  rintro s n hn a k rfl rfl
  have hlen : n < 4294967296 := by omega
  obtain ⟨m, hm, hs⟩ := fetch_fetches hlen s
  rw [← Cpu.pc_eq, hs, Cpu.advance_eq]
  exact ⟨fetch_fst n s, m, hm, rfl⟩

/-- Settles O7, by induction on the decoder's fetch program; an instruction's bytes are few, so no
access comes round to its own start. -/
theorem fetchFollowsDecode : Obligations.FetchFollowsDecode := by
  intro s bs i hbytes hdec
  obtain ⟨-, henc⟩ := decodeThenEncode s.sizes bs [] i hdec
  have hlen := length_encode_le s.sizes i
  rw [← List.append_nil (encode s.sizes i), henc] at hlen
  exact hbytes.fetchRun (Nat.lt_of_le_of_lt hlen (by decide)) hdec

/-- Settles O8: O9 with no prefix, and O7 for the instruction fetched. -/
theorem stepRunsDecodedInstruction : Obligations.StepRunsDecodedInstruction := by
  intro s bs i hr hc hstd hbytes hdec hi
  obtain ⟨hfetch, hfetches⟩ := fetchFollowsDecode _ bs i hbytes hdec
  refine ⟨_, hfetches, ?_⟩
  cases bs with
  | nil => cases hdec
  | cons op bs =>
    have hp := prefixOf_eq_none_of_decode hdec hi
    have hfuel : 0 < s.beginIteration.prefixFuel := by
      rw [prefixFuel_eq]
      positivity
    obtain ⟨-, -, hstep⟩ := stepRunsPrefixesThenInstruction s s.beginIteration
      (s.beginIteration.fetch 1).2 [] op hr hc rfl hp (Prod.ext hbytes.fetch_byte.symm rfl) hfuel
    rw [hstep (hstd op rfl), hfetch]

/-- Settles O10: the loop's fuel is the code offset space, whose bytes it meets from `pc` on, and no
other part of a step is refused for want of it. -/
theorem prefixFuelRefusalIsAHang : Obligations.PrefixFuelRefusalIsAHang := by
  intro s hr hc
  have hspace : (if s.cpu.segs.cs.big then 4294967296 else 65536) =
      2 ^ (8 * s.beginIteration.cpu.codeWidth.bytes) := prefixFuel_eq s.beginIteration
  rw [step, iteration_of_running handler hr hc, runInstr, completeStep_eq_prefixFuel,
    prefixLoop_eq_prefixFuel, prefixFuel_eq,
    forall_streamByte_iff _ fun b => (prefixOf b).isSome = true, hspace]
  simp only [prefixOf_isSome_iff]
  rfl

/-- Settles O12: step 6 leaves the slot idle whatever path it takes, and step 8 is the stop test. -/
theorem stepEndsIdleWithStopTest : Obligations.StepEndsIdleWithStopTest := by
  intro s t hs h ht
  obtain ⟨u, v, hv, rfl⟩ := exists_deliver_of_step hs h ht
  have hidle := intr_of_deliver hv
  exact ⟨hidle, v.endIteration_stop⟩

/-- Settles O56: the step runs the instruction fetched (O8), which fills the idle slot, and step 6
takes it by the built-in path. -/
theorem interruptTakenInItsOwnStep : Obligations.InterruptTakenInItsOwnStep := by
  intro s bs i n hr hh hidle hreal hbytes hdec hn
  obtain ⟨hcode, hcall, -, -, htable⟩ := hh
  have ⟨hi, hraise⟩ : i.isPrefixByte = false ∧
      ∀ u : State, u.cpu.flags = s.cpu.flags → exec i u = .next (u.raise n) := by
    rcases hn with ⟨rfl, rfl⟩ | ⟨v, rfl, rfl⟩ | ⟨rfl, hovf, rfl⟩ | ⟨hill, rfl⟩
    · exact ⟨rfl, fun _ _ => rfl⟩
    · exact ⟨rfl, fun _ _ => rfl⟩
    · exact ⟨rfl, fun u hu => exec_into_of_overflow (by rw [hu, hovf])⟩
    · exact ⟨isPrefixByte_of_isIllegal hill, fun u _ => exec_of_isIllegal hill u⟩
  have hstd (op : Byte) (_ : bs.head? = some op) : s.host.standard op := by
    rw [HostCfg.standard, htable]
    rfl
  obtain ⟨u, hu, hstep⟩ := stepRunsDecodedInstruction s bs i hr hcode hstd hbytes hdec hi
  obtain ⟨m, -, he⟩ := id hu
  have hexec : exec i u = .next (u.withSlot (some n)) := by
    rw [hraise u (by rw [he]; rfl), raise_of_idle (by rw [he]; exact hidle)]
  have hpe : (u.withSlot (some n)).cpu.pe = false := by rw [he]; exact hreal
  have hnone : n.nr ∉ (u.withSlot (some n)).host.callbacks := by
    rw [show (u.withSlot (some n)).host = s.host by rw [he]; rfl, hcall]
    exact List.not_mem_nil
  obtain ⟨t, ht, henters⟩ := deliverBuiltIn_real hpe n
  refine ⟨u, t, hu, henters, ?_⟩
  rw [hstep, hexec, completeStep, andThen_next, deliver_of_noCallback rfl hnone, ht, andThen_next]

/-- Settles O3: each of the ten decodes by evaluation. -/
theorem specBytesDecode : Obligations.SpecBytesDecode :=
  ⟨fun _ => rfl, fun _ => rfl, fun _ => rfl, fun _ => rfl, fun _ => rfl, fun _ => rfl, fun _ => rfl,
    fun _ => rfl, fun _ => rfl, fun _ => rfl⟩

/-- Settles O33, one prefix at a time. -/
theorem prefixEffects : Obligations.PrefixEffects := by
  rintro s _ rfl
  refine ⟨fun p hp => ?overrides, fun p hp => ?modes⟩
  case overrides => fin_cases hp <;> rfl
  case modes => fin_cases hp <;> rfl

/-- Settles O55: the three paths of step 6. -/
theorem callbackDelivery : Obligations.CallbackDelivery :=
  fun _ => ⟨deliver_of_idle, fun _ hi => ⟨deliver_of_noCallback hi, deliver_of_callback hi⟩⟩

end Sys2Proof.Proofs
end

section
/-! SUPPORT. The bytes the addressing resolver takes, and the offsets and segments of its memory forms
(spec/41_addressing_resolver.md R172 to R186). -/

namespace Sys2Proof

/-! ## The bytes a fetch program takes (R183) -/

/-- Every run of the fetch program on a list of bytes takes `n` of them. -/
def Fetch.Takes (f : Fetch) (n : Nat) : Prop :=
  ∀ (bs rest : List Byte) (i : Instr), f.runBytes bs = .ok (i, rest) → bs.length = rest.length + n

namespace Fetch

theorem takes_done (i : Instr) : (Fetch.done i).Takes 0 := by
  intro bs rest j h
  cases h
  rfl

theorem exists_of_runBytes_byte {k : Byte → Fetch} {bs rest : List Byte} {i : Instr}
    (h : (Fetch.byte k).runBytes bs = .ok (i, rest)) :
    ∃ b tail, bs = b :: tail ∧ (k b).runBytes tail = .ok (i, rest) := by
  match bs, h with
  | b :: tail, h => exact ⟨b, tail, rfl, h⟩

theorem takes_byte {k : Byte → Fetch} {n : Nat} (h : ∀ v, (k v).Takes n) : (Fetch.byte k).Takes (n + 1) := by
  intro bs rest i hrun
  obtain ⟨b, tail, rfl, htail⟩ := exists_of_runBytes_byte hrun
  rw [List.length_cons, h b tail rest i htail, Nat.add_assoc]

theorem takes_word {k : Word16 → Fetch} {n : Nat} (h : ∀ v, (k v).Takes n) : (Fetch.word k).Takes (n + 2) := by
  intro bs rest i hrun
  match bs, hrun with
  | _ :: _ :: tail, hrun => simp [h _ tail rest i hrun, Nat.add_assoc]

theorem takes_dword {k : Word32 → Fetch} {n : Nat} (h : ∀ v, (k v).Takes n) :
    (Fetch.dword k).Takes (n + 4) := by
  intro bs rest i hrun
  match bs, hrun with
  | _ :: _ :: _ :: _ :: tail, hrun => simp [h _ tail rest i hrun, Nat.add_assoc]

theorem takes_decodeDisp16 (mod : BitVec 2) {k : Disp16 → Fetch} (h : ∀ d, (k d).Takes 0) :
    (decodeDisp16 mod k).Takes (if mod = 0#2 then 0 else if mod = 1#2 then 1 else 2) := by
  unfold decodeDisp16
  split_ifs
  · exact h _
  · exact takes_byte fun v => h _
  · exact takes_word fun v => h _

theorem takes_decodeDisp32 (mod : BitVec 2) {k : Disp32 → Fetch} (h : ∀ d, (k d).Takes 0) :
    (decodeDisp32 mod k).Takes (if mod = 0#2 then 0 else if mod = 1#2 then 1 else 4) := by
  unfold decodeDisp32
  split_ifs
  · exact h _
  · exact takes_byte fun v => h _
  · exact takes_dword fun v => h _

/-- The 16-bit forms: base 6 without displacement stands for the absolute form. -/
theorem takes_decodeMem16 {mod : BitVec 2} (hmod : mod ≠ 3#2) (rm : BitVec 3) {k : Mem → Fetch}
    (h : ∀ m, (k m).Takes 0) : (decodeMem16 mod rm k).Takes
      (if mod = 1#2 then 1 else if mod = 2#2 then 2 else if rm = 6#3 then 2 else 0) := by
  unfold decodeMem16
  split
  · next h06 =>
    obtain ⟨rfl, rfl⟩ := h06
    exact takes_word fun v => h _
  · next hn =>
    convert takes_decodeDisp16 mod fun d => h (.based16 (Base16.ofBits rm) d) using 1
    have htwo (h0 : mod ≠ 0#2) (h1 : mod ≠ 1#2) := mod_eq_two h0 h1 hmod
    grind

/-- The 32-bit bases, `rm` or the base field of a SIB byte: number 5 without displacement stands for
the absolute form. -/
theorem takes_base32 {mod : BitVec 2} (hmod : mod ≠ 3#2) (base : BitVec 3) {kabs : Word32 → Fetch}
    {k : Disp32 → Fetch} (habs : ∀ v, (kabs v).Takes 0) (h : ∀ d, (k d).Takes 0) :
    (if mod = 0#2 ∧ base = 5#3 then Fetch.dword kabs else decodeDisp32 mod k).Takes
      (if mod = 1#2 then 1 else if mod = 2#2 then 4 else if base = 5#3 then 4 else 0) := by
  split
  · next h05 =>
    obtain ⟨rfl, rfl⟩ := h05
    exact takes_dword habs
  · next hn =>
    convert takes_decodeDisp32 mod h using 1
    have htwo (h0 : mod ≠ 0#2) (h1 : mod ≠ 1#2) := mod_eq_two h0 h1 hmod
    grind

/-- The 32-bit forms: `rm` 4 takes a SIB byte first, whose base field then decides. -/
theorem length_of_decodeMem32 {mod : BitVec 2} (hmod : mod ≠ 3#2) (rm : BitVec 3) {k : Mem → Fetch}
    (h : ∀ m, (k m).Takes 0) {bs rest : List Byte} {i : Instr}
    (hrun : (decodeMem32 mod rm k).runBytes bs = .ok (i, rest)) :
    bs.length = rest.length +
      (if rm = 4#3 then
        (if mod = 1#2 then 2 else if mod = 2#2 then 5
        else if (bs.head?.map lowField) = some 5#3 then 5 else 1)
      else if mod = 1#2 then 1 else if mod = 2#2 then 4 else if rm = 5#3 then 4 else 0) := by
  unfold decodeMem32 at hrun
  split at hrun
  · next h4 =>
    obtain ⟨b, tail, rfl, htail⟩ := exists_of_runBytes_byte hrun
    have htake := takes_base32 hmod (lowField b) (fun v => h _) (fun d => h _) tail rest i htail
    simp only [if_pos h4, List.length_cons, htake, List.head?_cons, Option.map_some, Option.some_inj]
    split_ifs <;> omega
  · next h4 =>
    rw [if_neg h4]
    exact takes_base32 hmod rm (fun v => h _) (fun d => h _) bs rest i hrun

end Fetch

end Sys2Proof

namespace Sys2Proof.Machine

/-! ## Offsets (R172 to R180) -/

theorem setWidth_read_word (g : Regs) (r : Reg) :
    (g.read .word r).setWidth 16 = (g.get r).setWidth 16 := by
  rw [Regs.read, truncW_word, BitVec.setWidth_setWidth_of_le _ (by decide), BitVec.setWidth_eq]

/-- The low 16 bits of a sign extension are the sign extension to 16 bits. -/
theorem setWidth_signExtend_byte (v : Byte) : (v.signExtend 32).setWidth 16 = v.signExtend 16 := by
  ext i hi
  rw [BitVec.getElem_setWidth, BitVec.getLsbD_signExtend, BitVec.getElem_signExtend]
  by_cases h : i < 8 <;> simp [h, Nat.lt_trans hi (show 16 < 32 by decide)]

/-- A 16-bit form is a sum in 16 bits, zero-extended (R172, R174). -/
theorem offset_based16 (g : Regs) (b : Base16) (d : Disp16) :
    (Mem.based16 b d).offset g =
      ((baseSum16 g b).setWidth 16 + d.value.setWidth 16).setWidth 32 := by
  rw [Mem.offset, truncW_word, BitVec.setWidth_add _ _ (by decide)]

/-- The scaled index of a SIB form as a product; index number 4 is none (R180). -/
theorem sibIndex_eq (g : Regs) (scale : BitVec 2) (i : Reg) :
    sibIndex g scale i = if i = .esp then 0 else BitVec.ofNat 32 (2 ^ scale.toNat) * g.get i := by
  have hscale : BitVec.ofNat 32 (2 ^ scale.toNat) = BitVec.twoPow 32 scale.toNat :=
    BitVec.eq_of_toNat_eq (by rw [BitVec.toNat_ofNat, BitVec.toNat_twoPow])
  rw [hscale, BitVec.twoPow_mul_eq_shiftLeft]
  cases i <;> rfl

/-! ## Segments (R172, R176, R181, R186) -/

/-- The forms whose default is the stack segment. -/
def IsStackForm (m : Mem) : Prop :=
  (∃ b d, m = .based16 b d ∧ (b = .bpSi ∨ b = .bpDi ∨ b = .bp)) ∨
    (∃ d, m = .based32 .ebp d) ∨ (∃ sc i b d, m = .sib sc i b d ∧ (b = .esp ∨ b = .ebp))

/-- Every form defaults to one of two segments. -/
theorem defaultSeg_cases (m : Mem) :
    (IsStackForm m ∧ m.defaultSeg = .ss) ∨ (¬IsStackForm m ∧ m.defaultSeg = .ds) := by
  unfold IsStackForm
  cases m with
  | abs16 | abs32 | sibAbs => simp [Mem.defaultSeg]
  | based16 b d => cases b <;> simp [Mem.defaultSeg, Base16.seg]
  | based32 b d => cases b <;> simp [Mem.defaultSeg, baseSeg32]
  | sib sc i b d => cases b <;> simp [Mem.defaultSeg, sibSeg]

end Sys2Proof.Machine
end

section
/-! SUPPORT. The count of a repeated string instruction (spec/43_ref_data_movement.md R250). -/

namespace Sys2Proof.Machine.State

/-- The address size is as before, and the count register in its width too. -/
def KeepsCount (s t : State) : Prop :=
  t.cpu.adWidth = s.cpu.adWidth ∧ t.reg s.cpu.adWidth .ecx = s.reg s.cpu.adWidth .ecx

theorem viewHome_adWidth (c : Cpu) (r : Reg) : viewHome c.adWidth r = r := by
  unfold Cpu.adWidth
  split <;> rfl

theorem KeepsCount.trans {s t u : State} (h : KeepsCount s t) (g : KeepsCount t u) : KeepsCount s u :=
  ⟨g.1.trans h.1, by rw [← h.2, ← h.1, g.2]⟩

theorem ReadsAt.keepsCount {n : Width} {a : Word32} {s t : State} (h : ReadsAt n a s t) :
    KeepsCount s t := by
  obtain ⟨m', -, rfl⟩ := h
  exact ⟨rfl, rfl⟩

theorem WritesAt.keepsCount {n : Width} {a v : Word32} {s t : State} (h : WritesAt n a v s t) :
    KeepsCount s t := by
  obtain ⟨m', -, rfl⟩ := h
  exact ⟨rfl, rfl⟩

theorem keepsCount_setReg (s : State) {n : Width} {r : Reg} (v : Word32) (h : viewHome n r ≠ .ecx) :
    KeepsCount s (s.setReg n r v) :=
  ⟨rfl, Regs.read_write_other s.cpu.regs v (by rw [viewHome_adWidth]; exact h.symm)⟩

theorem keepsCount_setReg_eax (s : State) (n : Width) (v : Word32) : KeepsCount s (s.setReg n .eax v) :=
  keepsCount_setReg s v (by cases n <;> exact nofun)

theorem keepsCount_stepIndex (s : State) (n : Width) (r : Reg) (h : r ≠ .ecx) :
    KeepsCount s (s.stepIndex n r) :=
  keepsCount_setReg s _ (by rwa [viewHome_adWidth])

/-! ## No element writes the count -/

theorem MovsElement.keepsCount {n : Width} {s t : State} (h : MovsElement n s t) : KeepsCount s t := by
  obtain ⟨u, v, hread, hwrite, rfl⟩ := h
  exact ((hread.keepsCount.trans hwrite.keepsCount).trans (keepsCount_stepIndex v n .esi nofun)).trans
    (keepsCount_stepIndex _ n .edi nofun)

theorem StosElement.keepsCount {n : Width} {s t : State} (h : StosElement n s t) : KeepsCount s t := by
  obtain ⟨u, hwrite, rfl⟩ := h
  exact hwrite.keepsCount.trans (keepsCount_stepIndex u n .edi nofun)

theorem LodsElement.keepsCount {n : Width} {s t : State} (h : LodsElement n s t) : KeepsCount s t := by
  obtain ⟨u, hread, rfl⟩ := h
  exact (hread.keepsCount.trans (keepsCount_setReg_eax u n _)).trans (keepsCount_stepIndex _ n .esi nofun)

/-! ## The count ends at zero -/

/-- Counting down from `k + 1` in the address size gives `k`. -/
theorem toNat_reg_countDown (s : State) {k : Nat} (h : (s.reg s.cpu.adWidth .ecx).toNat = k + 1) :
    ((countDown s).reg s.cpu.adWidth .ecx).toNat = k := by
  have hread : (countDown s).reg s.cpu.adWidth .ecx =
      truncW s.cpu.adWidth (s.reg s.cpu.adWidth .ecx - 1#32) := Regs.read_write_self ..
  have hlt : k + 1 < 2 ^ (8 * s.cpu.adWidth.bytes) := by
    rw [← h, ← truncW_reg]
    exact truncW_lt _ _
  have hsub : (s.reg s.cpu.adWidth .ecx - 1#32).toNat = k := by bv_omega
  rw [hread, truncW_toNat, hsub, Nat.mod_eq_of_lt (Nat.lt_of_succ_lt hlt)]

theorem Repeats.count_eq_zero {body : State → State → Prop} (hbody : ∀ s t, body s t → KeepsCount s t)
    {k : Nat} {s t : State} (hk : (s.reg s.cpu.adWidth .ecx).toNat = k) (h : Repeats body k s t) :
    t.reg s.cpu.adWidth .ecx = 0 := by
  induction k generalizing s with
  | zero =>
    obtain rfl : t = s := h
    exact BitVec.eq_of_toNat_eq hk
  | succ k ih =>
    obtain ⟨u, hu, hrest⟩ := h
    obtain ⟨hwidth, hcount⟩ := hbody s u hu
    have hdown := toNat_reg_countDown u (k := k) (by rw [hwidth, hcount, hk])
    rw [← hwidth]
    exact ih (s := countDown u) hdown hrest

theorem StringRun.count_eq_zero {body : State → State → Prop} (hbody : ∀ s t, body s t → KeepsCount s t)
    {s t : State} (h : StringRun body s t) (hrep : s.cpu.mode.repe = true ∨ s.cpu.mode.repne = true) :
    t.reg s.cpu.adWidth .ecx = 0 := by
  rw [StringRun, if_pos hrep] at h
  exact h.count_eq_zero hbody rfl

/-- A string instruction runs its element's relation, and repeated it counts to zero. -/
theorem stringOp_spec {body : State → State} {R : State → State → Prop} (hbody : ∀ s, R s (body s))
    (hkeeps : ∀ s t, R s t → KeepsCount s t) (s : State) :
    StringRun R s (stringOp body s) ∧ ((s.cpu.mode.repe = true ∨ s.cpu.mode.repne = true) →
      (stringOp body s).reg s.cpu.adWidth .ecx = 0) :=
  ⟨stringOp_run hbody s, (stringOp_run hbody s).count_eq_zero hkeeps⟩

end Sys2Proof.Machine.State
end

section
/-! The obligations of spec/41_addressing_resolver.md. -/

namespace Sys2Proof.Proofs

open Machine Machine.State

/-- Settles O4: a register takes nothing, and each address size has its own row of R183. -/
theorem resolverByteCounts : Obligations.ResolverByteCounts := by
  unfold Obligations.ResolverByteCounts
  simp only [BitVec.ofNat_eq_ofNat]
  intro sz mod rm bs rest i hrun
  have hdone (m : Mem) : (Fetch.done (.movRm8R8 (.mem m) .eax)).Takes 0 := Fetch.takes_done _
  by_cases hmod : mod = 3#2
  · rw [decodeRm, if_pos hmod] at hrun
    rw [if_pos hmod]
    exact Fetch.takes_done _ bs rest i hrun
  · rw [decodeRm, if_neg hmod, decodeMem] at hrun
    rw [if_neg hmod]
    cases ha : sz.addr32 with
    | false =>
      rw [ha] at hrun
      exact Fetch.takes_decodeMem16 hmod rm hdone bs rest i hrun
    | true =>
      rw [ha] at hrun
      exact Fetch.length_of_decodeMem32 hmod rm hdone hrun

/-- Settles O42, one element at a time; no element writes the count. -/
theorem stringInstructions : Obligations.StringInstructions := by
  rintro s w rfl p hp
  have hmovs (n : Width) := stringOp_spec (movsBody_element n) (fun _ _ => MovsElement.keepsCount) s
  have hstos (n : Width) := stringOp_spec (stosBody_element n) (fun _ _ => StosElement.keepsCount) s
  have hlods (n : Width) := stringOp_spec (lodsBody_element n) (fun _ _ => LodsElement.keepsCount) s
  fin_cases hp
  · exact ⟨_, rfl, hmovs .byte⟩
  · exact ⟨_, rfl, hmovs s.cpu.opWidth⟩
  · exact ⟨_, rfl, hstos .byte⟩
  · exact ⟨_, rfl, hstos s.cpu.opWidth⟩
  · exact ⟨_, rfl, hlods .byte⟩
  · exact ⟨_, rfl, hlods s.cpu.opWidth⟩

/-- Settles O29: the 16-bit forms sum their parts in 16 bits, and a scale is a power of two. -/
theorem operandOffsets : Obligations.OperandOffsets := by
  refine ⟨?sixteen, ?thirtyTwo⟩
  case sixteen =>
    rintro g d x _ _ _ _ v rfl rfl rfl rfl hv
    have hdisp : d.value.setWidth 16 = v := by
      rw [hv]
      cases d with
      | d0 => rfl
      | d8 y => exact setWidth_signExtend_byte y
      | d16 y => exact (BitVec.setWidth_setWidth_of_le y (by decide)).trans y.setWidth_eq
    simp only [offset_based16, hdisp, baseSum16, BitVec.setWidth_add _ _ (show 16 ≤ 32 by decide),
      setWidth_read_word, Regs.get, true_and]
    -- What is left is the absolute form.
    rfl
  case thirtyTwo =>
    rintro g d sc i b x idx v rfl hv
    have hdisp : d.value = v := by
      rw [hv]
      cases d <;> rfl
    simp only [Mem.offset, sibIndex_eq, hdisp, and_self]

/-- Settles O30: an override decides, else the form's default. -/
theorem segmentOfOperand : Obligations.SegmentOfOperand := by
  rintro c m _ _ rfl rfl
  have hdefault (h : c.segOvr = none) : (Rm.mem m).operand c = .mem m.defaultSeg (m.offset c.regs) := by
    simp [Rm.operand, Mem.seg, h]
  refine ⟨fun r hr => by simp [Rm.operand, Mem.seg, hr], fun hnone hstack => ?stack,
    fun hnone hdata => ?data⟩
  case stack =>
    obtain ⟨-, hss⟩ := (defaultSeg_cases m).resolve_right fun h => h.1 hstack
    rw [hdefault hnone, hss]
  case data =>
    obtain ⟨-, hds⟩ := (defaultSeg_cases m).resolve_left fun h => hdata h.1
    rw [hdefault hnone, hds]

/-- Settles O35: each of the five is one store to the operand. -/
theorem movesToOperand : Obligations.MovesToOperand := fun s x _ _ _ _ =>
  have hstore (n : Width) (v : Word32) := storeRm_storesRm n x v s
  ⟨⟨_, rfl, hstore ..⟩, ⟨_, rfl, hstore ..⟩, ⟨_, rfl, hstore ..⟩, ⟨_, rfl, hstore ..⟩, ⟨_, rfl, hstore ..⟩⟩

/-- Settles O36: one load from the operand, then the write of the register. -/
theorem movesFromOperand : Obligations.MovesFromOperand := by
  intro s x r
  simp only [← loadRm_fst]
  exact ⟨⟨_, loadRm_loadsRm .byte x s, rfl⟩, ⟨_, loadRm_loadsRm s.cpu.opWidth x s, rfl⟩⟩

/-- Settles O37: one data access at the offset in `DataSeg()`. -/
theorem movesAtOffset : Obligations.MovesAtOffset := by
  rintro s off _ rfl
  simp only [← memRead_fst]
  exact ⟨⟨_, memRead_readsAt .byte _ s, rfl⟩, ⟨_, memRead_readsAt s.cpu.opWidth _ s, rfl⟩,
    ⟨_, memWrite_writesAt .byte _ _ s, rfl⟩, ⟨_, memWrite_writesAt s.cpu.opWidth _ _ s, rfl⟩⟩

end Sys2Proof.Proofs
end

section
/-! SUPPORT. The segment resolver (spec/42_segment_resolver.md R200 to R208): the table a selector names,
the bytes of a descriptor, and what a load makes of them. -/

namespace Sys2Proof.Machine

/-! ## Selectors -/

/-- Clearing the low three bits of a selector leaves eight times its index (R202). -/
theorem toNat_and_index (v : Word16) : (v &&& 0xFFF8#16).toNat = v.toNat / 8 * 8 := by
  have h : v &&& 0xFFF8#16 = v >>> 3 <<< 3 := by
    ext i hi
    interval_cases i <;> simp
  rw [h]
  simp only [BitVec.toNat_shiftLeft, BitVec.toNat_ushiftRight, Nat.shiftRight_eq_div_pow, Nat.shiftLeft_eq]
  omega

theorem and_index_eq_zero_iff (v : Word16) : v &&& 0xFFF8#16 = 0#16 ↔ v.toNat < 8 := by
  rw [← BitVec.toNat_inj, toNat_and_index, BitVec.toNat_ofNat]
  omega

/-! ## The fields of a descriptor -/

theorem toNat_append_eq {w n : Nat} (x : BitVec w) (y : BitVec n) :
    (x ++ y).toNat = x.toNat * 2 ^ n + y.toNat := by
  rw [BitVec.toNat_append, ← Nat.shiftLeft_add_eq_or_of_lt y.isLt, Nat.shiftLeft_eq]

theorem toNat_join32 (b0 b1 b2 b3 : Byte) : (join32 b0 b1 b2 b3).toNat =
    b0.toNat + 256 * b1.toNat + 65536 * b2.toNat + 16777216 * b3.toNat := by
  simp only [join32, toNat_append_byte]
  omega

/-- A 20-bit limit in units of 4096 bytes, with all lower bits set (R205). -/
theorem shiftLeft_or_fff (limit : BitVec 20) :
    (limit.setWidth 32 <<< 12) ||| 0xFFF#32 = BitVec.ofNat 32 (4096 * limit.toNat + 4095) := by
  have hlt := limit.isLt
  have hshift : (limit.setWidth 32 <<< 12).toNat = limit.toNat <<< 12 := by
    simp only [BitVec.toNat_shiftLeft, BitVec.toNat_setWidth, Nat.shiftLeft_eq]
    omega
  apply BitVec.eq_of_toNat_eq
  rw [BitVec.toNat_or, hshift, BitVec.toNat_ofNat, BitVec.toNat_ofNat,
    ← Nat.shiftLeft_add_eq_or_of_lt (by decide), Nat.shiftLeft_eq]
  omega

section Bytes

variable (b0 b1 b2 b3 b4 b5 b6 b7 : Byte)

/-- The bytes of an assembled doubleword (R67). -/
theorem extractLsb'_join32 :
    (join32 b0 b1 b2 b3).extractLsb' 0 8 = b0 ∧ (join32 b0 b1 b2 b3).extractLsb' 8 8 = b1 ∧
    (join32 b0 b1 b2 b3).extractLsb' 16 8 = b2 ∧ (join32 b0 b1 b2 b3).extractLsb' 24 8 = b3 := by
  simpa only [bytes32, List.cons.injEq, and_true] using bytes32_join32 b0 b1 b2 b3

/-- The access rights of a descriptor from its bytes (R205). -/
theorem descAcc_join32 :
    descAcc (join32 b4 b5 b6 b7) = BitVec.ofNat 16 (b5.toNat + 256 * (b6.toNat / 16)) := by
  obtain ⟨-, h5, -, -⟩ := extractLsb'_join32 b4 b5 b6 b7
  have hhigh : ((join32 b4 b5 b6 b7).extractLsb' 20 4).toNat = b6.toNat / 16 := by
    rw [BitVec.extractLsb'_toNat, toNat_join32, Nat.shiftRight_eq_div_pow]
    omega
  apply BitVec.eq_of_toNat_eq
  rw [descAcc, h5]
  refine (toNat_append_byte (0#4 ++ (join32 b4 b5 b6 b7).extractLsb' 20 4) b5).trans ?_
  rw [toNat_append_eq 0#4, hhigh, BitVec.toNat_ofNat, BitVec.toNat_ofNat]
  omega

/-- The base of a descriptor from its bytes (R205). -/
theorem descBase_join32 : descBase (join32 b0 b1 b2 b3) (join32 b4 b5 b6 b7) =
    BitVec.ofNat 32 (b2.toNat + 256 * b3.toNat + 65536 * b4.toNat + 16777216 * b7.toNat) := by
  obtain ⟨h4, -, -, h7⟩ := extractLsb'_join32 b4 b5 b6 b7
  have hlow : ((join32 b0 b1 b2 b3).extractLsb' 16 16).toNat = b2.toNat + 256 * b3.toNat := by
    rw [BitVec.extractLsb'_toNat, toNat_join32, Nat.shiftRight_eq_div_pow]
    omega
  apply BitVec.eq_of_toNat_eq
  rw [descBase, h4, h7]
  refine (toNat_append_eq (b7 ++ b4) ((join32 b0 b1 b2 b3).extractLsb' 16 16)).trans ?_
  rw [toNat_append_byte, hlow, BitVec.toNat_ofNat]
  omega

/-- The limit of a descriptor from its bytes; `G` is bit 7 of the seventh (R205). -/
theorem descLimit_join32 : descLimit (join32 b0 b1 b2 b3) (join32 b4 b5 b6 b7) =
    if b6.toNat.testBit 7 then
      BitVec.ofNat 32 (4096 * (b0.toNat + 256 * b1.toNat + 65536 * (b6.toNat % 16)) + 4095)
    else BitVec.ofNat 32 (b0.toNat + 256 * b1.toNat + 65536 * (b6.toNat % 16)) := by
  obtain ⟨-, -, h6, -⟩ := extractLsb'_join32 b4 b5 b6 b7
  have hg : (join32 b4 b5 b6 b7).getLsbD 23 = b6.toNat.testBit 7 := by
    conv_rhs => rw [← h6, BitVec.testBit_toNat, BitVec.getLsbD_extractLsb']
    rfl
  have h20 : ((join32 b4 b5 b6 b7).extractLsb' 16 4 ++ (join32 b0 b1 b2 b3).extractLsb' 0 16).toNat =
      b0.toNat + 256 * b1.toNat + 65536 * (b6.toNat % 16) := by
    simp only [toNat_append_eq, BitVec.extractLsb'_toNat, toNat_join32, Nat.shiftRight_eq_div_pow]
    omega
  rw [descLimit, shiftLeft_or_fff, ← BitVec.ofNat_toNat, h20, hg]

/-- The low access-rights bits are those of the sixth byte (R205). -/
theorem getLsbD_descAcc_join32 {i : Nat} (hi : i < 8) :
    (descAcc (join32 b4 b5 b6 b7)).getLsbD i = b5.getLsbD i := by
  obtain ⟨-, h5, -, -⟩ := extractLsb'_join32 b4 b5 b6 b7
  rw [descAcc, h5]
  exact BitVec.getLsbD_append.trans (by simp [hi])

end Bytes

namespace State

variable (s : State)

/-! ## The table and the descriptor a selector names -/

/-- Base and limit of the table the selector names (R204). -/
def descTable (v : Word16) : Word32 × Word32 :=
  if v.getLsbD 2 then (s.cpu.ldtr.base, s.cpu.ldtr.limit)
  else (s.cpu.gdt.base, s.cpu.gdt.limit.setWidth 32)

theorem descTable_base (v : Word16) :
    (s.descTable v).1 = if v.getLsbD 2 then s.cpu.ldtr.base else s.cpu.gdt.base :=
  apply_ite Prod.fst ..

theorem descTable_limit (v : Word16) :
    (s.descTable v).2.toNat = if v.getLsbD 2 then s.cpu.ldtr.limit.toNat else s.cpu.gdt.limit.toNat := by
  rw [← BitVec.toNat_setWidth_of_le (b := s.cpu.gdt.limit) (show 16 ≤ 32 by decide)]
  exact apply_ite (fun t : Word32 × Word32 => t.2.toNat) ..

/-- Where the descriptor begins (R204). -/
def descAddr (v : Word16) : Word32 := (s.descTable v).1 + (v &&& 0xFFF8#16).setWidth 32

theorem descAddr_eq (v : Word16) :
    s.descAddr v = (s.descTable v).1 + BitVec.ofNat 32 (v.toNat / 8 * 8) := by
  rw [descAddr, ← toNat_and_index, BitVec.ofNat_toNat]

/-- Where byte `i` of the descriptor is. -/
theorem descAddr_add (v : Word16) (i : Nat) :
    s.descAddr v + BitVec.ofNat 32 i = (s.descTable v).1 + BitVec.ofNat 32 (v.toNat / 8 * 8 + i) := by
  rw [descAddr_eq, BitVec.add_assoc, ← BitVec.ofNat_add]

/-- The low doubleword of the descriptor, as a read gives it (R204). -/
def descLow (v : Word16) : Word32 := s.valueAt .dword (s.descAddr v)

/-- The high doubleword of the descriptor, as a read gives it (R204). -/
def descHigh (v : Word16) : Word32 := s.valueAt .dword (s.descAddr v + 4#32)

/-- A byte of the descriptor may not be read, or it is absent or of a system segment (R205, R206). -/
def rejectsDesc (v : Word16) : Bool :=
  ((List.range 8).any fun k => !(s.mem.attrAt (s.descAddr v + BitVec.ofNat 32 k)).r) ||
    !(descAcc (s.descHigh v)).getLsbD 7 || !(descAcc (s.descHigh v)).getLsbD 4

/-- The memory after the descriptor's eight bytes were read (R204). -/
def descMem (v : Word16) : Memory := (s.mem.readLE .read (s.descAddr v) 8).2

theorem accessedBy_descMem (v : Word16) : s.mem.AccessedBy .read (s.descAddr v) 8 (s.descMem v) :=
  Memory.readLE_accessedBy .read s.mem (s.descAddr v) (show 8 < 4294967296 by decide)

/-- The segment the descriptor gives (R205, R207). -/
def descSeg (v : Word16) : Seg :=
  ⟨v, descBase (s.descLow v) (s.descHigh v), descLimit (s.descLow v) (s.descHigh v), descAcc (s.descHigh v)⟩

/-- Readable bytes are the doubleword an access gives (R63, R67). -/
theorem valueAt_dword_of_readable {a : Word32}
    (h : ∀ i, i < 4 → (s.mem.attrAt (a + BitVec.ofNat 32 i)).r = true) :
    s.valueAt .dword a = join32 (s.mem.byteAt (a + 0#32)) (s.mem.byteAt (a + 1#32))
      (s.mem.byteAt (a + 2#32)) (s.mem.byteAt (a + 3#32)) := by
  have hbytes := Memory.valueLE_eq_ofDigits (m := s.mem) (k := .read) (a := a)
    (bs := [s.mem.byteAt (a + 0#32), s.mem.byteAt (a + 1#32), s.mem.byteAt (a + 2#32),
      s.mem.byteAt (a + 3#32)])
    fun i b hb => by
      obtain ⟨hi, rfl⟩ := List.getElem?_eq_some_iff.1 hb
      refine (if_pos (h i hi)).trans ?_
      have : i < 4 := hi
      interval_cases i <;> rfl
  exact (congrArg (BitVec.ofNat 32) (hbytes.trans (ofDigits_join32 ..))).trans (BitVec.ofNat_toNat 32 _)

/-! ## A readable descriptor -/

section Readable

variable {s} {v : Word16} (hr : ∀ i, i < 8 → (s.mem.attrAt (s.descAddr v + BitVec.ofNat 32 i)).r = true)
include hr

theorem descLow_of_readable : s.descLow v =
    join32 (s.mem.byteAt (s.descAddr v + 0#32)) (s.mem.byteAt (s.descAddr v + 1#32))
      (s.mem.byteAt (s.descAddr v + 2#32)) (s.mem.byteAt (s.descAddr v + 3#32)) :=
  s.valueAt_dword_of_readable fun i hi => hr i (by omega)

theorem descHigh_of_readable : s.descHigh v =
    join32 (s.mem.byteAt (s.descAddr v + 4#32)) (s.mem.byteAt (s.descAddr v + 5#32))
      (s.mem.byteAt (s.descAddr v + 6#32)) (s.mem.byteAt (s.descAddr v + 7#32)) := by
  have hhigh := s.valueAt_dword_of_readable (a := s.descAddr v + 4#32) fun i hi => by
    have := hr (4 + i) (by omega)
    rwa [BitVec.ofNat_add, ← BitVec.add_assoc] at this
  simp only [BitVec.add_assoc] at hhigh
  exact hhigh

/-- The segment a readable descriptor gives, from its bytes `b` (R205). -/
theorem descSeg_of_readable {b : Nat → Nat}
    (hb : ∀ i, i < 8 → b i = (s.mem.byteAt (s.descAddr v + BitVec.ofNat 32 i)).toNat) :
    s.descSeg v =
      { sel := v
        base := BitVec.ofNat 32 (b 2 + 256 * b 3 + 65536 * b 4 + 16777216 * b 7)
        limit := if (b 6).testBit 7 then
            BitVec.ofNat 32 (4096 * (b 0 + 256 * b 1 + 65536 * (b 6 % 16)) + 4095)
          else BitVec.ofNat 32 (b 0 + 256 * b 1 + 65536 * (b 6 % 16))
        acc := BitVec.ofNat 16 (b 5 + 256 * (b 6 / 16)) } := by
  rw [descSeg, descLow_of_readable hr, descHigh_of_readable hr, descBase_join32, descLimit_join32,
    descAcc_join32, hb 0 (by decide), hb 1 (by decide), hb 2 (by decide), hb 3 (by decide),
    hb 4 (by decide), hb 5 (by decide), hb 6 (by decide), hb 7 (by decide)]

end Readable

/-- What a descriptor must be for a load: readable, present, not of a system segment (R205, R206). -/
theorem rejectsDesc_eq_false_iff (v : Word16) : s.rejectsDesc v = false ↔
    (∀ i, i < 8 → (s.mem.attrAt (s.descAddr v + BitVec.ofNat 32 i)).r = true) ∧
    (s.mem.byteAt (s.descAddr v + 5#32)).getLsbD 7 = true ∧
    (s.mem.byteAt (s.descAddr v + 5#32)).getLsbD 4 = true := by
  have hiff : s.rejectsDesc v = false ↔
      (∀ i, i < 8 → (s.mem.attrAt (s.descAddr v + BitVec.ofNat 32 i)).r = true) ∧
      (descAcc (s.descHigh v)).getLsbD 7 = true ∧ (descAcc (s.descHigh v)).getLsbD 4 = true := by
    simp only [rejectsDesc, Bool.or_eq_false_iff, List.any_eq_false, List.mem_range, Bool.not_eq_true',
      Bool.not_eq_false, Bool.not_eq_false', and_assoc]
  rw [hiff, and_congr_right_iff]
  intro hr
  rw [descHigh_of_readable hr, getLsbD_descAcc_join32 _ _ _ _ (by decide),
    getLsbD_descAcc_join32 _ _ _ _ (by decide)]

/-! ## Loads in protected mode -/

/-- A failed load records `#GP(v)` in an idle slot and does nothing else (R208, R345). -/
theorem segFail_eq (v : Word16) : s.segFail v =
    (false, s.withSlot (some (s.cpu.intr.getD ⟨13, .fault, true, true, v.setWidth 32⟩))) := by
  rw [segFail, raise_eq]
  rfl

variable {s} {r : SegReg} {v : Word16}

/-- A null selector in protected mode (R203). -/
theorem setSeg_null (hpe : s.cpu.pe = true) (hv : v.toNat < 8) :
    s.setSeg r v = (true, s.setSegReg r ⟨v, 0, 0, 0⟩) := by
  rw [setSeg, if_pos hpe, if_pos ((and_index_eq_zero_iff v).2 hv)]
  rfl

/-- Any other selector in protected mode (R204). -/
theorem setSeg_of_not_null (hpe : s.cpu.pe = true) (hv : 8 ≤ v.toNat) :
    s.setSeg r v = s.setSegProtected r v := by
  rw [setSeg, if_pos hpe, if_neg (mt (and_index_eq_zero_iff v).1 (Nat.not_lt.2 hv))]

/-- All a load of a selector that is not null can do in protected mode (R204 to R208). -/
theorem setSegProtected_eq : s.setSegProtected r v =
    if (s.descTable v).2.toNat < v.toNat / 8 * 8 + 7 then s.segFail v
    else if s.rejectsDesc v then (s.setMem (s.descMem v)).segFail v
    else (true, (s.setMem (s.descMem v)).setSegReg r (s.descSeg v)) := by
  have hlow : (s.memRead .dword (s.descAddr v)).1 = s.descLow v := memRead_fst ..
  have hhigh : ((s.memRead .dword (s.descAddr v)).2.memRead .dword (s.descAddr v + 4#32)).1 = s.descHigh v :=
    (memRead_fst ..).trans (valueAt_memRead ..)
  have hread : ((s.memRead .dword (s.descAddr v)).2.memRead .dword (s.descAddr v + 4#32)).2 =
      s.setMem (s.descMem v) := (s.setMem_readLE_add (s.descAddr v) 4 4).symm
  have hidx : ((v &&& 0xFFF8#16).setWidth 32).toNat = v.toNat / 8 * 8 := by
    rw [BitVec.toNat_setWidth_of_le (by decide), toNat_and_index]
  rw [← hidx, rejectsDesc, descSeg, ← hlow, ← hhigh, ← hread]
  rfl

end State

end Sys2Proof.Machine
end

section
/-! The obligations of spec/42_segment_resolver.md. -/

namespace Sys2Proof.Proofs

open Machine Machine.State

/-- Settles O26: real mode keeps limit and access rights, and the null selector reads nothing. -/
theorem realAndNullSegmentLoads : Obligations.RealAndNullSegmentLoads := by
  refine fun s r v => ⟨fun hreal => ?_, setSeg_null⟩
  have hbase : v.setWidth 32 <<< 4 = BitVec.ofNat 32 (16 * v.toNat) := by
    apply BitVec.eq_of_toNat_eq
    rw [BitVec.toNat_shiftLeft, BitVec.toNat_setWidth_of_le (by decide), BitVec.toNat_ofNat, Nat.shiftLeft_eq,
      Nat.mul_comm]
  rw [setSeg_real hreal, hbase]

/-- Settles O39: the operand is one load, and its value the selector. -/
theorem movesToSegment : Obligations.MovesToSegment := by
  intro s sr x
  rw [← loadRm_fst]
  exact ⟨_, loadRm_loadsRm .word x s, rfl⟩

/-- Settles O27: the eight bytes are two doublewords, and the fields are those of R205. -/
theorem descriptorLoad : Obligations.DescriptorLoad := by
  rintro s r v _ _ b hpe hv rfl rfl hlimit hbytes hpresent hsegment
  rw [← descTable_base] at hbytes ⊢
  rw [← descTable_limit] at hlimit
  simp only [← descAddr_add, ← descAddr_eq] at hbytes ⊢
  have hr (i : Nat) (hi : i < 8) := (hbytes i hi).1
  have hb (i : Nat) (hi : i < 8) := (hbytes i hi).2
  have haccept : s.rejectsDesc v = false := by
    rw [hb 5 (by decide)] at hpresent hsegment
    exact (s.rejectsDesc_eq_false_iff v).2 ⟨hr, hpresent, hsegment⟩
  refine ⟨_, s.accessedBy_descMem v, ?_⟩
  rw [setSeg_of_not_null hpe hv, setSegProtected_eq, if_neg (Nat.not_lt.2 hlimit), haccept,
    descSeg_of_readable hr hb]
  rfl

/-- Settles O28: out of the limit nothing is read, and within it a rejected descriptor is. -/
theorem segmentLoadFailure : Obligations.SegmentLoadFailure := by
  rintro s r v _ _ hpe hv rfl rfl hcause
  simp only [← descTable_base, ← descTable_limit, ← descAddr_add, ← descAddr_eq] at hcause ⊢
  rw [setSeg_of_not_null hpe hv, setSegProtected_eq]
  by_cases hlimit : (s.descTable v).2.toNat < v.toNat / 8 * 8 + 7
  · simp only [if_pos hlimit, segFail_eq]
    exact ⟨s.mem, rfl, rfl⟩
  · have hreject : s.rejectsDesc v = true := by
      refine Bool.eq_true_of_not_eq_false fun haccept => ?_
      obtain ⟨hr, hpresent, hsegment⟩ := (s.rejectsDesc_eq_false_iff v).1 haccept
      rcases hcause.resolve_left hlimit with ⟨i, hi, hdenied⟩ | habsent | hsystem
      · exact Bool.false_ne_true (hdenied.symm.trans (hr i hi))
      · exact Bool.false_ne_true (habsent.symm.trans hpresent)
      · exact Bool.false_ne_true (hsystem.symm.trans hsegment)
    simp only [if_neg hlimit, if_pos hreject, segFail_eq]
    exact ⟨_, s.accessedBy_descMem v, rfl⟩

end Sys2Proof.Proofs
end

section
/-! SUPPORT. What a value cut to the width of its use leaves: a register write takes no more of it, the
image of the flags loses nothing, and a port number is the whole of `DX` (spec/10_state.md R21, R22, R27;
spec/43_ref_data_movement.md R226, R240, R260). -/

namespace Sys2Proof.Machine

/-- A write of a view takes only the bits of its width (R22). -/
@[simp] theorem Regs.write_truncW (g : Regs) (n : Width) (r : Reg) (v : Word32) :
    g.write n r (truncW n v) = g.write n r v := by
  rw [Regs.write_eq_merge, Regs.write_eq_merge]
  congr 1
  apply BitVec.eq_of_getLsbD_eq
  intro i hi
  rw [getLsbD_merge _ _ _ hi, getLsbD_merge _ _ _ hi, getLsbD_viewMask n r hi]
  by_cases hview : viewLow n r ≤ i ∧ i < viewLow n r + 8 * n.bytes
  · have hbit : i - viewLow n r < 8 * n.bytes := by omega
    simp [getLsbD_truncW n v (show i - viewLow n r < 32 by omega), hbit]
  · simp [hview]

namespace State

theorem setReg_atOpSize (s t : State) (r : Reg) (v : Word32) :
    t.setReg s.cpu.opWidth r (s.atOpSize v) = t.setReg s.cpu.opWidth r v := by
  simp only [← truncW_opWidth, setReg, Regs.write_truncW]

/-- EFLAGS has no bit above either operand size (R27). -/
theorem truncW_opWidth_image (s : State) (f : Flags) : truncW s.cpu.opWidth f.image = f.image := by
  unfold Cpu.opWidth
  split
  · exact truncW_dword _
  · exact truncW_word_image f

end State

theorem dxPort_eq (s : State) : dxPort s = s.cpu.regs.edx.setWidth 16 := setWidth_read_word ..

end Sys2Proof.Machine
end

section
/-! The obligations of spec/43_ref_data_movement.md on immediates, `LEA`, the stack and the ports. -/

namespace Sys2Proof.Proofs

open Machine Machine.State

/-- Settles O38: the register takes of `LEA`'s offset what the operand size has room for. -/
theorem immediatesAndLea : Obligations.ImmediatesAndLea := by
  refine fun s r _ _ m => ⟨rfl, rfl, ?lea⟩
  rw [setReg_atOpSize]
  rfl

/-- Settles O40: all six are one push, and the image of the flags fits both operand sizes. -/
theorem pushes : Obligations.Pushes := by
  intro s
  have hpush (v : Word32) := push_pushes s.cpu.opWidth v s
  refine ⟨fun r => ⟨_, rfl, hpush _⟩, fun p hp => ?listed⟩
  fin_cases hp
  · exact ⟨_, by rw [exec, execPushf, truncW_opWidth_image], hpush _⟩
  all_goals exact ⟨_, rfl, hpush _⟩

/-- Settles O41: all five are one pop, then the write of the destination. -/
theorem pops : Obligations.Pops := fun s =>
  ⟨(s.pop s.cpu.opWidth).2, (s.pop s.cpu.opWidth).1, pop_fst .., pop_pops .., fun _ => rfl, rfl, rfl, rfl, rfl⟩

/-- Settles O43: each of the eight is one port access, at the immediate or at `DX`. -/
theorem portInstructions : Obligations.PortInstructions := by
  rintro s p _ _ _ rfl rfl rfl
  rw [← dxPort_eq]
  refine ⟨fun q hq => ?ins, fun q hq => ?outs⟩
  case ins => fin_cases hq <;> rfl
  case outs => fin_cases hq <;> rfl

end Sys2Proof.Proofs
end

section
/-! SUPPORT. Conditional jumps and what near transfers push and pop (spec/44_ref_control_system.md R280 to R291). -/

namespace Sys2Proof.Machine

/-- The extension of a fetched offset of the operand size (R280). -/
theorem sextW_opWidth (c : Cpu) (d : Word32) :
    sextW c.opWidth d = if c.mode.data32 then d else (d.setWidth 16).signExtend 32 := by
  unfold Cpu.opWidth
  split <;> rfl

namespace State

/-- An instruction that ends in a conditional jump does both of what R283 says. -/
theorem exec_of_jumpIf {i : Instr} {s u : State} {c : Bool} {d : Byte} {p : Prop}
    (hi : exec i s = .next (jumpIf c d u)) (hc : c = true ↔ p) :
    (p → exec i s = .next (u.withEip (u.nearTarget (d.signExtend 32)))) ∧
      (¬p → exec i s = .next u) := by
  rw [hi, ← hc, jumpIf, jumpRel_eq]
  exact ⟨fun h => by rw [if_pos h], fun h => by rw [if_neg h]⟩

theorem push_atOpSize_pushes (s t : State) (v : Word32) :
    Pushes s.cpu.opWidth (s.atOpSize v) t (t.push s.cpu.opWidth (truncW s.cpu.opWidth v)) := by
  rw [truncW_opWidth]
  exact push_pushes ..

/-- Popping the instruction pointer (R291). -/
theorem jumpTo_pop (n : Width) (s t : State) : t.jumpTo n (s.pop n).1 = t.withEip (s.topValue n) := by
  rw [pop_fst, topValue]
  simp only [jumpTo, Cpu.jumpTo, truncW_valueAt]
  rfl

end State

end Sys2Proof.Machine
end

section
/-! SUPPORT. The stack as words below its top: what pushes on a 16-bit stack leave for the pops after them
(spec/43_ref_data_movement.md R236, R237; spec/60_exceptions.md R354, R361). -/

namespace Sys2Proof.Machine

/-! ## Writing back a view -/

theorem Regs.ext_get {g g' : Regs} (h : ∀ q, g.get q = g'.get q) : g = g' := by
  obtain ⟨⟩ := g
  obtain ⟨⟩ := g'
  simp only [Regs.mk.injEq]
  exact ⟨h .eax, h .ecx, h .edx, h .ebx, h .esp, h .ebp, h .esi, h .edi⟩

/-- Of two writes to a view the last one counts (R22). -/
@[simp] theorem Regs.write_write (g : Regs) (n : Width) (r : Reg) (v w : Word32) :
    (g.write n r v).write n r w = g.write n r w := by
  refine Regs.ext_get fun q => BitVec.eq_of_getLsbD_eq fun i hi => ?_
  simp only [Regs.getLsbD_get_write _ _ _ _ _ hi]
  split <;> rfl

/-- Writing a view's own value changes nothing (R22). -/
@[simp] theorem Regs.write_read (g : Regs) (n : Width) (r : Reg) : g.write n r (g.read n r) = g := by
  refine Regs.ext_get fun q => BitVec.eq_of_getLsbD_eq fun i hi => ?_
  rw [Regs.getLsbD_get_write _ _ _ _ _ hi]
  split
  · next h =>
    obtain ⟨rfl, hlow, hhigh⟩ := h
    rw [Regs.getLsbD_read _ _ _ (by omega), show viewLow n r + (i - viewLow n r) = i by omega]
    simp only [show i - viewLow n r < 8 * n.bytes by omega, decide_true, Bool.true_and]
  · rfl

/-! ## Permissions and values under accesses and writes -/

namespace Memory

variable {m m' : Memory} {a b : Word32} {n v : Nat}

theorem PermitsReadWrite.of_accessedBy {k : Access} {l : Nat} (h : m.PermitsReadWrite b l)
    (ha : m.AccessedBy k a n m') : m'.PermitsReadWrite b l := by
  obtain ⟨-, hattr, -, -⟩ := ha
  intro i hi
  rw [hattr]
  split
  · obtain ⟨hr, hw, -⟩ := k.guarded_after (m.attrAt (b + BitVec.ofNat 32 i))
    rw [hr, hw]
    exact h i hi
  · exact h i hi

theorem PermitsReadWrite.of_writtenBy {l : Nat} (h : m.PermitsReadWrite b l)
    (hp : m.PermitsReadWrite a n) (hw : m.WrittenBy a n v m') : m'.PermitsReadWrite b l := by
  intro i hi
  rw [hw.attrAt hp]
  split <;> exact h i hi

/-- A permitted write is read back. -/
theorem WrittenBy.valueLE_self (hp : m.PermitsReadWrite a n) (hw : m.WrittenBy a n v m') :
    m'.valueLE .read a n = v % 256 ^ n :=
  valueLE_eq_mod fun _ hi => hw.valueAt hp hi

theorem WrittenBy.valueLE_outside {j : Access} {l : Nat} (hw : m.WrittenBy a n v m')
    (hout : ∀ i, i < l → ¬inSpan a n (b + BitVec.ofNat 32 i)) : m'.valueLE j b l = m.valueLE j b l := by
  obtain ⟨-, hframe, -, -⟩ := hw
  rw [valueLE_eq_sum, valueLE_eq_sum]
  congr 1
  refine List.map_congr_left fun i hi => ?_
  obtain ⟨hbyte, hattr⟩ := hframe _ (hout i (List.mem_range.1 hi))
  rw [Memory.valueAt, Memory.valueAt, hbyte, hattr]

end Memory

namespace State

/-! ## A 16-bit stack pointer lowered -/

/-- The state with a 16-bit stack pointer lowered by `k` bytes and nothing else (R236). -/
def lowered (s : State) (k : Nat) : State :=
  s.setReg .word .esp (s.reg .word .esp - BitVec.ofNat 32 k)

/-- The linear address of the stack word `k` bytes below the top. -/
def stackWord (s : State) (k : Nat) : Word32 := (s.lowered k).stackTop

theorem setReg_cpu_congr {s t : State} (h : s.cpu = t.cpu) (n : Width) (r : Reg) (v : Word32) :
    (s.setReg n r v).cpu = (t.setReg n r v).cpu := by
  rw [setReg, setReg, h]

/-- A pointer moved twice is moved by the sum, in its width. -/
theorem setReg_setReg_add (s : State) (n : Width) (r : Reg) (v d : Word32) :
    (s.setReg n r v).setReg n r ((s.setReg n r v).reg n r + d) = s.setReg n r (v + d) := by
  have hsum : truncW n ((s.setReg n r v).reg n r + d) = truncW n (v + d) := by
    rw [reg, setReg_regs, Regs.read_write_self, truncW_truncW_add]
  have hregs : s.cpu.regs.write n r ((s.setReg n r v).reg n r + d) = s.cpu.regs.write n r (v + d) := by
    rw [← Regs.write_truncW, hsum, Regs.write_truncW]
  simp only [setReg, Regs.write_write] at hregs ⊢
  rw [hregs]

theorem lowered_zero (s : State) : s.lowered 0 = s := by
  simp only [lowered, BitVec.sub_zero, setReg, reg, Regs.write_read]

/-- A push takes the pointer one word lower (R236). -/
theorem lowered_push (s : State) (k : Nat) :
    (s.lowered k).setReg .word .esp ((s.lowered k).reg .word .esp - 2#32) = s.lowered (k + 2) := by
  rw [BitVec.sub_eq_add_neg, lowered, setReg_setReg_add, lowered,
    show s.reg .word .esp - BitVec.ofNat 32 k + -2#32 = s.reg .word .esp - BitVec.ofNat 32 (k + 2) by bv_omega]

/-- A pop takes it one word higher (R237). -/
theorem lowered_pop (s : State) (k : Nat) :
    (s.lowered (k + 2)).setReg .word .esp ((s.lowered (k + 2)).reg .word .esp + 2#32) = s.lowered k := by
  rw [lowered, setReg_setReg_add, lowered,
    show s.reg .word .esp - BitVec.ofNat 32 (k + 2) + 2#32 = s.reg .word .esp - BitVec.ofNat 32 k by bv_omega]

theorem stackWidth_word {s : State} (h : s.cpu.mode.stack32 = false) : s.cpu.stackWidth = .word := by
  simp [Cpu.stackWidth, h]

theorem stackTop_congr {s t : State} (h : s.cpu = t.cpu) : s.stackTop = t.stackTop := by
  rw [stackTop, stackTop, reg, reg, h]

theorem stackWord_eq {s : State} (h : s.cpu.mode.stack32 = false) (k : Nat) :
    s.stackWord k = s.cpu.segs.ss.base + truncW .word (s.reg .word .esp - BitVec.ofNat 32 k) := by
  have hread : (s.lowered k).reg .word .esp = truncW .word (s.reg .word .esp - BitVec.ofNat 32 k) :=
    s.cpu.regs.read_write_self .word .esp _
  rw [stackWord, stackTop, stackWidth_word (s := s.lowered k) h, hread]
  rfl

/-- A word of the stack shares no byte with a deeper one, though the pointer wraps at 16 bits. -/
theorem not_inSpan_stackWord {s : State} (h : s.cpu.mode.stack32 = false) {j k i : Nat} (hjk : j + 2 ≤ k)
    (hk : k ≤ 65534) (hi : i < 2) : ¬inSpan (s.stackWord k) 2 (s.stackWord j + BitVec.ofNat 32 i) := by
  have hword (d : Nat) (hd : d ≤ 65534) : (truncW .word (s.reg .word .esp - BitVec.ofNat 32 d)).toNat =
      (65536 + (s.reg .word .esp).toNat - d) % 65536 := by
    rw [truncW_toNat, BitVec.toNat_sub, BitVec.toNat_ofNat, Width.bytes]
    omega
  have hj' := hword j (by omega)
  have hk' := hword k hk
  rw [stackWord_eq h, stackWord_eq h, inSpan, BitVec.toNat_sub, BitVec.toNat_add, BitVec.toNat_add,
    BitVec.toNat_add, BitVec.toNat_ofNat, hj', hk']
  omega

theorem ReadsAt.cpu_eq {n : Width} {a : Word32} {s t : State} (h : ReadsAt n a s t) : t.cpu = s.cpu := by
  rw [h.eq_setMem, setMem_cpu]

/-- A read changes no value. -/
theorem ReadsAt.valueAt {n : Width} {a : Word32} {s t : State} (h : ReadsAt n a s t) (l : Width) (b : Word32) :
    t.valueAt l b = s.valueAt l b := by
  obtain ⟨m', ha, rfl⟩ := h
  have hvalue := Memory.AccessedBy.valueAt (j := .read) ha
  simp only [State.valueAt, setMem_mem, Memory.valueLE_eq_sum, hvalue]

theorem ReadsAt.permitsReadWrite {n : Width} {a b : Word32} {l : Nat} {s t : State} (h : ReadsAt n a s t)
    (hp : s.mem.PermitsReadWrite b l) : t.mem.PermitsReadWrite b l := by
  obtain ⟨m', ha, rfl⟩ := h
  exact hp.of_accessedBy ha

section Step

variable {s t u : State} {k : Nat} {v : Word32} (hs : s.cpu.mode.stack32 = false)

include hs

/-- A permitted push of a word onto the lowered stack. -/
theorem Pushes.lowered (h : Pushes .word v t u) (ht : t.cpu = (s.lowered k).cpu)
    (hp : t.mem.PermitsReadWrite (s.stackWord (k + 2)) 2) :
    u.cpu = (s.lowered (k + 2)).cpu ∧ t.mem.WrittenBy (s.stackWord (k + 2)) 2 v.toNat u.mem := by
  obtain ⟨t', ht', m', hw, rfl⟩ := h
  have hcpu : t'.cpu = (s.lowered (k + 2)).cpu := by
    rw [ht', stackWidth_word (by rw [ht]; exact hs), ← lowered_push, setReg_cpu_congr ht, reg, reg, ht]
    rfl
  have hmem : t'.mem = t.mem := by rw [ht', setReg_mem]
  have htop : t'.stackTop = s.stackWord (k + 2) := stackTop_congr hcpu
  rw [htop, hmem] at hw ⊢
  have hgranted : t.mem.deniesWrite (s.stackWord (k + 2)) Width.word.bytes = false := hp.deniesWrite
  refine ⟨?_, hw⟩
  rw [hgranted, haltIf_false, setMem_cpu, hcpu]

/-- A pop of a word off the lowered stack: the value and what it leaves. -/
theorem Pops.lowered (h : Pops .word t u) (ht : t.cpu = (s.lowered (k + 2)).cpu) :
    u.cpu = (s.lowered k).cpu ∧ t.topValue .word = t.valueAt .word (s.stackWord (k + 2)) ∧
      ∀ a, u.valueAt .word a = t.valueAt .word a := by
  obtain ⟨t', hread, rfl⟩ := h
  refine ⟨?_, ?_, fun a => hread.valueAt .word a⟩
  · rw [stackWidth_word (by rw [ht]; exact hs), ← lowered_pop, reg, reg, ← ht]
    exact setReg_cpu_congr (hread.cpu_eq.trans ht) ..
  · rw [topValue, stackTop_congr ht, stackWord]

end Step

/-! ## A frame of three words (R354) -/

/-- The three words of a frame below the stack's top may be read and written. -/
def PermitsFrame (s : State) (m : Memory) : Prop :=
  ∀ k, k = 2 ∨ k = 4 ∨ k = 6 → m.PermitsReadWrite (s.stackWord k) 2

theorem valueAt_of_writtenBy {s t : State} {a v : Word32} (hp : s.mem.PermitsReadWrite a 2)
    (hw : s.mem.WrittenBy a 2 v.toNat t.mem) : t.valueAt .word a = truncW .word v := by
  apply BitVec.eq_of_toNat_eq
  rw [State.valueAt, show Width.word.bytes = 2 from rfl, hw.valueLE_self hp, truncW_toNat, BitVec.toNat_ofNat, Width.bytes]
  omega

theorem valueAt_stackWord_of_writtenBy {s t u : State} (hs : s.cpu.mode.stack32 = false) {j k v : Nat}
    (hjk : j + 2 ≤ k) (hk : k ≤ 65534) (hw : t.mem.WrittenBy (s.stackWord k) 2 v u.mem) :
    u.valueAt .word (s.stackWord j) = t.valueAt .word (s.stackWord j) :=
  congrArg _ (hw.valueLE_outside fun _ hi => not_inSpan_stackWord hs hjk hk hi)

/-- What three permitted pushes leave: each word at its place, and the pointer six bytes lower. -/
theorem pushes_frame {s t u v w : State} {a b c : Word32} (hs : s.cpu.mode.stack32 = false)
    (ht : t.cpu = s.cpu) (hp : s.PermitsFrame t.mem) (h1 : Pushes .word a t u) (h2 : Pushes .word b u v)
    (h3 : Pushes .word c v w) :
    w.cpu = (s.lowered 6).cpu ∧ w.valueAt .word (s.stackWord 2) = truncW .word a ∧
      w.valueAt .word (s.stackWord 4) = truncW .word b ∧ w.valueAt .word (s.stackWord 6) = truncW .word c := by
  have hp2 := hp 2 (.inl rfl)
  obtain ⟨hu, hw1⟩ := h1.lowered hs (k := 0) (by rw [lowered_zero, ht]) hp2
  have hp4 := (hp 4 (.inr (.inl rfl))).of_writtenBy hp2 hw1
  obtain ⟨hv, hw2⟩ := h2.lowered hs hu hp4
  have hp6 := ((hp 6 (.inr (.inr rfl))).of_writtenBy hp2 hw1).of_writtenBy hp4 hw2
  obtain ⟨hw, hw3⟩ := h3.lowered hs hv hp6
  refine ⟨hw, ?_, ?_, valueAt_of_writtenBy hp6 hw3⟩
  · rw [valueAt_stackWord_of_writtenBy hs (by decide) (by decide) hw3,
      valueAt_stackWord_of_writtenBy hs (by decide) (by decide) hw2, valueAt_of_writtenBy hp2 hw1]
  · rw [valueAt_stackWord_of_writtenBy hs (by decide) (by decide) hw3, valueAt_of_writtenBy hp4 hw2]

/-- What three pops give of a frame: its words from the last pushed to the first, and the pointer back. -/
theorem pops_frame {s t u v w : State} (hs : s.cpu.mode.stack32 = false) (ht : t.cpu = (s.lowered 6).cpu)
    (h1 : Pops .word t u) (h2 : Pops .word u v) (h3 : Pops .word v w) :
    w.cpu = s.cpu ∧ t.topValue .word = t.valueAt .word (s.stackWord 6) ∧
      u.topValue .word = t.valueAt .word (s.stackWord 4) ∧
      v.topValue .word = t.valueAt .word (s.stackWord 2) := by
  obtain ⟨hu, htop1, hval1⟩ := h1.lowered hs ht
  obtain ⟨hv, htop2, hval2⟩ := h2.lowered hs hu
  obtain ⟨hw, htop3, -⟩ := h3.lowered hs (k := 0) hv
  refine ⟨by rw [hw, lowered_zero], htop1, ?_, ?_⟩
  · rw [htop2, hval1]
  · rw [htop3, hval2, hval1]

/-- All `IRET` does in real mode with a frame of three words on the stack (R298). -/
theorem exec_iret_frame {s t : State} {ip sel : Word16} {f : Flags} (hpe : s.cpu.pe = false)
    (hs : s.cpu.mode.stack32 = false) (hdata : s.cpu.mode.data32 = false) (ht : t.cpu = (s.lowered 6).cpu)
    (hflags : t.valueAt .word (s.stackWord 2) = f.image)
    (hsel : t.valueAt .word (s.stackWord 4) = sel.setWidth 32)
    (hip : t.valueAt .word (s.stackWord 6) = ip.setWidth 32) :
    ∃ u, exec .iret t = .next u ∧ u.cpu = { s.cpu with
      flags := f
      segs := s.cpu.segs.set .cs { s.cpu.segs.cs with sel := sel, base := sel.setWidth 32 <<< 4 }
      eip := ip.setWidth 32 } := by
  have hword : t.cpu.opWidth = .word := by
    rw [ht]
    exact if_neg (ne_true_of_eq_false hdata)
  obtain ⟨hcpu, hpop1, hpop2, hpop3⟩ := pops_frame hs ht (pop_pops ..) (pop_pops ..) (pop_pops ..)
  refine ⟨_, rfl, ?_⟩
  simp only [returnFromInterrupt, hword, pop_fst, hpop1, hpop2, hpop3, hip, hsel, hflags, Flags.ofImage_image]
  generalize (((t.pop .word).2.pop .word).2.pop .word).2 = x at hcpu
  have hload := setSeg_real (s := x) (by rw [hcpu]; exact hpe) .cs sel
  have htarget : truncW .word (ip.setWidth 32) = ip.setWidth 32 := by
    rw [truncW_word, BitVec.setWidth_setWidth_of_le ip (by decide), BitVec.setWidth_eq]
  rw [BitVec.setWidth_setWidth_of_le sel (by decide), BitVec.setWidth_eq, hload, if_pos rfl, jumpTo, Cpu.jumpTo,
    htarget, setFlags, setCpu, setSegReg, hcpu]
  rfl

/-- The state a real-mode handler starts in, but for memory and the stack pointer (R355). -/
def entered (s : State) (cs : Seg) (f : Flags) (pc : Word32) : State :=
  s.setCpu { s.cpu with flags := f, segs := { s.cpu.segs with cs := cs }, eip := pc, intr := none }

/-- What the delivery of an interrupt leaves on a stack with room for its frame, where it is no restart
and has no error code. -/
theorem EntersReal.frame {i : Intr} {s t : State} (h : EntersReal i s t) (herr : i.hasErr = false)
    (hrestart : i.restart = false) (hs : s.cpu.mode.stack32 = false) (hp : s.PermitsFrame s.mem) :
    t.cpu = ((s.entered t.cpu.segs.cs t.cpu.flags t.cpu.eip).lowered 6).cpu ∧
      t.valueAt .word (s.stackWord 2) = s.cpu.flags.image ∧
      t.valueAt .word (s.stackWord 4) = s.cpu.segs.cs.sel.setWidth 32 ∧
      t.valueAt .word (s.stackWord 6) = (s.cpu.eip.setWidth 16).setWidth 32 := by
  obtain ⟨a, u1, u2, u3, u4, u5, u6, ret, rfl, hret, hr1, hr2, h3, h4, h5, h6, ht⟩ := h
  rw [hrestart] at hret
  rw [herr] at h6
  subst h6 hret
  have hp2 : s.PermitsFrame u2.mem := fun k hk => hr2.permitsReadWrite (hr1.permitsReadWrite (hp k hk))
  obtain ⟨hcpu, hflags, hcs, hip⟩ := pushes_frame hs (hr2.cpu_eq.trans hr1.cpu_eq) hp2 h3 h4 h5
  have hmem : t.mem = u6.mem := by rw [ht]
  have hval (b : Word32) : t.valueAt .word b = u6.valueAt .word b := by rw [State.valueAt, hmem, State.valueAt]
  refine ⟨?_, ?_, ?_, ?_⟩
  · rw [ht, hcpu]; rfl
  · rw [hval, hflags, truncW_word_image]
  · rw [hval, hcs, truncW_word]; simp
  · rw [hval, hip, truncW_word]; simp

end State

end Sys2Proof.Machine
end

section
/-! The obligations of spec/44_ref_control_system.md. -/

namespace Sys2Proof.Proofs

open Machine Machine.State

/-- Settles O44: each of the sixteen is one conditional jump on its condition of R282. -/
theorem conditionalJumps : Obligations.ConditionalJumps := by
  rintro s d _ rfl p hp
  fin_cases hp <;> exact exec_of_jumpIf rfl (by simp [Flags.cond])

/-- Settles O45: the count after the count down is zero exactly where it was one. -/
theorem loops : Obligations.Loops := by
  rintro s _ d _ rfl rfl
  refine ⟨fun p hp => ?counted, ?jcxz⟩
  case counted =>
    have hcount := countZero_countDown s
    fin_cases hp <;> exact exec_of_jumpIf (u := countDown s) rfl (by simp [← hcount, countDown])
  case jcxz =>
    rw [← jumpRel_eq]
    simp [exec, execJcxz, jumpIf, countZero]

/-- Settles O46: a push changes neither the operand size nor `EIP`, so `CALL`'s target is that of `JMP`. -/
theorem nearTransfers : Obligations.NearTransfers := by
  rintro s b d _ rfl
  rw [← sextW_opWidth]
  refine ⟨?jmp8, ?jmp, ⟨_, push_atOpSize_pushes s s s.cpu.eip, ?call⟩, ⟨_, pop_pops .., ?ret⟩⟩
  case jmp8 => rw [exec, execJmpRel8, jumpRel_eq]
  case jmp => rw [exec, execJmpRel, jumpRel_eq]
  case call => rw [exec, execCallRel, jumpRel_eq]; rfl
  case ret => rw [exec, execRet, jumpTo_pop]

/-- Settles O47: the stack accesses come first, and the end of all three is one far transfer. -/
theorem farTransfers : Obligations.FarTransfers := by
  rintro s off sel _ rfl
  refine ⟨?jmp, ⟨_, _, push_pushes .., push_atOpSize_pushes s _ s.cpu.eip, ?call⟩,
    ⟨_, _, pop_pops .., pop_pops .., ?ret⟩⟩
  case jmp => rw [exec, execJmpFar, farTo_eq _ _ _ _ rfl]
  case call => rw [← farTo_eq _ s.cpu.opWidth] <;> rfl
  case ret => rw [← pop_fst, ← pop_fst, ← farTo_eq _ s.cpu.opWidth] <;> rfl

/-- Settles O48: a raise fills the slot of an idle machine and no other (R343). -/
theorem softwareInterrupts : Obligations.SoftwareInterrupts := by
  intro s n
  have hraise (i : Intr) : s.raise i = s.withSlot (some (s.cpu.intr.getD i)) := raise_eq s i
  refine ⟨?int3, ?int, fun hovf => ?overflow, fun hovf => ?none⟩
  case int3 => rw [exec, execInt3, hraise]; rfl
  case int => rw [exec, execInt, hraise]; rfl
  case overflow => rw [exec_into_of_overflow hovf, hraise]; rfl
  case none => simp [exec, execInto, hovf]

/-- Settles O49: after the three pops it is a far transfer, and the flags are written where that succeeds. -/
theorem interruptReturn : Obligations.InterruptReturn := by
  rintro s _ rfl
  refine ⟨_, _, _, pop_pops .., pop_pops .., pop_pops .., ?_⟩
  rw [← pop_fst, ← pop_fst, ← pop_fst, ← farTo_eq _ s.cpu.opWidth, exec, execIret, returnFromInterrupt, farTo]
  · exact ⟨fun hload => by rw [if_pos hload, if_pos hload], fun hfail => by rw [hfail]; rfl⟩
  · rfl

/-- Settles O50: each writes its one field; `HALTED` is set whatever it was. -/
theorem haltAndFlagInstructions : Obligations.HaltAndFlagInstructions := by
  rintro s _ rfl
  refine ⟨?hlt, rfl, fun p hp => ?flags⟩
  case hlt => rw [exec, execHlt, haltIf, Bool.or_true]
  case flags => fin_cases hp <;> rfl

/-- Settles O57: the three words delivery pushes lie in permitted bytes and share none, so the three pops give
them back, and nothing between writes another register. -/
theorem returnUndoesDelivery : Obligations.ReturnUndoesDelivery := by
  intro s t u n e hreal hcall hstack hdata hpending hperm hdeliver hiret
  have hframe : s.PermitsFrame s.mem := by
    intro k hk i hi
    obtain ⟨hr0, hw0, hr1, hw1⟩ := hperm k hk _ rfl
    interval_cases i
    · rw [BitVec.add_zero]; exact ⟨hr0, hw0⟩
    · exact ⟨hr1, hw1⟩
  obtain ⟨t', ht', henters⟩ := deliverBuiltIn_real hreal ⟨n, .soft, false, false, e⟩
  obtain rfl : t' = t := by
    rw [deliver_of_noCallback hpending hcall, ht'] at hdeliver
    exact Host.Outcome.next.inj hdeliver
  obtain ⟨hcpu, hflags, hcs, hip⟩ := henters.frame rfl rfl hstack hframe
  obtain ⟨u', hu', hres⟩ := exec_iret_frame (s := s.entered _ _ _) hreal hstack hdata hcpu hflags hcs hip
  obtain rfl : u = u' := Host.Outcome.next.inj (hiret.symm.trans hu')
  rw [hres]
  exact ⟨rfl, rfl, rfl, rfl, rfl⟩

end Sys2Proof.Proofs
end

section
/-! SUPPORT. Delivery in protected mode, with and without the host's vector lookup
(spec/60_exceptions.md R350, R354 to R356). -/

namespace Sys2Proof.Machine.State

theorem frameWidth_protected {s : State} (h : s.cpu.pe = true) :
    s.frameWidth = if s.cpu.mode.code32 then .dword else .word := by
  simp [frameWidth, h]

/-- EFLAGS has no bit above either frame width (R27). -/
theorem truncW_frameWidth_image (s : State) (f : Flags) : truncW s.frameWidth f.image = f.image := by
  unfold frameWidth
  split
  · exact truncW_dword _
  · exact truncW_word_image f

/-- The pushes of a frame in either mode (R354). -/
theorem pushFrame_pushes_frameWidth (s : State) (i : Intr) (ret : Word16 × Word32) :
    ∃ u v w, Pushes s.frameWidth s.cpu.flags.image s u ∧
      Pushes s.frameWidth (ret.1.setWidth 32) u v ∧ Pushes s.frameWidth (truncW s.frameWidth ret.2) v w ∧
      if i.hasErr then Pushes .dword i.err w (s.pushFrame i ret) else s.pushFrame i ret = w := by
  refine ⟨_, _, _, push_pushes .., push_pushes .., push_pushes .., ?_⟩
  rw [pushFrame, truncW_frameWidth_image]
  split
  · exact push_pushes ..
  · rfl

/-- Protected mode takes the target from the host alone (R356). -/
theorem vectorTarget_protected {s : State} (h : s.cpu.pe = true) (nr : Byte) :
    s.vectorTarget nr = if s.host.pmLookup then some (Config.pmVectorLookup nr, s) else none := by
  rw [vectorTarget, if_pos h]

theorem deliverBuiltIn_without_lookup {s : State} (h : s.cpu.pe = true) (hlookup : s.host.pmLookup = false)
    (i : Intr) : s.deliverBuiltIn i = .refused .pmDeliveryUnsupported := by
  simp [deliverBuiltIn, vectorTarget_protected h, hlookup]

/-- With the lookup, the CS load decides the delivery: the frame and the flags come before it, the jump
and the idle slot after. -/
theorem deliverBuiltIn_with_lookup {s : State} (h : s.cpu.pe = true) (hlookup : s.host.pmLookup = true)
    (i : Intr) {v : State}
    (hv : v = (s.pushFrame i (s.returnAddress i)).setFlags { s.cpu.flags with ifl := false, tf := false }) :
    s.deliverBuiltIn i =
      if (v.setSeg .cs (Config.pmVectorLookup i.nr).1).1 then
        .next (((v.setSeg .cs (Config.pmVectorLookup i.nr).1).2.withEip
          (truncW s.frameWidth (Config.pmVectorLookup i.nr).2)).withSlot none)
      else .refused .pmDeliveryUnsupported := by
  obtain ⟨hflags, -, -⟩ := pushFrame_keeps s i (s.returnAddress i)
  simp only [deliverBuiltIn, vectorTarget_protected h, hlookup, if_true]
  rw [hflags, hv]
  rfl

end Sys2Proof.Machine.State
end

section
/-! The obligations of spec/60_exceptions.md. -/

namespace Sys2Proof.Proofs

open Machine Machine.State

/-- Settles O53: without a callback step 6 is the built-in path, which real mode never refuses. -/
theorem realModeDelivery : Obligations.RealModeDelivery := by
  intro s i hi hreal hcall
  rw [deliver_of_noCallback hi hcall]
  exact deliverBuiltIn_real hreal i

/-- Settles O54: the lookup gives the target before anything is pushed, and the CS load decides last. -/
theorem protectedModeDelivery : Obligations.ProtectedModeDelivery := by
  intro s i w hi hprot hcall hw
  rw [← frameWidth_protected hprot] at hw
  subst hw
  rw [deliver_of_noCallback hi hcall]
  refine ⟨fun hlookup => deliverBuiltIn_without_lookup hprot hlookup i, fun hlookup => ?lookup⟩
  obtain ⟨u1, u2, u3, h1, h2, h3, h4⟩ := pushFrame_pushes_frameWidth s i (s.returnAddress i)
  exact ⟨u1, u2, u3, s.pushFrame i (s.returnAddress i), _, _, _, s.returnAddress i, rfl, h1, h2, h3, h4, rfl,
    rfl, deliverBuiltIn_with_lookup hprot hlookup i rfl⟩

/-- Settles O52: a raise leaves the slot full, so a second one finds it pending. -/
theorem firstRaiseWins : Obligations.FirstRaiseWins := fun _ i =>
  ⟨fun h => raise_of_idle h i, fun _ h => raise_pending h i, rfl, raise_pending (raise_intr _ i)⟩

end Sys2Proof.Proofs
end

section
/-! SUPPORT. What the CPU context holds after reset, read through its accessors (spec/10_state.md R45), and
the operation that writes it (R380). -/

namespace Sys2Proof.Machine

@[simp] theorem Cpu.reset_regs_get (r : Reg) : Cpu.reset.regs.get r = 0 := by cases r <;> rfl

@[simp] theorem Cpu.reset_segs_cs : Cpu.reset.segs.get .cs = .resetCs := rfl

theorem Cpu.reset_segs_get_of_ne_cs {r : SegReg} (h : r ≠ .cs) : Cpu.reset.segs.get r = .resetData := by
  cases r with
  | cs => exact absurd rfl h
  | es | ss | ds | fs | gs => rfl

@[simp] theorem Cpu.reset_cr_get (k : Fin 8) : Cpu.reset.cr[k] = 0 := by fin_cases k <;> rfl

@[simp] theorem Cpu.reset_dr_get (k : Fin 8) : Cpu.reset.dr[k] = 0 := Cpu.reset_cr_get k

@[simp] theorem State.hostReset_cpu (s : State) : s.hostReset.cpu = .reset := rfl

/-- A reset forgets the context it found, so a second one finds nothing more to do (R380). -/
@[simp] theorem State.hostReset_hostReset (s : State) : s.hostReset.hostReset = s.hostReset := rfl

end Sys2Proof.Machine
end

section
/-! The obligations of spec/70_reset_and_hazards.md. -/

namespace Sys2Proof.Proofs

open Machine Machine.State

/-- Settles O14: the context written is `Cpu.reset`, which does not depend on the one it replaces; the
indexed registers are read by their rules and the single fields are R45's own numerals. -/
theorem resetWritesTheContext : Obligations.ResetWritesTheContext := by
  intro s
  obtain ⟨-, -, -, hflags⟩ := flagsRegister
  refine ⟨⟨Cpu.reset, rfl, Cpu.reset_regs_get, rfl, hflags, Cpu.reset_segs_cs,
    fun _ => Cpu.reset_segs_get_of_ne_cs, rfl, fun k => ⟨Cpu.reset_cr_get k, Cpu.reset_dr_get k⟩, ?fields⟩,
    s.hostReset_hostReset, s.hostReset_cpu.symm⟩
  case fields => exact ⟨rfl, rfl, rfl, rfl, rfl, rfl, rfl, rfl, rfl⟩

end Sys2Proof.Proofs
end
